-- ==== Sys2Proof/Word.lean ====
section
/-! DEFINITION. The widths of LSPE's values: bytes, the 104-bit payload (which also carries the output vector), the 112-bit
command word. Bit 0 is the least significant bit; a bit index at or beyond the width reads as 0 (R8), as `getLsbD` does. -/

namespace Sys2Proof

/-- A byte: the contents of one output-port register (R51). -/
abbrev Byte := BitVec 8

/-- The 104 payload bits of a command word (R80). The output vector, `N_OUT` ≤ 104 bits wide, is held in this width (log 6). -/
abbrev Vec := BitVec 104

/-- One command word `CW` (R80). -/
abbrev CmdWord := BitVec 112

/-- A register id of the output-port register bank (R50). -/
abbrev RegId := Nat

/-- `mask(n) = 2^n - 1` (R8), inside 104 bits. -/
def ones (n : Nat) : Vec := BitVec.ofNat 104 (2 ^ n - 1)

/-- The vector whose bits below `n` are those of `f`; the bits from `n` up are 0. -/
def ofBits (f : Nat → Bool) : Nat → Vec
  | 0 => 0#104
  | n + 1 => ofBits f n ||| (if f n then 1#104 <<< n else 0#104)

end Sys2Proof
end

