-- ==== Sys2Proof/Config.lean ====
section
/-! DEFINITION. The implementation parameters of R4 as one configuration record, plain data that State holds: it is loaded from
the straps at reset and changes at no other time (R24, R222). What makes a configuration well formed (R5) is
`Config.wf` in Machine/Construction.lean. -/

namespace Sys2Proof

/-- Where a pin lives: a register of the output-port bank and a bit offset 0 to 7 (R4 `PINMAP`, R25). -/
structure Pin where
  reg : RegId
  bit : Fin 8
  deriving DecidableEq, Repr

/-- The three lines (R52): `c` the clock, `a` the data line of chain A, `b` the data line of chain B. -/
inductive Line where
  | c
  | a
  | b
  deriving DecidableEq, Repr

/-- The resolved pins (R25): `(reg_c, bit_c)`, `(reg_a, bit_a)`, `(reg_b, bit_b)`. -/
structure Pins where
  c : Pin
  a : Pin
  b : Pin
  deriving DecidableEq, Repr

/-- The parameters of R4. `W2_W` and `PACK_LEN` are computed from them (Machine/Operands.lean). -/
structure Config where
  /-- `N_OUT`: number of outputs. -/
  nOut : Nat
  /-- `SHIFT_K`: offset between the chains in the sequential split. -/
  shiftK : Nat
  /-- `BY32_W`: length of chain A in the by-32 split. -/
  by32W : Nat
  /-- `BY32_TAIL`: bits of the third word appended to chain B in the by-32 split. -/
  by32Tail : Nat
  /-- `WORD_W`: width of the words W0 and W1. -/
  wordW : Nat
  /-- `FRAME_BYTES`: bytes of output vector in one animation frame record. -/
  frameBytes : Nat
  /-- `N_REGS`: number of output-port registers. -/
  nRegs : Nat
  /-- `N_PINS`: number of pin ids. -/
  nPins : Nat
  /-- `PINMAP`: entry `p` is the place of pin id `p`. -/
  pinMap : List Pin
  clkPin : Nat
  daPin : Nat
  dbPin : Nat
  /-- `BRT_PIN`, `none` where no brightness pin is configured. -/
  brtPin : Option Nat
  /-- `T_MIN`: the minimum delay unit; no rule of behaviour depends on it (R231). -/
  tMin : Nat
  /-- `FRAME_COUNT`. -/
  frameCount : Nat
  /-- `LOOP_FLAGS`; only bit 0 is read (R192). -/
  loopFlags : BitVec 16
  /-- `FRAME_ROM`: one record of `FRAME_BYTES` bytes per frame (R55). -/
  frameRom : List (List Byte)
  /-- `DELAY_ROM`: one entry, in milliseconds, per frame (R56). -/
  delayRom : List (BitVec 16)
  /-- `RST_FAST`: value of the flag FAST after reset. -/
  rstFast : Bool
  deriving DecidableEq, Repr

/-- `LOOP_FLAGS[0]`: 1 is ping-pong, 0 is wrap (R192). -/
def Config.pingPong (cfg : Config) : Bool := cfg.loopFlags.getLsbD 0

/-- The example platform EX of 41_gpio_mux_maskgen.md: 24 pins on 3 registers, `PINMAP(p) = (p div 8, p mod 8)`. -/
def Config.examplePinMap : List Pin :=
  (List.range 24).map fun p => ⟨p / 8, ⟨p % 8, Nat.mod_lt _ (by decide)⟩⟩

/-- DESIGN CHOICE (log 1, 2): the configuration of `State.reset`. The fixed parameters have the values of R4. For the OPEN ones,
which the spec fixes nowhere, it takes the spec's own examples: platform EX, layout L1 (pins 8, 9, 10), no brightness pin, and
the tables of program P3 (95_test_vectors.md); `RST_FAST` and `T_MIN` are 0 and 1. -/
def Config.sample : Config where
  nOut := 99
  shiftK := 3
  by32W := 32
  by32Tail := 3
  wordW := 32
  frameBytes := 9
  nRegs := 3
  nPins := 24
  pinMap := Config.examplePinMap
  clkPin := 8
  daPin := 9
  dbPin := 10
  brtPin := none
  tMin := 1
  frameCount := 4
  loopFlags := 1#16
  frameRom := [[0x01#8, 0, 0, 0, 0, 0, 0, 0, 0], [0, 0, 0, 0, 0x08#8, 0, 0, 0, 0],
    [0, 0, 0, 0, 0, 0, 0, 0, 0x80#8], List.replicate 9 0xff#8]
  delayRom := [100#16, 0#16, 65535#16, 20#16]
  rstFast := false

end Sys2Proof
end

