-- ==== Sys2Proof/Syntax.lean ====
section
/-! DEFINITION. The commands of LSPE (R86). The 21 rows of the opcode table are 8 commands: its 14 rows named SETB are the one
command R174 with the byte count 0 to 13 as an operand (log 14). -/

namespace Sys2Proof

/-- A command with its operands (R81). -/
inductive Instr where
  /-- `SET vec` (R173). The operand is the whole payload: `N_OUT` is a parameter of the machine, so the bits at `N_OUT` and
  above are dropped by `MASK` when the command runs (R82, R88; log 15). -/
  | set (vec : Vec)
  /-- `SETB n, bytes` (R174); `n` is the length of the list. -/
  | setb (bytes : List Byte)
  /-- `FINISH` (R176). -/
  | finish
  /-- `BRIGHT level` (R175). -/
  | bright (level : Byte)
  /-- `FAST v` (R177). -/
  | fast (v : Bool)
  /-- `BY32 v` (R178). -/
  | by32 (v : Bool)
  /-- `DEFER v` (R179). -/
  | defer (v : Bool)
  /-- `NEXT` (R190). -/
  | next
  deriving DecidableEq, Repr

end Sys2Proof
end

