-- ==== Sys2Proof/WellFormed.lean ====
section
/-! DEFINITION. Which commands the encoding can express. -/

namespace Sys2Proof

/-- The most bytes a SETB carries: the 13 payload bytes of a command word (R80, R83). -/
def maxSetbBytes : Nat := 13

/-- A command is well formed when its operands fit the command word: a SETB has 0 to 13 bytes (R83); every other operand fits by
its type. -/
def Instr.wf : Instr → Bool
  | .set _ => true
  | .setb bytes => decide (bytes.length ≤ maxSetbBytes)
  | .finish => true
  | .bright _ => true
  | .fast _ => true
  | .by32 _ => true
  | .defer _ => true
  | .next => true

end Sys2Proof
end

