-- ==== Sys2Proof/Decode.lean ====
section
/-! DEFINITION. The command encoding of 30_encoding.md: the decoder, total on every 112-bit word and rejecting by name (R86, R87),
then the encoder (R80 to R85), the opcode table as rows, and the word the host asks about. -/

namespace Sys2Proof

/-- The opcode byte `CW[111:104]` (R80). -/
def opOf (w : CmdWord) : Byte := w.extractLsb' 104 8

/-- The payload `P = CW[103:0]` (R80). -/
def payloadOf (w : CmdWord) : Vec := w.extractLsb' 0 104

/-- The payload byte `PB[k] = P[8k+7:8k]` (R80). -/
def payloadByte (p : Vec) (k : Nat) : Byte := p.extractLsb' (8 * k) 8

/-- Why a command word names no command. It is no fault: the engine accepts the word and does nothing (R87). -/
inductive DecodeError where
  | reservedOpcode (op : Byte)
  deriving DecidableEq, Repr

/-- The command of a word (R86). Payload bits that the format does not use are ignored (R88). -/
def decode (w : CmdWord) : Except DecodeError Instr :=
  if opOf w = 0x01#8 then .ok (.set (payloadOf w))
  else if opOf w = 0x02#8 then .ok .finish
  else if opOf w = 0x03#8 then .ok (.bright (payloadByte (payloadOf w) 0))
  else if opOf w = 0x04#8 then .ok (.fast ((payloadOf w).getLsbD 0))
  else if opOf w = 0x05#8 then .ok (.by32 ((payloadOf w).getLsbD 0))
  else if opOf w = 0x06#8 then .ok (.defer ((payloadOf w).getLsbD 0))
  else if opOf w = 0x07#8 then .ok .next
  else if (opOf w).extractLsb' 4 4 = 1#4 ∧ ((opOf w).extractLsb' 0 4).toNat ≤ 13 then
    .ok (.setb ((List.range ((opOf w).extractLsb' 0 4).toNat).map (payloadByte (payloadOf w))))
  else .error (.reservedOpcode (opOf w))

/-- Bytes packed little-endian (R54): byte `k` stands in bits `8k+7` to `8k`. -/
def packBytes : List Byte → Vec
  | [] => 0#104
  | b :: bs => (packBytes bs <<< 8) ||| b.zeroExtend 104

/-- The command word with opcode `op` and payload `p` (R80). -/
def commandWord (op : Byte) (p : Vec) : CmdWord := op.zeroExtend 112 <<< 104 ||| p.zeroExtend 112

/-- The payload of a flag operand, `v` in bit 0 (R84). -/
def flagPayload (v : Bool) : Vec := if v then 1#104 else 0#104

/-- The command word of a well-formed command, with 0 in every ignored payload bit (R90). -/
def encode : Instr → CmdWord
  | .set vec => commandWord 0x01#8 vec
  | .setb bytes => commandWord (0x10#8 ||| BitVec.ofNat 8 bytes.length) (packBytes bytes)
  | .finish => commandWord 0x02#8 0#104
  | .bright level => commandWord 0x03#8 (level.zeroExtend 104)
  | .fast v => commandWord 0x04#8 (flagPayload v)
  | .by32 v => commandWord 0x05#8 (flagPayload v)
  | .defer v => commandWord 0x06#8 (flagPayload v)
  | .next => commandWord 0x07#8 0#104

/-- A row of the opcode table (R86): a mnemonic and the opcode byte its match holds under the mask `0xFF << 104`. -/
structure OpcodeRow where
  mnemonic : String
  op : Byte
  deriving DecidableEq, Repr

/-- The word mask of every row (R86). -/
def OpcodeRow.mask : CmdWord := commandWord 0xff#8 0#104

/-- The match value of a row. -/
def OpcodeRow.value (r : OpcodeRow) : CmdWord := commandWord r.op 0#104

/-- A word matches a row when it agrees with the match value under the mask. -/
def OpcodeRow.hits (r : OpcodeRow) (w : CmdWord) : Bool := w &&& OpcodeRow.mask == r.value

/-- The 21 rows of opcode_table.json (R86): seven single opcodes and one row for each byte count of SETB. -/
def opcodeTable : List OpcodeRow :=
  [⟨"SET", 0x01#8⟩, ⟨"FINISH", 0x02#8⟩, ⟨"BRIGHT", 0x03#8⟩, ⟨"FAST", 0x04#8⟩, ⟨"BY32", 0x05#8⟩, ⟨"DEFER", 0x06#8⟩,
    ⟨"NEXT", 0x07#8⟩] ++
  (List.range 14).map fun n => ⟨"SETB", 0x10#8 + BitVec.ofNat 8 n⟩

/-- The mnemonic of a command in the opcode table. -/
def Instr.mnemonic : Instr → String
  | .set _ => "SET"
  | .setb _ => "SETB"
  | .finish => "FINISH"
  | .bright _ => "BRIGHT"
  | .fast _ => "FAST"
  | .by32 _ => "BY32"
  | .defer _ => "DEFER"
  | .next => "NEXT"

/-- The command the decoder reads from a word given by its bits; a command word is always 112 bits long, the bits above `nbits`
being 0. -/
def decodeTableWord (nbits w : Nat) : Option Instr :=
  match decode (BitVec.ofNat 112 (w % 2 ^ nbits)) with
  | .ok i => some i
  | .error _ => none

end Sys2Proof
end

