-- ==== Sys2Proof/Machine/Operands.lean ====
section
/-! DEFINITION. The operand forms of the output vector: `MASK`, the word form, the packed byte form (R21, R54, R100 to R102). -/

namespace Sys2Proof.Machine

open Sys2Proof

/-- `MASK(x) = x & mask(N_OUT)` (R100): every value that enters VREG passes through it. -/
def maskVec (cfg : Config) (x : Vec) : Vec := x &&& ones cfg.nOut

/-- `V[j]`, 0 for `j` ≥ `N_OUT` (R8). -/
def vecBit (cfg : Config) (v : Vec) (j : Nat) : Bool := decide (j < cfg.nOut) && v.getLsbD j

/-- The word view `W0 = V[31:0]` (R21). -/
def word0 (cfg : Config) (v : Vec) : Vec := maskVec cfg v &&& ones cfg.wordW

/-- The word view `W1 = V[63:32]` (R21). -/
def word1 (cfg : Config) (v : Vec) : Vec := (maskVec cfg v >>> cfg.wordW) &&& ones cfg.wordW

/-- The word view `W2 = V[N_OUT-1:64]` (R21). -/
def word2 (cfg : Config) (v : Vec) : Vec := maskVec cfg v >>> (2 * cfg.wordW)

/-- `W2_W = N_OUT - 64` (R4), 0 where `W2` is empty (R21). -/
def w2Width (cfg : Config) : Nat := cfg.nOut - 2 * cfg.wordW

/-- `FROM_WORDS(w0, w1, w2)` (R101). -/
def fromWords (cfg : Config) (w0 w1 w2 : Vec) : Vec :=
  maskVec cfg ((w0 &&& ones cfg.wordW) ||| ((w1 &&& ones cfg.wordW) <<< cfg.wordW) ||| (w2 <<< (2 * cfg.wordW)))

/-- `PACK_LEN = ceil(N_OUT/8)` (R4). -/
def packLen (cfg : Config) : Nat := (cfg.nOut + 7) / 8

/-- `FROM_BYTES(n, bytes)` (R102): little-endian, a byte that is not supplied counts as 0. -/
def fromBytes (cfg : Config) (n : Nat) (bytes : List Byte) : Vec := maskVec cfg (packBytes (bytes.take n))

/-- `TO_BYTES(V)` (R102): the `PACK_LEN` bytes `V[8k+7:8k]`. -/
def toBytes (cfg : Config) (v : Vec) : List Byte := (List.range (packLen cfg)).map (payloadByte (maskVec cfg v))

end Sys2Proof.Machine
end

