-- ==== Sys2Proof/Machine/Interleaver.lean ====
section
/-! DEFINITION. The two chain-split transforms and the by-32 inverse (40_interleaver.md). -/

namespace Sys2Proof.Machine

open Sys2Proof

/-- Chain A, sequential: `a_i = V[i]` (R103). -/
def seqA (cfg : Config) (v : Vec) (i : Nat) : Bool := vecBit cfg v i

/-- Chain B, sequential: `b_i = V[i + SHIFT_K]` (R104). -/
def seqB (cfg : Config) (v : Vec) (i : Nat) : Bool := vecBit cfg v (i + cfg.shiftK)

/-- Chain A, by 32 (R106). -/
def by32A (cfg : Config) (v : Vec) (i : Nat) : Bool := decide (i < cfg.by32W) && vecBit cfg v i

/-- Chain B, by 32 (R106). -/
def by32B (cfg : Config) (v : Vec) (i : Nat) : Bool :=
  decide (i < cfg.by32W + cfg.by32Tail) && vecBit cfg v (cfg.by32W + i)

/-- The pair `(a_i, b_i)` of the split that `by32` selects (R108). -/
def splitPair (by32 : Bool) (cfg : Config) (v : Vec) (i : Nat) : Bool × Bool :=
  if by32 then (by32A cfg v i, by32B cfg v i) else (seqA cfg v i, seqB cfg v i)

/-- `SPLIT(by32, V)`: exactly `N_OUT` pairs, position 0 first (R108). -/
def split (by32 : Bool) (cfg : Config) (v : Vec) : List (Bool × Bool) :=
  (List.range cfg.nOut).map (splitPair by32 cfg v)

/-- `RECON(a, b)` of the by-32 split (R107); a position past the end of the streams contributes 0. The two sums have no bit in
common, so adding is or-ing. -/
def recon (cfg : Config) (pairs : List (Bool × Bool)) : Vec :=
  ofBits (fun i => (pairs.getD i (false, false)).1) cfg.by32W |||
    (ofBits (fun i => (pairs.getD i (false, false)).2) (cfg.by32W + cfg.by32Tail) <<< cfg.by32W)

end Sys2Proof.Machine
end

