-- ==== Sys2Proof/Machine/Construction.lean ====
section
/-! DEFINITION. Construction (R5, R24, R25): which configurations have an engine, and the resolution of pin ids to registers and
bit offsets that reset performs once. -/

namespace Sys2Proof.Machine

open Sys2Proof

/-- The pins present: the three lines and, where configured, the brightness pin (R24). -/
def pinsPresent (cfg : Config) : List Nat := [cfg.clkPin, cfg.daPin, cfg.dbPin] ++ cfg.brtPin.toList

/-- Every pin present is below `N_PINS` (R5). -/
def pinsInRange (cfg : Config) : Bool := (pinsPresent cfg).all (· < cfg.nPins)

/-- The pins present are pairwise different (R5). -/
def pinsDistinct (cfg : Config) : Bool := decide (pinsPresent cfg).Nodup

/-- `PINMAP` is total on the pin ids, stays inside the register bank and is injective (R4, R25). -/
def pinMapSound (cfg : Config) : Bool :=
  decide (cfg.pinMap.length = cfg.nPins) && cfg.pinMap.all (·.reg < cfg.nRegs) && decide cfg.pinMap.Nodup

/-- `N_OUT` is at least 1 (R4) and fits the payload of a command word (R80). -/
def widthEncodable (cfg : Config) : Bool := decide (1 ≤ cfg.nOut) && decide (cfg.nOut ≤ 104)

/-- The tables have `FRAME_COUNT` ≤ 65535 entries (R4), each frame record `FRAME_BYTES` bytes (R55). -/
def tablesSound (cfg : Config) : Bool :=
  decide (cfg.frameCount ≤ 65535) && decide (cfg.frameRom.length = cfg.frameCount) &&
    decide (cfg.delayRom.length = cfg.frameCount) && cfg.frameRom.all (·.length == cfg.frameBytes)

/-- A well-formed configuration (R5), inside the command encoding (R80); any other has no engine (R214). `T_MIN` > 0 is R4's. -/
def configWf (cfg : Config) : Bool :=
  pinsInRange cfg && pinsDistinct cfg && pinMapSound cfg && widthEncodable cfg && tablesSound cfg && decide (0 < cfg.tMin)

/-- `PINMAP(p)` (R25). Outside a well-formed configuration the pin may not exist; no engine runs there (R5). -/
def resolvePin (cfg : Config) (p : Nat) : Pin := cfg.pinMap.getD p ⟨0, 0⟩

/-- The register of the brightness pin, where one is configured (R226). -/
def brightRegister (cfg : Config) : Option RegId := cfg.brtPin.map fun p => (resolvePin cfg p).reg

/-- The three resolved pins, computed once, at reset (R25). -/
def resolvePins (cfg : Config) : Pins :=
  ⟨resolvePin cfg cfg.clkPin, resolvePin cfg cfg.daPin, resolvePin cfg cfg.dbPin⟩

end Sys2Proof.Machine
end

