-- ==== Sys2Proof/Machine/State.lean ====
section
/-! DEFINITION. The state of the machine as plain data: the block's registers (R20 to R28), the output-port registers outside it
(R29), the record of events (R10, R61), and the two other agents' scripts (R6). INVENTORY.md lists every field. -/

namespace Sys2Proof.Machine

open Sys2Proof

/-- Byte registers by id: strictly rising ids, no entry equal to what an unlisted id reads as (`Memory.wf` in Ops.lean). -/
abbrev Memory := List Host.Cell

/-- Where in a frame the engine is (R26, R149). -/
inductive Phase where
  | idle
  | base
  | start
  | shift
  | wait
  deriving DecidableEq, Repr

/-- The direction of the animation cursor (R28). -/
inductive Dir where
  | forward
  | backward
  deriving DecidableEq, Repr

/-- One event, the level of observation (R10). -/
inductive Event where
  /-- `RD(r)=b`. -/
  | rd (r : RegId) (b : Byte)
  /-- `WR(r,b)`. -/
  | wr (r : RegId) (b : Byte)
  /-- `DLY`: one minimum delay unit. -/
  | dly
  /-- `WAITMS(n)`. -/
  | waitMs (n : BitVec 16)
  /-- `PWM(level)`. -/
  | pwm (level : Byte)
  deriving DecidableEq, Repr

/-- Who made an event of the history (R6). -/
inductive Agent where
  | engine
  | environment
  deriving DecidableEq, Repr

/-- What the engine does in one turn of a command: one event, or the end of a wait. -/
inductive Op where
  /-- First half of `PinWrite(x, v)`: `t = RD(reg_x)` (R123). -/
  | pinRead (x : Line)
  /-- Second half of `PinWrite(x, v)`: the `WR` of `t` with the line's bit replaced (R123). -/
  | pinWrite (x : Line) (v : Bool)
  /-- `DLY()` (R9). -/
  | delay
  /-- `SNAP[r] <- RD(r)`, and the table entries of `r` made from it (R124, R125). -/
  | snapshot (r : RegId)
  /-- `WR(r, LUT[r][a][b])` (R126). -/
  | table (r : RegId) (a b : Bool)
  /-- `WR(reg_c, LUT[reg_c][a][b] | m_c)` (R127). -/
  | clkHigh (a b : Bool)
  /-- `PWM(level)` (R175). -/
  | pwm (level : Byte)
  /-- `WAITMS(n)`: the wait of `NEXT` begins (R190 step 2). -/
  | hold (n : BitVec 16)
  /-- The wait is over and the cursor advances (R190 steps 3 to 5); the one turn without an event. -/
  | advance
  deriving DecidableEq, Repr

/-- One turn of the engine in a command, with the sequencer position it belongs to (R149): PHASE and, where the phase counts, POS.
`frameEnd` is `N_OUT` where the turn is the last event of a frame, after which PHASE is IDLE and POS is `N_OUT`. -/
structure Act where
  phase : Phase
  pos : Option Nat
  op : Op
  frameEnd : Option Nat
  deriving DecidableEq, Repr

/-- What an agent outside the block does between two turns. -/
inductive EnvAct where
  /-- Another agent reads `PORT[r]` (R51). -/
  | read (r : RegId)
  /-- Another agent writes `PORT[r]` (R62). -/
  | write (r : RegId) (b : Byte)
  /-- `rst` is sampled high with these straps (R220). -/
  | reset (straps : Config)
  deriving DecidableEq, Repr

/-- Why the machine stops with a fault. The hardware has none (R200): both are stops of the model, and no command of a state that
meets `Inv` raises one. -/
inductive Fault where
  /-- Raised by `envStep`: the environment's script accesses a register that the platform does not have (R50; log 17). Safe. -/
  | noSuchRegister (r : RegId)
  /-- Raised by `execNext`: the cursor lies outside the tables, which R57 and R191 exclude (log 18). Safe. -/
  | frameIndexOutOfTable (f : Nat)
  deriving DecidableEq, Repr

/-- Why the machine refuses to go on. -/
inductive Refusal where
  /-- Raised by an arm of `exec` for a command without a meaning; no arm does. Safe. -/
  | notModelled (mnemonic : String)
  /-- Raised by `step`: an ill-formed configuration has no engine (R5, R214; log 19). Safe. -/
  | illFormedConfiguration
  deriving DecidableEq, Repr

/-- The machine. -/
structure State where
  /-- `CFG` and the parameters (R24, R30). -/
  cfg : Config
  /-- The resolved pins (R25). -/
  pins : Pins
  /-- `VREG` (R20); bits at `N_OUT` and above are 0 (log 6). -/
  vreg : Vec
  /-- `FAST` (R22). -/
  fast : Bool
  /-- `BY32` (R22). -/
  by32 : Bool
  /-- `DEFER` (R23). -/
  defer : Bool
  /-- `BUSY` (R26). -/
  busy : Bool
  /-- `PHASE` (R26). -/
  phase : Phase
  /-- `POS` (R26). -/
  pos : Nat
  /-- `SNAP[r]` (R27). -/
  snap : Memory
  /-- `LUT[r][a][b]`, at the key `lutKey r a b` (R27). -/
  lut : Memory
  /-- `FIDX` (R28). -/
  fidx : BitVec 16
  /-- `DIR` (R28). -/
  dir : Dir
  /-- The byte `t` of the `PinWrite` under way (R123; log 12). -/
  tmp : Byte
  /-- What the command under way has still to do (R154; log 13). -/
  pending : List Act
  /-- `PORT[r]` (R29). -/
  port : Memory
  /-- The history of events, newest first (R61; log 21). -/
  hist : List (Agent × Event)
  /-- The host's command words not yet accepted, next one first (R170; log 9). -/
  offers : List CmdWord
  /-- The environment's script: each act with the number of turns that come before it, a turn being the acceptance of a word, an
  event of the engine, or the end of a wait (R62, R221; log 8). -/
  env : List (Nat × EnvAct)
  deriving DecidableEq, Repr

/-- The machine right after reset with the straps `cfg` (R33, R220), nothing having happened yet. The values R33 leaves
unspecified are named in log 3, 4, 5 and 12. -/
def State.resetWith (cfg : Config) : State where
  cfg := cfg
  pins := resolvePins cfg
  vreg := 0#104
  fast := cfg.rstFast
  by32 := false
  defer := false
  busy := false
  phase := .idle
  pos := 0
  snap := []
  lut := []
  fidx := 0#16
  dir := .forward
  tmp := 0#8
  pending := []
  port := []
  hist := []
  offers := []
  env := []

/-- The machine right after reset with the sample configuration (log 1). -/
def State.reset : State := State.resetWith Config.sample

end Sys2Proof.Machine
end

