-- ==== Sys2Proof/Machine/Cursor.lean ====
section
/-! DEFINITION. The arithmetic of the animation cursor, `ADVANCE` (R192 to R194). -/

namespace Sys2Proof.Machine

open Sys2Proof

/-- Overrun past the last of `n` frames (R193). -/
def overrun (n : Nat) (pingPong : Bool) : Nat × Dir := if pingPong then (n - 2, .backward) else (0, .forward)

/-- Underrun past the first of `n` frames (R194). -/
def underrun (n : Nat) (pingPong : Bool) : Nat × Dir := if pingPong then (min 1 (n - 1), .forward) else (n - 1, .backward)

/-- The mathematical integer `j` of R192. -/
def cursorTarget (idx : Nat) (dir : Dir) : Int :=
  match dir with
  | .forward => (idx : Int) + 1
  | .backward => (idx : Int) - 1

/-- `ADVANCE(idx, dir)` for `n` frames (R192). -/
def advance (n : Nat) (pingPong : Bool) (idx : Nat) (dir : Dir) : Nat × Dir :=
  if (n : Int) ≤ cursorTarget idx dir then overrun n pingPong
  else if cursorTarget idx dir < 0 then underrun n pingPong
  else ((cursorTarget idx dir).toNat, dir)

end Sys2Proof.Machine
end

