-- ==== Sys2Proof/Machine/Gpio.lean ====
section
/-! DEFINITION. The GPIO multiplexer and the register mask generator (41_gpio_mux_maskgen.md): masks, the register order, the bytes
that a single-pin write and the lookup table hold. -/

namespace Sys2Proof.Machine

open Sys2Proof

/-- The resolved pin of a line (R25). -/
def pinOf (pins : Pins) : Line → Pin
  | .c => pins.c
  | .a => pins.a
  | .b => pins.b

/-- `reg_x` (R25). -/
def regOf (pins : Pins) (x : Line) : RegId := (pinOf pins x).reg

/-- `m_x = 1 << bit_x` (R120). -/
def lineMask (pins : Pins) (x : Line) : Byte := 1#8 <<< (pinOf pins x).bit.val

/-- `M_x[r]`: `m_x` if the line lives on `r`, else 0 (R121). -/
def maskOn (pins : Pins) (x : Line) (r : RegId) : Byte := if regOf pins x = r then lineMask pins x else 0#8

/-- `KEEP[r]`: the bits of `r` that belong to others (R121). -/
def keepMask (pins : Pins) (r : RegId) : Byte := ~~~(maskOn pins .c r ||| maskOn pins .a r ||| maskOn pins .b r)

/-- `ORDER`: `[reg_c, reg_a, reg_b]`, each id at its first occurrence only (R122). -/
def order (pins : Pins) : List RegId :=
  [regOf pins .c] ++ (if regOf pins .a = regOf pins .c then [] else [regOf pins .a]) ++
    (if regOf pins .b = regOf pins .c ∨ regOf pins .b = regOf pins .a then [] else [regOf pins .b])

/-- The byte a `PinWrite(x, v)` writes after reading `t`: `(t & ~m_x) | (v ? m_x : 0)` (R123). -/
def pinByte (pins : Pins) (x : Line) (v : Bool) (t : Byte) : Byte :=
  (t &&& ~~~(lineMask pins x)) ||| (if v then lineMask pins x else 0#8)

/-- `LUT[r][a][b]` from the snapshot byte of `r` (R125); the clock bit is 0 in every entry. -/
def lutByte (pins : Pins) (r : RegId) (snap : Byte) (a b : Bool) : Byte :=
  (snap &&& keepMask pins r) ||| (if a then maskOn pins .a r else 0#8) ||| (if b then maskOn pins .b r else 0#8)

/-- The place of `LUT[r][a][b]` in the table: four consecutive entries per register. -/
def lutKey (r : RegId) (a b : Bool) : Nat := 4 * r + 2 * a.toNat + b.toNat

end Sys2Proof.Machine
end

