-- ==== Sys2Proof/Machine/Ops.lean ====
section
/-! DEFINITION. The named operations over memory and registers: the byte-register store, `RD` and `WR`, one turn of the engine,
and the run loop that takes a command's turns one after the other. There is no exception to take (R200, R205) and none to
return from (R206). -/

namespace Sys2Proof.Machine

open Sys2Proof

/-- What a byte register that nothing has written reads as (log 4, 5). -/
def Memory.unlisted : Byte := 0#8

/-- The byte held at a key. -/
def Memory.read : Memory → Nat → Byte
  | [], _ => Memory.unlisted
  | (k, x) :: m, a => if k = a then x else Memory.read m a

/-- The list with the byte at one key replaced, kept in its canonical form. -/
def Memory.write : Memory → Nat → Byte → Memory
  | [], a, v => if v = Memory.unlisted then [] else [(a, v)]
  | (k, x) :: m, a, v =>
    if a < k then (if v = Memory.unlisted then (k, x) :: m else (a, v) :: (k, x) :: m)
    else if a = k then (if v = Memory.unlisted then m else (k, v) :: m)
    else (k, x) :: Memory.write m a v

/-- Every key is at least `lo`, the keys rise strictly, and no entry holds the unlisted value. -/
def Memory.wfFrom : Nat → Memory → Bool
  | _, [] => true
  | lo, (k, x) :: m => decide (lo ≤ k) && decide (x ≠ Memory.unlisted) && Memory.wfFrom (k + 1) m

/-- The canonical form: equal contents are equal lists. -/
def Memory.wf (m : Memory) : Bool := Memory.wfFrom 0 m

/-- One more event in the history (R61). -/
def State.emit (s : State) (who : Agent) (e : Event) : State := { s with hist := (who, e) :: s.hist }

/-- `RD(r)`: the event; the byte it returns is `s.port.read r` (R51). It changes nothing else (R59). -/
def State.rd (s : State) (r : RegId) : State := s.emit .engine (.rd r (s.port.read r))

/-- `WR(r, b)` (R51). -/
def State.wr (s : State) (r : RegId) (b : Byte) : State :=
  { s with port := s.port.write r b }.emit .engine (.wr r b)

/-- `SNAP[r] <- b` with the four table entries of `r` made from it (R124, R125; log 24). -/
def State.capture (s : State) (r : RegId) (b : Byte) : State :=
  { s with
    snap := s.snap.write r b
    lut := (((s.lut.write (lutKey r false false) (lutByte s.pins r b false false)).write
      (lutKey r false true) (lutByte s.pins r b false true)).write
      (lutKey r true false) (lutByte s.pins r b true false)).write
      (lutKey r true true) (lutByte s.pins r b true true) }

/-- `(FIDX, DIR) <- ADVANCE(FIDX, DIR)` (R190, R192). -/
def State.advanceCursor (s : State) : State :=
  let next := advance s.cfg.frameCount s.cfg.pingPong s.fidx.toNat s.dir
  { s with fidx := BitVec.ofNat 16 next.1, dir := next.2 }

/-- One operation of the engine, with its event where it has one. -/
def State.doOp (s : State) : Op → State
  | .pinRead x => { s.rd (regOf s.pins x) with tmp := s.port.read (regOf s.pins x) }
  | .pinWrite x v => s.wr (regOf s.pins x) (pinByte s.pins x v s.tmp)
  | .delay => s.emit .engine .dly
  | .snapshot r => (s.rd r).capture r (s.port.read r)
  | .table r a b => s.wr r (s.lut.read (lutKey r a b))
  | .clkHigh a b =>
    s.wr (regOf s.pins .c) (s.lut.read (lutKey (regOf s.pins .c) a b) ||| lineMask s.pins .c)
  | .pwm level => s.emit .engine (.pwm level)
  | .hold n => s.emit .engine (.waitMs n)
  | .advance => s.advanceCursor

/-- The environment's script after `n` turns (log 8). -/
def elapse (n : Nat) : List (Nat × EnvAct) → List (Nat × EnvAct)
  | [] => []
  | (gap, act) :: rest => (gap - n, act) :: rest

/-- PHASE when the act is done: IDLE after the last event of a frame, else the act's own (R149). -/
def Act.phaseAfter (act : Act) : Phase := if act.frameEnd.isSome then .idle else act.phase

/-- One act of the engine: PHASE and POS take the act's position, the operation happens, and the end of a frame leaves IDLE and
`N_OUT` (R149; log 10). -/
def State.perform (s : State) (act : Act) : State :=
  let placed := { s with phase := act.phase, pos := act.pos.getD s.pos }
  let done := placed.doOp act.op
  { done with phase := act.phaseAfter, pos := act.frameEnd.getD done.pos, env := elapse 1 s.env }

/-- An act of the environment comes before the next turn. -/
def State.envDue (s : State) : Bool :=
  match s.env with
  | (0, _) :: _ => true
  | _ => false

/-- No act of the environment comes before `n` turns are over: the premise R226 in its plainest form (log 29). -/
def State.undisturbed (s : State) (n : Nat) : Bool :=
  match s.env with
  | [] => true
  | (gap, _) :: _ => decide (n ≤ gap)

/-- The end of a command: BUSY falls and the engine is idle (R26, R170). -/
def State.complete (s : State) : State := { s with busy := false, phase := .idle, pending := [] }

/-- The engine takes the turns of a command in order (R61, R154): to the end, or up to the point where the environment acts, which
can be before the first event (R221), and the rest is left pending. -/
def engineRun : List Act → State → State
  | [], s => s.complete
  | act :: acts, s => if s.envDue then { s with pending := act :: acts } else engineRun acts (s.perform act)

/-- A command that has events: BUSY rises, then its turns (R170). -/
def State.runCommand (s : State) (acts : List Act) : State := engineRun acts { s with busy := true }

/-- The engine goes on with the command under way. -/
def State.resume (s : State) : State := engineRun s.pending s

/-- `cmd_ready` is high exactly when BUSY = 0 (R7). -/
def State.cmdReady (s : State) : Bool := !s.busy

end Sys2Proof.Machine
end

