-- ==== Sys2Proof/Machine/Sequencer.lean ====
section
/-! DEFINITION. The shift register sequencer (42_sequencer.md): the events of the two transmissions and of `DO_FINISH`, each with
its PHASE and POS (R149), and `DISPATCH` (R172). -/

namespace Sys2Proof.Machine

open Sys2Proof

/-- `PinWrite(x, v)`: a `RD` and a `WR`, always both (R123). -/
def pinWriteOps (x : Line) (v : Bool) : List Op := [.pinRead x, .pinWrite x v]

/-- `SNAPSHOT()`: one `RD` for each register of `ORDER` (R124). -/
def snapshotOps (pins : Pins) : List Op := (order pins).map .snapshot

/-- `PRESENT(a, b)`: one table write for each register of `ORDER` (R126). -/
def presentOps (pins : Pins) (a b : Bool) : List Op := (order pins).map (.table · a b)

/-- `CLKHIGH(a, b)` (R127). -/
def clkHighOps (a b : Bool) : List Op := [.clkHigh a b]

/-- Operations at one sequencer position. -/
def actsAt (phase : Phase) (pos : Option Nat) (ops : List Op) : List Act := ops.map fun op => ⟨phase, pos, op, none⟩

/-- The frame ends with its last event: PHASE is IDLE and POS stops at `n` (R26, R149). -/
def endFrame (n : Nat) : List Act → List Act
  | [] => []
  | [act] => [{ act with frameEnd := some n }]
  | act :: act' :: acts => act :: endFrame n (act' :: acts)

/-- One data position of the safe path (R141 part 3). -/
def safePosition (pair : Bool × Bool) : List Op :=
  pinWriteOps .a pair.1 ++ pinWriteOps .b pair.2 ++ [.delay] ++
    pinWriteOps .c true ++ [.delay] ++ pinWriteOps .c false ++ [.delay]

/-- One pulse of the safe path's start signature (R141 part 2). -/
def safePulse : List Op := pinWriteOps .c true ++ [.delay] ++ pinWriteOps .c false ++ [.delay]

/-- `TX_SAFE(V)` (R141): always the sequential split, and neither BY32 nor DEFER is read. -/
def txSafe (cfg : Config) (v : Vec) : List Act :=
  endFrame cfg.nOut
    (actsAt .base none (pinWriteOps .c false ++ pinWriteOps .a false ++ pinWriteOps .b false ++ [.delay]) ++
      actsAt .start (some 0) (pinWriteOps .a true ++ pinWriteOps .b true ++ [.delay]) ++
      actsAt .start (some 0) safePulse ++ actsAt .start (some 1) safePulse ++
      (List.range cfg.nOut).flatMap fun i => actsAt .shift (some i) (safePosition (splitPair false cfg v i)))

/-- One data position of the fast path (R143 part 3); the last `CLKHIGH` is withheld where the frame is deferred (R146). -/
def fastPosition (pins : Pins) (withheld : Bool) (pair : Bool × Bool) : List Op :=
  presentOps pins pair.1 pair.2 ++ if withheld then [] else clkHighOps pair.1 pair.2

/-- `TX_FAST(V, by32, defer)` (R143, R144). -/
def txFast (cfg : Config) (pins : Pins) (v : Vec) (by32 defer : Bool) : List Act :=
  endFrame cfg.nOut
    (actsAt .base none (snapshotOps pins ++ presentOps pins false false) ++
      actsAt .start (some 0) (presentOps pins true true ++ clkHighOps true true) ++
      actsAt .start (some 1) (presentOps pins true true ++ clkHighOps true true) ++
      (List.range cfg.nOut).flatMap fun i =>
        actsAt .shift (some i)
          (fastPosition pins (defer && decide (i + 1 = cfg.nOut)) (splitPair by32 cfg v i)))

/-- `DO_FINISH()`: `PinWrite(c, 1)` (R147). It is no part of a frame, so PHASE stays IDLE (log 11). -/
def doFinish : List Act := actsAt .idle none (pinWriteOps .c true)

/-- `DISPATCH()` (R172): the events of the transmission that the flags select, for the vector in VREG. -/
def dispatchActs (s : State) : List Act :=
  if s.fast then txFast s.cfg s.pins s.vreg s.by32 s.defer else txSafe s.cfg s.vreg

/-- `VREG <- MASK(x)` (R20, R100). -/
def State.loadVreg (s : State) (x : Vec) : State := { s with vreg := maskVec s.cfg x }

end Sys2Proof.Machine
end

