-- ==== Sys2Proof/Machine/Animation.lean ====
section
/-! DEFINITION. NEXT, the frame player (44_animation.md). -/

namespace Sys2Proof.Machine

open Sys2Proof

/-- `WAITMS(d)`, with PHASE = WAIT and BUSY = 1 for as long as the wait lasts, and then the cursor's advance (R26, R190). -/
def holdActs (d : BitVec 16) : List Act := actsAt .wait none [.hold d] ++ actsAt .idle none [.advance]

/-- Show a frame record, hold it `d` milliseconds, advance the cursor (R190, R197). -/
def playFrame (record : List Byte) (d : BitVec 16) (s : State) : State :=
  let shown := s.loadVreg (fromBytes s.cfg s.cfg.frameBytes record)
  shown.runCommand (dispatchActs shown ++ holdActs d)

/-- `NEXT` (R190): nothing where the tables are empty (R196), else the frame and the delay of the index the cursor has on entry. -/
def execNext (s : State) : Host.Outcome State Fault Refusal :=
  if s.cfg.frameCount = 0 then .next s
  else
    match s.cfg.frameRom[s.fidx.toNat]?, s.cfg.delayRom[s.fidx.toNat]? with
    | some record, some d => .next (playFrame record d s)
    | _, _ => .fault (.frameIndexOutOfTable s.fidx.toNat)

end Sys2Proof.Machine
end

