-- ==== Sys2Proof/Machine/Flags.lean ====
section
/-! DEFINITION. The mode flags (R22, R23). There is no status flag or condition code that a command computes (R32), so what there
is to write here is the three flag writes and the view MODE. -/

namespace Sys2Proof.Machine

open Sys2Proof

/-- `FAST <- v` (R177). -/
def State.setFast (s : State) (v : Bool) : State := { s with fast := v }

/-- `BY32 <- v` (R178). -/
def State.setBy32 (s : State) (v : Bool) : State := { s with by32 := v }

/-- `DEFER <- v` (R179). -/
def State.setDefer (s : State) (v : Bool) : State := { s with defer := v }

/-- `MODE = {DEFER, BY32, FAST}`, bits 2, 1, 0 (R23); nothing reads it as a word. -/
def State.mode (s : State) : BitVec 3 :=
  BitVec.ofBool s.defer ++ (BitVec.ofBool s.by32 ++ BitVec.ofBool s.fast)

end Sys2Proof.Machine
end

