-- ==== Sys2Proof/Machine/Mode.lean ====
section
/-! DEFINITION. The mode commands FAST, BY32, DEFER (43_controller_commands.md): no event, one flag written, complete at once. -/

namespace Sys2Proof.Machine

open Sys2Proof

/-- `FAST v` (R177). -/
def execFast (v : Bool) (s : State) : Host.Outcome State Fault Refusal := .next (s.setFast v)

/-- `BY32 v` (R178). -/
def execBy32 (v : Bool) (s : State) : Host.Outcome State Fault Refusal := .next (s.setBy32 v)

/-- `DEFER v` (R179). -/
def execDefer (v : Bool) (s : State) : Host.Outcome State Fault Refusal := .next (s.setDefer v)

end Sys2Proof.Machine
end

