-- ==== Sys2Proof/Machine/Output.lean ====
section
/-! DEFINITION. BRIGHT and FINISH (43_controller_commands.md). -/

namespace Sys2Proof.Machine

open Sys2Proof

/-- `BRIGHT level` (R175): one `PWM` event where a brightness pin is configured, nothing at all where none is. -/
def execBright (level : Byte) (s : State) : Host.Outcome State Fault Refusal :=
  match s.cfg.brtPin with
  | none => .next s
  | some _ => .next (s.runCommand (actsAt .idle none [.pwm level]))

/-- `FINISH` (R176): `DO_FINISH`, whatever came before. -/
def execFinish (s : State) : Host.Outcome State Fault Refusal := .next (s.runCommand doFinish)

end Sys2Proof.Machine
end

