-- ==== Sys2Proof/Machine/Vector.lean ====
section
/-! DEFINITION. The vector commands SET and SETB (43_controller_commands.md). Every meaning is that of a command accepted by an idle
engine; `step` gives no command to a busy one (R170; log 28). -/

namespace Sys2Proof.Machine

open Sys2Proof

/-- Load the vector and transmit it: what SET and SETB share (R173, R174). -/
def loadAndDispatch (x : Vec) (s : State) : State := (s.loadVreg x).runCommand (dispatchActs (s.loadVreg x))

/-- `SET vec` (R173). -/
def execSet (vec : Vec) (s : State) : Host.Outcome State Fault Refusal := .next (loadAndDispatch vec s)

/-- `SETB n, bytes` (R174): the byte form of the same load. -/
def execSetb (bytes : List Byte) (s : State) : Host.Outcome State Fault Refusal :=
  .next (loadAndDispatch (fromBytes s.cfg bytes.length bytes) s)

end Sys2Proof.Machine
end

