-- ==== Sys2Proof/Machine/Dispatch.lean ====
section
/-! DEFINITION. The meaning of each command. -/

namespace Sys2Proof.Machine

open Sys2Proof

def exec (i : Instr) (s : State) : Host.Outcome State Fault Refusal :=
  match i with
  | .set vec => Sys2Proof.Machine.execSet vec s
  | .setb bytes => Sys2Proof.Machine.execSetb bytes s
  | .finish => Sys2Proof.Machine.execFinish s
  | .bright level => Sys2Proof.Machine.execBright level s
  | .fast v => Sys2Proof.Machine.execFast v s
  | .by32 v => Sys2Proof.Machine.execBy32 v s
  | .defer v => Sys2Proof.Machine.execDefer v s
  | .next => Sys2Proof.Machine.execNext s

end Sys2Proof.Machine
end

