-- ==== Sys2Proof/Machine/Environment.lean ====
section
/-! DEFINITION. What comes from outside the engine: reset (R220, R221) and the register accesses of other agents (R62). -/

namespace Sys2Proof.Machine

open Sys2Proof

/-- Reset with the straps `cfg`, taken as they are, well formed or not (R220, R221; log 20): the block takes its reset values, a command under way is abandoned; PORT, the history
and the other agents' scripts are outside the block and stay. The values R33 leaves unspecified are those of `State.resetWith`
(log 16). -/
def applyReset (cfg : Config) (s : State) : State :=
  { State.resetWith cfg with port := s.port, hist := s.hist, offers := s.offers, env := s.env }

/-- The environment reads `PORT[r]` (R51). -/
def envRead (r : RegId) (s : State) : State := s.emit .environment (.rd r (s.port.read r))

/-- The environment writes `PORT[r]` (R62). -/
def envWrite (r : RegId) (b : Byte) (s : State) : State :=
  { s with port := s.port.write r b }.emit .environment (.wr r b)

/-- One act from outside. A register the platform does not have cannot be accessed (R50; log 17). -/
def envStep (act : EnvAct) (s : State) : Host.Outcome State Fault Refusal :=
  match act with
  | .read r => if r < s.cfg.nRegs then .next (envRead r s) else .fault (.noSuchRegister r)
  | .write r b => if r < s.cfg.nRegs then .next (envWrite r b s) else .fault (.noSuchRegister r)
  | .reset straps => .next (applyReset straps s)

/-- The act of the environment that comes next, with the script after it, where one is due. -/
def dueAct (s : State) : Option (EnvAct × State) :=
  match s.env with
  | (0, act) :: rest => some (act, { s with env := rest })
  | _ => none

end Sys2Proof.Machine
end

