-- ==== Sys2Proof/Machine/Fetch.lean ====
section
/-! DEFINITION. How a command reaches the engine: the host's next offered word (R7, R170). -/

namespace Sys2Proof.Machine

open Sys2Proof

/-- The word an idle engine accepts, with the host's stream after it; nothing where the host offers none. The acceptance is a turn of
its own: the environment, `rst` among it, can act right after it, before the command's first event (R221; log 8). -/
def acceptOffer (s : State) : Option (CmdWord × State) :=
  match s.offers with
  | [] => none
  | w :: rest => some (w, { s with offers := rest, env := elapse 1 s.env })

/-- The state in which the next step accepts the word `w` and runs it to its end: the host offers it first, the engine is idle and
the environment does nothing (log 9). -/
def offerNext (w : CmdWord) (s : State) : State :=
  { s with offers := w :: s.offers, busy := false, pending := [], env := [] }

end Sys2Proof.Machine
end

