-- ==== Sys2Proof/Machine/Step.lean ====
section
/-! DEFINITION. One step of the machine: whose turn it is, and what that agent does (R6, R10, R61). -/

namespace Sys2Proof.Machine

open Sys2Proof

/-- One step (log 7). An act of the environment that is due comes first, reset among them (R204), so an act with gap 0 precedes the
acceptance of an offered word, and one with gap 1 falls between the acceptance and the command's first event, or after a command
without events and before the next acceptance (R221; log 8). Else, with a well-formed configuration (R5), a busy engine goes on
with its command (R154) and an idle one accepts the host's next word: a command runs (R170), a reserved word does nothing (R87).
With no word offered the engine waits (R213). -/
def step (s : State) : Host.Outcome State Fault Refusal :=
  match dueAct s with
  | some (act, s') => envStep act s'
  | none =>
    if configWf s.cfg then
      if s.busy then .next s.resume
      else
        match acceptOffer s with
        | none => .next s
        | some (w, s') =>
          match decode w with
          | .ok i => exec i s'
          | .error _ => .next s'
    else .refused .illFormedConfiguration

/-- The state in which the next step fetches and runs the word given by its bits (log 9). -/
def State.withFetchWord (s : State) (nbits w : Nat) : State := offerNext (BitVec.ofNat 112 (w % 2 ^ nbits)) s

end Sys2Proof.Machine
end

