-- ==== Sys2Proof/Machine/Observe.lean ====
section
/-! DEFINITION. The observation (R10, R52, R150): line levels, the LineTrace of a list of events, event counts, and sequences of
commands. -/

namespace Sys2Proof.Machine

open Sys2Proof

/-- The level of a line: the bit of its register (R52). -/
def lineLevel (pins : Pins) (port : Memory) (x : Line) : Bool :=
  (port.read (regOf pins x)).getLsbD (pinOf pins x).bit.val

/-- PORT after the `WR` events of a list, in order (R51). -/
def replay : Memory → List Event → Memory
  | m, [] => m
  | m, .wr r b :: es => replay (m.write r b) es
  | m, .rd _ _ :: es => replay m es
  | m, .dly :: es => replay m es
  | m, .waitMs _ :: es => replay m es
  | m, .pwm _ :: es => replay m es

/-- The pair that one event adds to the LineTrace: (DA, DB) after a `WR` that takes CLK from 0 to 1 (R150). -/
def sampleOf (pins : Pins) (before after : Memory) : List (Bool × Bool) :=
  if !lineLevel pins before .c && lineLevel pins after .c then
    [(lineLevel pins after .a, lineLevel pins after .b)]
  else []

/-- `LineTrace` (R150): the pairs the sink chips sample while the events are replayed on PORT. -/
def lineTrace (pins : Pins) : Memory → List Event → List (Bool × Bool)
  | _, [] => []
  | m, .wr r b :: es => sampleOf pins m (m.write r b) ++ lineTrace pins (m.write r b) es
  | m, .rd _ _ :: es => lineTrace pins m es
  | m, .dly :: es => lineTrace pins m es
  | m, .waitMs _ :: es => lineTrace pins m es
  | m, .pwm _ :: es => lineTrace pins m es

/-- Every `RD` of the list returns the byte that its register holds when the list is replayed from `m`: the byte last written to it
by any agent, or the byte that stood there before (R51). -/
def readsLastWritten : Memory → List Event → Bool
  | _, [] => true
  | m, .rd r b :: es => (b == m.read r) && readsLastWritten m es
  | m, .wr r b :: es => readsLastWritten (m.write r b) es
  | m, .dly :: es => readsLastWritten m es
  | m, .waitMs _ :: es => readsLastWritten m es
  | m, .pwm _ :: es => readsLastWritten m es

/-- R142 read off a list of events: every WR that changes the clock comes after a `DLY` that no line change has followed (`settled`
says so at the start), and a WR that changes a data line leaves the clock low. Each `DLY` lasts at least `T_MIN`, so clock pulses,
the gaps between them and the settling of the data last that long. -/
def paced (pins : Pins) : Bool → Memory → List Event → Bool
  | _, _, [] => true
  | _, m, .dly :: es => paced pins true m es
  | settled, m, .wr r b :: es =>
    let m' := m.write r b
    let clockStays := lineLevel pins m .c == lineLevel pins m' .c
    let dataStays := lineLevel pins m .a == lineLevel pins m' .a && lineLevel pins m .b == lineLevel pins m' .b
    (clockStays || settled) && (dataStays || !lineLevel pins m' .c) &&
      paced pins (settled && clockStays && dataStays) m' es
  | settled, m, .rd _ _ :: es => paced pins settled m es
  | settled, m, .waitMs _ :: es => paced pins settled m es
  | settled, m, .pwm _ :: es => paced pins settled m es

/-- The history after the engine's events `es`, oldest first (R61). -/
def record (es : List Event) (h : List (Agent × Event)) : List (Agent × Event) :=
  (es.map fun e => (Agent.engine, e)).reverse ++ h

/-- The engine's own events of a history, oldest first. -/
def engineEvents (h : List (Agent × Event)) : List Event :=
  (h.filterMap fun e => match e with
    | (.engine, ev) => some ev
    | (.environment, _) => none).reverse

/-- The events of both agents that `t`'s history has beyond `s`'s, oldest first. -/
def eventsSince (s t : State) : List Event := ((t.hist.take (t.hist.length - s.hist.length)).map Prod.snd).reverse

def Event.isRd : Event → Bool
  | .rd _ _ => true
  | _ => false

def Event.isWr : Event → Bool
  | .wr _ _ => true
  | _ => false

def Event.isDly : Event → Bool
  | .dly => true
  | _ => false

/-- The register an event accesses. -/
def Event.reg? : Event → Option RegId
  | .rd r _ => some r
  | .wr r _ => some r
  | .dly => none
  | .waitMs _ => none
  | .pwm _ => none

/-- Commands one after the other on an idle engine, as a host issues them (R170). -/
def execAll : List Instr → State → Host.Outcome State Fault Refusal
  | [], s => .next s
  | i :: is, s =>
    match exec i s with
    | .next t => execAll is t
    | .fault f => .fault f
    | .refused r => .refused r

/-- The last event of a frame is still to come. -/
def frameUnderWay (acts : List Act) : Bool := acts.any (·.frameEnd.isSome)

/-- Does the command send a frame (R173, R174, R190, R196)? -/
def sendsFrame (i : Instr) (s : State) : Bool :=
  match i with
  | .set _ => true
  | .setb _ => true
  | .next => decide (s.cfg.frameCount ≠ 0)
  | .finish => false
  | .bright _ => false
  | .fast _ => false
  | .by32 _ => false
  | .defer _ => false

/-- The command `i`, which took `s` to `t`, has brought its frame to the end. -/
def commandEndsFrame (i : Instr) (s t : State) : Bool := sendsFrame i s && !frameUnderWay t.pending

/-- The command that an idle engine takes up in its next step, where there is one. -/
def offeredCommand (s : State) : Option Instr :=
  match acceptOffer s with
  | none => none
  | some (w, _) =>
    match decode w with
    | .ok i => some i
    | .error _ => none

/-- The step from `s` to `t` has brought a frame to its end: never an act of the environment, which a reset is too. -/
def stepEndsFrame (s t : State) : Bool :=
  match dueAct s with
  | some _ => false
  | none =>
    if s.busy then frameUnderWay s.pending && !frameUnderWay t.pending
    else
      match offeredCommand s with
      | some i => commandEndsFrame i s t
      | none => false

/-- R31's property of the history, carried from `s` to `t`: is a clock edge withheld? Where a transmission has ended on the way,
exactly when it was fast with DEFER = 1; else the answer stays until a `WR` of any agent, the environment's among them, raises the
clock. The block itself keeps no such bit (log 30). -/
def edgeWithheld (s t : State) (frameEnded withheld : Bool) : Bool :=
  if frameEnded then s.fast && s.defer
  else withheld && (lineTrace s.pins s.port (eventsSince s t)).isEmpty

/-- The same over one command. -/
def edgePendingAfter (i : Instr) (s t : State) (withheld : Bool) : Bool := edgeWithheld s t (commandEndsFrame i s t) withheld

/-- The same over one step of any agent. -/
def edgePendingStep (s t : State) (withheld : Bool) : Bool := edgeWithheld s t (stepEndsFrame s t) withheld

end Sys2Proof.Machine
end

