-- ==== Sys2Proof/Machine/Frames.lean ====
section
/-! DEFINITION. The frames in closed form, read off R141, R143 and R147 without the machine: what each event of a frame is, given
the registers before it. Claims compare the machine with these lists; the machine does not use them. -/

namespace Sys2Proof.Machine

open Sys2Proof

/-- Levels of the three lines. -/
structure Levels where
  c : Bool
  a : Bool
  b : Bool
  deriving DecidableEq, Repr

/-- The levels that PORT gives the lines (R52). -/
def levelsOf (pins : Pins) (port : Memory) : Levels :=
  ⟨lineLevel pins port .c, lineLevel pins port .a, lineLevel pins port .b⟩

def Levels.put (l : Levels) : Line → Bool → Levels
  | .c, v => { l with c := v }
  | .a, v => { l with a := v }
  | .b, v => { l with b := v }

/-- The byte of register `r` when the lines have the levels `l` and every bit that is none of the lines is as in `port`. -/
def lineByte (pins : Pins) (port : Memory) (l : Levels) (r : RegId) : Byte :=
  (port.read r &&& keepMask pins r) ||| (if l.c then maskOn pins .c r else 0#8) |||
    (if l.a then maskOn pins .a r else 0#8) ||| (if l.b then maskOn pins .b r else 0#8)

/-- What the safe path does, seen on the lines. -/
inductive LineOp where
  | put (x : Line) (v : Bool)
  | delay
  deriving DecidableEq, Repr

/-- The pseudocode of `TX_SAFE` (R141). -/
def safeProgram (cfg : Config) (v : Vec) : List LineOp :=
  [.put .c false, .put .a false, .put .b false, .delay, .put .a true, .put .b true, .delay] ++
    (List.range 2).flatMap (fun _ => [.put .c true, .delay, .put .c false, .delay]) ++
    (split false cfg v).flatMap fun p =>
      [.put .a p.1, .put .b p.2, .delay, .put .c true, .delay, .put .c false, .delay]

/-- The events of such a program from the levels `l`: a `put` reads the line's register and writes it back with that one bit set to
the level (R123). -/
def lineEvents (pins : Pins) (port : Memory) : Levels → List LineOp → List Event
  | _, [] => []
  | l, .delay :: ops => .dly :: lineEvents pins port l ops
  | l, .put x v :: ops =>
    .rd (regOf pins x) (lineByte pins port l (regOf pins x)) ::
      .wr (regOf pins x) (lineByte pins port (l.put x v) (regOf pins x)) ::
      lineEvents pins port (l.put x v) ops

/-- The events of `TX_SAFE(V)` on the registers `port`. -/
def safeEvents (cfg : Config) (pins : Pins) (port : Memory) (v : Vec) : List Event :=
  lineEvents pins port (levelsOf pins port) (safeProgram cfg v)

/-- `PRESENT(a, b)` with the snapshot `port` (R126). -/
def presentEvents (pins : Pins) (port : Memory) (p : Bool × Bool) : List Event :=
  (order pins).map fun r => .wr r (lineByte pins port ⟨false, p.1, p.2⟩ r)

/-- `CLKHIGH(a, b)` with the snapshot `port` (R127). -/
def clkHighEvent (pins : Pins) (port : Memory) (p : Bool × Bool) : Event :=
  .wr (regOf pins .c) (lineByte pins port ⟨true, p.1, p.2⟩ (regOf pins .c))

/-- A pair presented and clocked. -/
def pulseEvents (pins : Pins) (port : Memory) (p : Bool × Bool) : List Event :=
  presentEvents pins port p ++ [clkHighEvent pins port p]

/-- The events of `TX_FAST(V, by32, defer)` on the registers `port` (R143, R146): the last pair is presented without its pulse
where the frame is deferred. -/
def fastEvents (cfg : Config) (pins : Pins) (port : Memory) (v : Vec) (by32 defer : Bool) : List Event :=
  (order pins).map (fun r => Event.rd r (port.read r)) ++ presentEvents pins port (false, false) ++
    pulseEvents pins port (true, true) ++ pulseEvents pins port (true, true) ++
    ((split by32 cfg v).dropLast.flatMap (pulseEvents pins port)) ++
    (split by32 cfg v).getLast?.toList.flatMap fun p =>
      if defer then presentEvents pins port p else pulseEvents pins port p

/-- The events of the transmission that the flags of `s` select for the vector `v` (R172). -/
def frameEvents (s : State) (v : Vec) : List Event :=
  if s.fast then fastEvents s.cfg s.pins s.port v s.by32 s.defer else safeEvents s.cfg s.pins s.port v

/-- The last pair of a split: what stands on the data lines when the frame is over (R148). -/
def lastPair (by32 : Bool) (cfg : Config) (v : Vec) : Bool × Bool := splitPair by32 cfg v (cfg.nOut - 1)

/-- The levels at the end of the transmission that the flags of `s` select (R148). -/
def endLevels (s : State) (v : Vec) : Levels :=
  if s.fast then ⟨!s.defer, (lastPair s.by32 s.cfg v).1, (lastPair s.by32 s.cfg v).2⟩
  else ⟨false, (lastPair false s.cfg v).1, (lastPair false s.cfg v).2⟩

/-- The pairs a frame of `s` for the vector `v` puts in the LineTrace (R151): the start signature, then the data pairs, less the last
one under deferred finish. -/
def frameTrace (s : State) (v : Vec) : List (Bool × Bool) :=
  [(true, true), (true, true)] ++
    if s.fast then (if s.defer then (split s.by32 s.cfg v).dropLast else split s.by32 s.cfg v)
    else split false s.cfg v

/-- PHASE and POS after the first `k` ≥ 1 events of `TX_SAFE` (R149), POS being `pos` before the frame: 7 events of baseline, 5 that
raise the data lines and 6 for each pulse, 11 for each position (R141). -/
def safePlace (pos k : Nat) : Phase × Nat :=
  if k ≤ 7 then (.base, pos) else if k ≤ 18 then (.start, 0) else if k ≤ 24 then (.start, 1) else (.shift, (k - 25) / 11)

/-- PHASE and POS after the first `k` ≥ 1 events of `TX_FAST` with `q` registers in ORDER (R149): `2q` events of snapshot and
baseline, `q + 1` for each pulse and each position (R143, R129). -/
def fastPlace (q pos k : Nat) : Phase × Nat :=
  if k ≤ 2 * q then (.base, pos)
  else if k ≤ 3 * q + 1 then (.start, 0)
  else if k ≤ 4 * q + 2 then (.start, 1)
  else (.shift, (k - (4 * q + 3)) / (q + 1))

/-- The frame shown by the `k`-th `NEXT` from the cursor (0, forward), counting from 0, in ping-pong mode with `n` frames (R195):
0, 1, ..., n-1, n-2, ..., 1, 0, 1, ...; with one frame always 0 (R196). -/
def pingPongFrame (n k : Nat) : Nat :=
  if n ≤ 1 then 0
  else if k % (2 * n - 2) < n then k % (2 * n - 2)
  else 2 * n - 2 - k % (2 * n - 2)

/-- The same in wrap mode: 0, 1, ..., n-1, 0, 1, ... (R195). -/
def wrapFrame (n k : Nat) : Nat := k % n

end Sys2Proof.Machine
end

