-- ==== Sys2Proof/Machine/Pseudo.lean ====
section
/-! DEFINITION. The pseudo-instructions of R91, each expanding to one command word. Their SETW depends on `W2_W`, a parameter. -/

namespace Sys2Proof.Machine

open Sys2Proof

/-- A pseudo-instruction (R91). -/
inductive Pseudo where
  | setw (w0 w1 w2 : Vec)
  | setf (record : List Byte)
  | safe
  | seq
  | nop
  deriving DecidableEq, Repr

/-- The command word a pseudo-instruction expands to (R91). -/
def Pseudo.word (cfg : Config) : Pseudo → CmdWord
  | .setw w0 w1 w2 =>
    encode (.set ((w0 &&& ones cfg.wordW) ||| ((w1 &&& ones cfg.wordW) <<< cfg.wordW) |||
      ((w2 &&& ones (w2Width cfg)) <<< (2 * cfg.wordW))))
  | .setf record => encode (.setb record)
  | .safe => encode (.fast false)
  | .seq => encode (.by32 false)
  | .nop => commandWord 0x00#8 0#104

end Sys2Proof.Machine
end

