-- ==== Sys2Proof/Safety.lean ====
section
/-! DEFINITION. What counts as a sound state: the invariant that reset establishes and every step keeps, and what it means for the
environment to keep its duty R226. -/

namespace Sys2Proof.Machine

open Sys2Proof

/-- The registers an operation names itself belong to `R` (R51, R122); the others take theirs from the resolved pins. -/
def opSound (pins : Pins) : Op → Bool
  | .snapshot r => decide (r ∈ order pins)
  | .table r _ _ => decide (r ∈ order pins)
  | .pinRead _ => true
  | .pinWrite _ _ => true
  | .delay => true
  | .clkHigh _ _ => true
  | .pwm _ => true
  | .hold _ => true
  | .advance => true

/-- The operation is the `WAITMS` that begins a wait. -/
def Op.isHold : Op → Bool
  | .hold _ => true
  | .pinRead _ => false
  | .pinWrite _ _ => false
  | .delay => false
  | .snapshot _ => false
  | .table _ _ _ => false
  | .clkHigh _ _ => false
  | .pwm _ => false
  | .advance => false

/-- The sequencer position of an act is one that R149 and R26 allow: START and SHIFT count, WAIT belongs to the `WAITMS` alone, the
end of a wait is IDLE, and a frame ends in SHIFT with POS = `N_OUT`. -/
def positionSound (cfg : Config) (act : Act) : Bool :=
  (match act.phase, act.pos with
  | .start, some p => decide (p ≤ 1)
  | .shift, some p => decide (p < cfg.nOut)
  | .start, none => false
  | .shift, none => false
  | .idle, p => p.isNone
  | .base, p => p.isNone
  | .wait, p => p.isNone) &&
  (decide (act.phase = .wait) == act.op.isHold) &&
  (decide (act.op ≠ .advance) || decide (act.phase = .idle)) &&
  (act.frameEnd.isNone || decide (act.phase = .shift)) && act.frameEnd.all (· == cfg.nOut)

/-- An act that a command of this configuration can contain. -/
def actSound (cfg : Config) (pins : Pins) (act : Act) : Bool := opSound pins act.op && positionSound cfg act

/-- PHASE = WAIT exactly where the next thing still to do is the end of the wait, and that is the end of the command (R26, R190). -/
def waitSound : Phase → List Act → Bool
  | phase, [] => decide (phase ≠ .wait)
  | phase, act :: acts =>
    (decide (phase = .wait) == decide (act.op = .advance)) && (decide (act.op ≠ .advance) || acts.isEmpty) &&
      waitSound act.phaseAfter acts

/-- The straps of a reset are well formed (R5, R223). -/
def envActSound : EnvAct → Bool
  | .read _ => true
  | .write _ _ => true
  | .reset straps => configWf straps

/-- The invariant of the machine. -/
structure State.Inv (s : State) : Prop where
  /-- The configuration is well formed (R5). -/
  config : configWf s.cfg = true
  /-- The cache of resolved pins is what `PINMAP` gives (R25). -/
  resolved : s.pins = resolvePins s.cfg
  /-- VREG is `N_OUT` bits wide (R20). -/
  vregMasked : maskVec s.cfg s.vreg = s.vreg
  /-- The byte registers are in canonical form. -/
  portWf : s.port.wf = true
  snapWf : s.snap.wf = true
  lutWf : s.lut.wf = true
  /-- The cursor is inside the tables (R191). -/
  cursor : 0 < s.cfg.frameCount → s.fidx.toNat < s.cfg.frameCount
  /-- POS counts 0 to `N_OUT` (R26). -/
  posBound : s.pos ≤ s.cfg.nOut
  /-- In START it counts the two pulses, 0 and 1 (R26). -/
  posStart : s.phase = .start → s.pos ≤ 1
  /-- An engine that is not busy is idle with nothing under way (R213); a busy one has a turn still to take (R26). -/
  idle : s.busy = false → s.phase = .idle ∧ s.pending = []
  busy : s.busy = true → s.pending ≠ []
  /-- The engine is in WAIT exactly when all that is left of its command is the end of the wait (R26). -/
  waiting : waitSound s.phase s.pending = true
  /-- What is under way is a part of some command of this configuration. -/
  pendingSound : s.pending.all (actSound s.cfg s.pins) = true
  /-- The platform resets the block with well-formed straps only (R223). -/
  scriptSound : s.env.all (fun e => envActSound e.2) = true

/-- The registers that R226 keeps for the command `i` while it runs: those of `R`, and the brightness pin's during BRIGHT. -/
def reservedRegisters (i : Instr) (s : State) : List RegId :=
  order s.pins ++
    match i with
    | .bright _ => (brightRegister s.cfg).toList
    | .set _ => []
    | .setb _ => []
    | .finish => []
    | .fast _ => []
    | .by32 _ => []
    | .defer _ => []
    | .next => []

/-- The environment keeps R226 with this act while the command `i` runs: it reads, or writes a register that the rule does not keep
for the command, and it is no reset. -/
def politeAct (i : Instr) (s : State) : EnvAct → Bool
  | .read r => decide (r < s.cfg.nRegs)
  | .write r _ => decide (r < s.cfg.nRegs) && decide (r ∉ reservedRegisters i s)
  | .reset _ => false

/-- The environment's next act, if one is due, is one the platform can make: a register that exists, or a reset. -/
def State.envPossible (s : State) : Bool :=
  match s.env with
  | (0, .read r) :: _ => decide (r < s.cfg.nRegs)
  | (0, .write r _) :: _ => decide (r < s.cfg.nRegs)
  | _ => true

end Sys2Proof.Machine
end

