-- ==== Sys2Proof/Certificates/Slice0/Obligations.lean ====
section
/-! DEFINITION. The statements for the provers, read off the numbered rules of spec/. "Undisturbed" is the premise R226 that
R151 and R226 put before every claim about a whole frame. -/

open Sys2Proof Sys2Proof.Machine

/-! ### Reset and the invariant -/

/-- R220, R221: a reset loads the straps, resolves the pins and takes the values of the rule, in whatever state it finds the block; it
emits no event and leaves PORT; a command under way is abandoned and an offered command is not accepted. That straps which are not
well formed take effect too is the model's choice (log 20). -/
def Obligations.ResetTakesTheValuesOfTheRule : Prop :=
  ∀ (s : State) (cfg : Config) (rest : List (Nat × EnvAct)), s.env = (0, .reset cfg) :: rest →
    ∃ t, step s = .next t ∧
      t.cfg = cfg ∧
      t.pins = ⟨resolvePin cfg cfg.clkPin, resolvePin cfg cfg.daPin, resolvePin cfg cfg.dbPin⟩ ∧
      t.fast = cfg.rstFast ∧ t.by32 = false ∧ t.defer = false ∧
      t.busy = false ∧ t.phase = .idle ∧ t.pos = 0 ∧ t.fidx = 0#16 ∧ t.dir = .forward ∧
      t.port = s.port ∧ t.hist = s.hist ∧ t.pending = [] ∧ t.offers = s.offers ∧ t.env = rest

/-- A reset with well-formed straps establishes the invariant; `State.reset` has it. -/
def Obligations.ResetEstablishesTheInvariant : Prop :=
  State.reset.Inv ∧
    ∀ (s : State) (cfg : Config), configWf cfg = true → s.port.wf = true →
      s.env.all (fun e => envActSound e.2) = true → (applyReset cfg s).Inv

/-- Every step of every agent keeps the invariant: a well-formed configuration with its pins resolved, VREG masked, the byte registers
in canonical form, the cursor inside the tables, POS in range, PHASE and what is under way in agreement with BUSY and
with the wait of NEXT. -/
def Obligations.EveryStepKeepsTheInvariant : Prop :=
  ∀ s t : State, s.Inv → step s = .next t → t.Inv

/-- R200, R214: with the invariant, and an environment that accesses registers the platform has, every step answers a next state. -/
def Obligations.NoStepStopsInASoundState : Prop :=
  ∀ s : State, s.Inv → s.envPossible = true → ∃ t, step s = .next t

/-- R5, R214: an ill-formed configuration has no engine. -/
def Obligations.IllFormedConfigurationHasNoEngine : Prop :=
  ∀ s : State, dueAct s = none → configWf s.cfg = false → step s = .refused .illFormedConfiguration

/-! ### The command encoding -/

/-- Decoding the encoding of any well-formed command gives the command back, with every operand at every value. -/
def Obligations.DecodeOfEncodeIsTheCommand : Prop :=
  ∀ i : Instr, i.wf = true → decode (encode i) = .ok i

/-- The words of R92 and of the vectors T30, T31 decode to the commands they stand for. -/
def Obligations.WrittenOutWordsDecode : Prop :=
  decode 0x0100000000000004000000000000#112 = .ok (.set (1#104 <<< 50)) ∧
    decode 0x1900000000800000000000000001#112 =
      .ok (.setb [0x01#8, 0#8, 0#8, 0#8, 0#8, 0#8, 0#8, 0#8, 0x80#8]) ∧
    decode 0x0200000000000000000000000000#112 = .ok .finish ∧
    decode 0x0300000000000000000000000080#112 = .ok (.bright 128#8) ∧
    decode 0x0400000000000000000000000003#112 = .ok (.fast true) ∧
    decode 0x0500000000000000000000000002#112 = .ok (.by32 false) ∧
    decode 0x0600000000000000000000000001#112 = .ok (.defer true) ∧
    decode 0x0700000000000000000000000000#112 = .ok .next ∧
    decode 0x1e00000000000000000000000000#112 = .error (.reservedOpcode 0x1e#8)

/-- R86: no word matches two rows of the opcode table; a word is a command exactly when a row matches it, and the row is the one of the
command's mnemonic. -/
def Obligations.OpcodeRowsSelectTheCommand : Prop :=
  ∀ w : CmdWord,
    (∀ r ∈ opcodeTable, ∀ r' ∈ opcodeTable, r.hits w = true → r'.hits w = true → r = r') ∧
    ((∃ i, decode w = .ok i) ↔ ∃ r ∈ opcodeTable, r.hits w = true) ∧
    (∀ i, decode w = .ok i → ∃ r ∈ opcodeTable, r.hits w = true ∧ r.mnemonic = i.mnemonic)

/-- R87: the reserved opcodes are those of the rule, and a word with one is accepted and does nothing: no event, no change in the block,
BUSY stays 0. That the acceptance is a turn in the environment's script is the model's choice (log 8). -/
def Obligations.ReservedWordIsAcceptedAndDoesNothing : Prop :=
  (∀ w : CmdWord, (∃ e, decode w = .error e) ↔
    ((opOf w).toNat = 0x00 ∨ (0x08 ≤ (opOf w).toNat ∧ (opOf w).toNat ≤ 0x0f) ∨ (opOf w).toNat = 0x1e ∨
      (opOf w).toNat = 0x1f ∨ 0x20 ≤ (opOf w).toNat)) ∧
    ∀ (s : State) (w : CmdWord) (rest : List CmdWord), dueAct s = none → configWf s.cfg = true → s.busy = false →
      s.offers = w :: rest → (∃ e, decode w = .error e) →
        step s = .next { s with offers := rest, env := elapse 1 s.env }

/-- R88: payload bits that are no operand do not matter: two words with one opcode that agree on the operand bits of its format are one
command, and a SET's bits at `N_OUT` and above change nothing it does. -/
def Obligations.IgnoredPayloadBitsDoNotMatter : Prop :=
  (∀ w w' : CmdWord, opOf w = opOf w' →
    (∀ j, j < (if opOf w = 0x01#8 then 104 else if opOf w = 0x03#8 then 8
        else if 0x04 ≤ (opOf w).toNat ∧ (opOf w).toNat ≤ 0x06 then 1
        else if 0x10 ≤ (opOf w).toNat ∧ (opOf w).toNat ≤ 0x1d then 8 * ((opOf w).toNat - 0x10) else 0) →
      (payloadOf w).getLsbD j = (payloadOf w').getLsbD j) →
    decode w = decode w') ∧
    ∀ (s : State) (v v' : Vec), (∀ j, j < s.cfg.nOut → v.getLsbD j = v'.getLsbD j) →
      exec (.set v) s = exec (.set v') s

/-- R91: each pseudo-instruction expands to the one command word the rule names; SETW loads what the three-word call denotes. -/
def Obligations.PseudoInstructionsExpandToOneCommand : Prop :=
  ∀ cfg : Config,
    (∀ w0 w1 w2 v : Vec,
      v = (w0 &&& ones cfg.wordW) ||| ((w1 &&& ones cfg.wordW) <<< cfg.wordW) |||
        ((w2 &&& ones (w2Width cfg)) <<< (2 * cfg.wordW)) →
      decode ((Pseudo.setw w0 w1 w2).word cfg) = .ok (.set v) ∧ maskVec cfg v = fromWords cfg w0 w1 w2) ∧
    (∀ bytes : List Byte, bytes.length = 9 → decode ((Pseudo.setf bytes).word cfg) = .ok (.setb bytes)) ∧
    decode (Pseudo.safe.word cfg) = .ok (.fast false) ∧
    decode (Pseudo.seq.word cfg) = .ok (.by32 false) ∧
    decode (Pseudo.nop.word cfg) = .error (.reservedOpcode 0x00#8)

/-! ### The interleaver -/

/-- R100, R20: MASK is the remainder modulo `2^N_OUT`, and every command leaves VREG masked. -/
def Obligations.MaskBoundsTheVectorRegister : Prop :=
  ∀ cfg : Config, cfg.nOut ≤ 104 →
    (∀ x : Vec, (maskVec cfg x).toNat = x.toNat % 2 ^ cfg.nOut) ∧
    ∀ (i : Instr) (s t : State), s.cfg = cfg → s.vreg.toNat < 2 ^ cfg.nOut → exec i s = .next t →
      t.vreg.toNat < 2 ^ cfg.nOut

/-- R101 with the views of R21: the words of FROM_WORDS are the words given, each cut to the bits the vector has for it (`W2` to
`W2_W` bits, and where `N_OUT` < 64 the others too); a masked vector is FROM_WORDS of its words. -/
def Obligations.WordViewsInvertFromWords : Prop :=
  ∀ cfg : Config, cfg.nOut ≤ 104 →
    (∀ w0 w1 w2 : Vec,
      word0 cfg (fromWords cfg w0 w1 w2) = w0 &&& ones (min cfg.wordW cfg.nOut) ∧
        word1 cfg (fromWords cfg w0 w1 w2) = w1 &&& ones (min cfg.wordW (cfg.nOut - cfg.wordW)) ∧
        word2 cfg (fromWords cfg w0 w1 w2) = w2 &&& ones (w2Width cfg)) ∧
    ∀ v : Vec, fromWords cfg (word0 cfg v) (word1 cfg v) (word2 cfg v) = maskVec cfg v

/-- R102, R54: bit `8k + j` of FROM_BYTES is bit `j` of byte `k`, 0 where no byte is supplied or the index is not below `N_OUT`. -/
def Obligations.FromBytesIsLittleEndianAndZeroFilled : Prop :=
  ∀ (cfg : Config) (n : Nat) (bytes : List Byte) (i : Nat), cfg.nOut ≤ 104 →
    (fromBytes cfg n bytes).getLsbD i =
      (decide (i < cfg.nOut) && decide (i / 8 < n) && (bytes.getD (i / 8) 0#8).getLsbD (i % 8))

/-- R102: the packed form and the vector are one another's inverse. -/
def Obligations.PackedFormRoundTrips : Prop :=
  ∀ cfg : Config, cfg.nOut ≤ 104 →
    (∀ v : Vec, maskVec cfg v = v → fromBytes cfg (packLen cfg) (toBytes cfg v) = v) ∧
    ∀ bytes : List Byte, bytes.length = packLen cfg →
      (∀ i, cfg.nOut ≤ i → (bytes.getD (i / 8) 0#8).getLsbD (i % 8) = false) →
      toBytes cfg (fromBytes cfg (packLen cfg) bytes) = bytes

/-- R105: chain B of the sequential split is the concatenation of the three shifted words with the folded-in low bits of the next. -/
def Obligations.ChainBHasTheWordForm : Prop :=
  ∀ (cfg : Config) (v : Vec) (i : Nat), cfg.nOut ≤ 104 → cfg.shiftK ≤ cfg.wordW → i < cfg.nOut →
    seqB cfg v i =
      (((word0 cfg v >>> cfg.shiftK) ||| ((word1 cfg v &&& ones cfg.shiftK) <<< (cfg.wordW - cfg.shiftK))) |||
        ((((word1 cfg v >>> cfg.shiftK) ||| ((word2 cfg v &&& ones cfg.shiftK) <<< (cfg.wordW - cfg.shiftK))) &&&
          ones cfg.wordW) <<< cfg.wordW) |||
        ((word2 cfg v >>> cfg.shiftK) <<< (2 * cfg.wordW))).getLsbD i

/-- R107: the by-32 inverse of the by-32 split is the vector with the bits above the carried ones cleared, and so the vector itself
exactly when those bits are 0. -/
def Obligations.By32InverseRecoversTheCarriedBits : Prop :=
  ∀ (cfg : Config) (v : Vec), cfg.nOut ≤ 104 →
    recon cfg (split true cfg v) = maskVec cfg v &&& ones (2 * cfg.by32W + cfg.by32Tail) ∧
      (recon cfg (split true cfg v) = maskVec cfg v ↔
        ∀ j, 2 * cfg.by32W + cfg.by32Tail ≤ j → vecBit cfg v j = false)

/-! ### The mode commands -/

/-- R177, R178, R179: each mode command writes its own flag, emits nothing and changes nothing else. -/
def Obligations.ModeCommandsWriteTheirFlagOnly : Prop :=
  ∀ (v : Bool) (s : State),
    exec (.fast v) s = .next { s with fast := v } ∧
    exec (.by32 v) s = .next { s with by32 := v } ∧
    exec (.defer v) s = .next { s with defer := v }

/-! ### The vector commands -/

/-- R173 with R172, R141, R143: SET loads the masked vector and sends the frame that the flags select; the events are those of the
procedure, PORT is what they make of it, and the engine ends idle with POS at `N_OUT`. -/
def Obligations.SetLoadsTheVectorAndSendsTheFrame : Prop :=
  ∀ (vec : Vec) (s : State), s.Inv → s.busy = false →
    s.undisturbed (frameEvents s (maskVec s.cfg vec)).length = true →
    ∃ t, exec (.set vec) s = .next t ∧ t.vreg = maskVec s.cfg vec ∧
      t.hist = record (frameEvents s (maskVec s.cfg vec)) s.hist ∧
      t.port = replay s.port (frameEvents s (maskVec s.cfg vec)) ∧
      t.busy = false ∧ t.phase = .idle ∧ t.pos = s.cfg.nOut ∧ t.pending = []

/-- R174: SETB answers a next state, and it is the one that SET of FROM_BYTES answers. -/
def Obligations.SetbActsAsSetOfItsBytes : Prop :=
  ∀ (bytes : List Byte) (s : State),
    ∃ t, exec (.setb bytes) s = .next t ∧ exec (.set (fromBytes s.cfg bytes.length bytes)) s = .next t ∧
      t.vreg = fromBytes s.cfg bytes.length bytes

/-- The frame of SET and SETB: the configuration, the pins, the three flags, the cursor and the host's stream stay; SNAP and LUT stay on
the safe path; the byte `t` of a PinWrite stays on the fast path; every register of PORT outside `R` reads as before, and every bit
of a register in `R` that is none of the lines is as before. -/
def Obligations.VectorCommandsLeaveTheRestUnchanged : Prop :=
  ∀ (i : Instr) (s t : State), ((∃ v, i = .set v) ∨ ∃ bs, i = .setb bs) → s.Inv → s.busy = false →
    exec i s = .next t →
    t.cfg = s.cfg ∧ t.pins = s.pins ∧ t.fast = s.fast ∧ t.by32 = s.by32 ∧ t.defer = s.defer ∧
      t.fidx = s.fidx ∧ t.dir = s.dir ∧ t.offers = s.offers ∧
      (s.fast = false → t.snap = s.snap ∧ t.lut = s.lut) ∧ (s.fast = true → t.tmp = s.tmp) ∧
      (∀ r, r ∉ order s.pins → t.port.read r = s.port.read r) ∧
      ∀ r, t.port.read r &&& keepMask s.pins r = s.port.read r &&& keepMask s.pins r

/-- R124, R125: a fast frame leaves in SNAP the bytes its registers held when it began, and in LUT the entries of the rule. -/
def Obligations.FastFrameBuildsSnapshotAndTable : Prop :=
  ∀ (vec : Vec) (s : State), s.Inv → s.busy = false → s.fast = true →
    s.undisturbed (frameEvents s (maskVec s.cfg vec)).length = true →
    ∃ t, exec (.set vec) s = .next t ∧
      ∀ r ∈ order s.pins, t.snap.read r = s.port.read r ∧
        ∀ a b, t.lut.read (lutKey r a b) =
          (s.port.read r &&& keepMask s.pins r) ||| (if a then maskOn s.pins .a r else 0#8) |||
            (if b then maskOn s.pins .b r else 0#8)

/-- R151: the LineTrace of a frame is the start signature and the pairs of the split, the sequential one on the safe path; with DEFER = 1
the fast trace lacks the last pair; so both paths give the same trace. -/
def Obligations.BothPathsSampleTheSamePairs : Prop :=
  (∀ (vec : Vec) (s : State), s.Inv → s.busy = false →
    s.undisturbed (frameEvents s (maskVec s.cfg vec)).length = true →
    ∃ t, exec (.set vec) s = .next t ∧
      lineTrace s.pins s.port (eventsSince s t) =
        [(true, true), (true, true)] ++
          (if s.fast = true then
            (if s.defer = true then (split s.by32 s.cfg (maskVec s.cfg vec)).dropLast
              else split s.by32 s.cfg (maskVec s.cfg vec))
          else split false s.cfg (maskVec s.cfg vec))) ∧
  ∀ (vec : Vec) (s s' : State), s.Inv → s'.Inv → s.busy = false → s'.busy = false → s.cfg = s'.cfg →
    s.env = [] → s'.env = [] → s.fast = false → s'.fast = true → s'.by32 = false → s'.defer = false →
    ∃ t t', exec (.set vec) s = .next t ∧ exec (.set vec) s' = .next t' ∧
      lineTrace s.pins s.port (eventsSince s t) = lineTrace s'.pins s'.port (eventsSince s' t')

/-- R152: the numbers of reads, writes, delays and rising edges of each procedure. -/
def Obligations.EventCountsAreFixed : Prop :=
  (∀ (vec : Vec) (s : State), s.Inv → s.busy = false →
    s.undisturbed (frameEvents s (maskVec s.cfg vec)).length = true →
    ∃ t, exec (.set vec) s = .next t ∧
      (s.fast = false →
        (eventsSince s t).countP Event.isRd = 4 * s.cfg.nOut + 9 ∧
        (eventsSince s t).countP Event.isWr = 4 * s.cfg.nOut + 9 ∧
        (eventsSince s t).countP Event.isDly = 3 * s.cfg.nOut + 6 ∧
        (lineTrace s.pins s.port (eventsSince s t)).length = s.cfg.nOut + 2) ∧
      (s.fast = true →
        (eventsSince s t).countP Event.isRd = (order s.pins).length ∧
        (eventsSince s t).countP Event.isWr + s.defer.toNat =
          (s.cfg.nOut + 3) * (order s.pins).length + s.cfg.nOut + 2 ∧
        (eventsSince s t).countP Event.isDly = 0 ∧
        (lineTrace s.pins s.port (eventsSince s t)).length + s.defer.toNat = s.cfg.nOut + 2)) ∧
  ∀ s : State, s.Inv → s.busy = false → s.undisturbed 2 = true →
    ∃ t, exec .finish s = .next t ∧
      (eventsSince s t).countP Event.isRd = 1 ∧ (eventsSince s t).countP Event.isWr = 1 ∧
      (eventsSince s t).countP Event.isDly = 0 ∧
      (lineTrace s.pins s.port (eventsSince s t)).length = if lineLevel s.pins s.port .c then 0 else 1

/-- R148: the levels of the lines when a procedure is over. -/
def Obligations.LinesEndAsTheTableSays : Prop :=
  (∀ (vec : Vec) (s : State), s.Inv → s.busy = false →
    s.undisturbed (frameEvents s (maskVec s.cfg vec)).length = true →
    ∃ t, exec (.set vec) s = .next t ∧
      lineLevel s.pins t.port .c = (s.fast && !s.defer) ∧
      lineLevel s.pins t.port .a = (splitPair (s.fast && s.by32) s.cfg vec (s.cfg.nOut - 1)).1 ∧
      lineLevel s.pins t.port .b = (splitPair (s.fast && s.by32) s.cfg vec (s.cfg.nOut - 1)).2 ∧
      (s.fast = false → 0 < s.cfg.shiftK → lineLevel s.pins t.port .b = false)) ∧
  ∀ s : State, s.Inv → s.busy = false → s.undisturbed 2 = true →
    ∃ t, exec .finish s = .next t ∧ lineLevel s.pins t.port .c = true ∧
      lineLevel s.pins t.port .a = lineLevel s.pins s.port .a ∧
      lineLevel s.pins t.port .b = lineLevel s.pins s.port .b

/-- R172, R141: with FAST = 0 the transmission reads neither BY32 nor DEFER. -/
def Obligations.SafePathIgnoresBy32AndDefer : Prop :=
  ∀ (vec : Vec) (s : State) (x y : Bool), s.fast = false →
    ∃ t, exec (.set vec) s = .next t ∧
      exec (.set vec) { s with by32 := x, defer := y } = .next { t with by32 := x, defer := y }

/-- R142: on the safe path every clock edge comes a delay unit or more after the last change of a line, and the data lines never change
while the clock is high. -/
def Obligations.SafePathPacesEveryClockEdge : Prop :=
  ∀ (vec : Vec) (s : State), s.Inv → s.busy = false → s.fast = false →
    s.undisturbed (frameEvents s (maskVec s.cfg vec)).length = true →
    ∃ t, exec (.set vec) s = .next t ∧ paced s.pins true s.port (eventsSince s t) = true

/-- R153: with deferral at the first of two frames there is one edge at the boundary; the pair presented at the withheld position is never
sampled unless FINISH comes first; the data pulses number `2*N_OUT - 1`, all rising edges `2*N_OUT + 3`. -/
def Obligations.DeferredFrameMergesWithTheNext : Prop :=
  ∀ (v1 v2 : Vec) (s : State), s.Inv → s.busy = false → s.env = [] → s.fast = true →
    (∃ t, execAll [.defer true, .set v1, .defer false, .set v2] s = .next t ∧
      lineTrace s.pins s.port (eventsSince s t) =
        [(true, true), (true, true)] ++ (split s.by32 s.cfg (maskVec s.cfg v1)).dropLast ++
          [(true, true), (true, true)] ++ split s.by32 s.cfg (maskVec s.cfg v2) ∧
      (lineTrace s.pins s.port (eventsSince s t)).length = 2 * s.cfg.nOut + 3) ∧
    ∃ t, execAll [.defer true, .set v1, .set v2, .finish] s = .next t ∧
      lineTrace s.pins s.port (eventsSince s t) =
        [(true, true), (true, true)] ++ (split s.by32 s.cfg (maskVec s.cfg v1)).dropLast ++
          [(true, true), (true, true)] ++ split s.by32 s.cfg (maskVec s.cfg v2) ∧
      (lineTrace s.pins s.port (eventsSince s t)).length = 2 * s.cfg.nOut + 3

/-- R149, seen from the k-th event of a frame that is not its last: PHASE and POS are the part and the pulse or position the event belongs to. The instants
between two events are the model's choice (log 10, 11). -/
def Obligations.PhaseAndPositionFollowTheFrame : Prop :=
  ∀ (vec : Vec) (s : State) (k : Nat) (act : EnvAct), s.Inv → s.busy = false → s.env = [(k, act)] → 1 ≤ k →
    k < (frameEvents s (maskVec s.cfg vec)).length →
    ∃ t, exec (.set vec) s = .next t ∧ t.busy = true ∧ t.env = [(0, act)] ∧
      t.hist = record ((frameEvents s (maskVec s.cfg vec)).take k) s.hist ∧
      (t.phase, t.pos) =
        if s.fast then fastPlace (order s.pins).length s.pos k else safePlace s.pos k

/-! ### FINISH and BRIGHT -/

/-- R176 with R147: FINISH reads the clock's register and writes it back with the clock bit set, whatever came before; nothing else changes
(`tmp` is the byte it read, log 12), and where the clock is already high no byte of PORT does. -/
def Obligations.FinishRaisesTheClockAndNothingElse : Prop :=
  ∀ s : State, s.Inv → s.busy = false → s.undisturbed 2 = true →
    exec .finish s = .next { s with
      port := s.port.write (regOf s.pins .c) (s.port.read (regOf s.pins .c) ||| lineMask s.pins .c)
      hist := record [.rd (regOf s.pins .c) (s.port.read (regOf s.pins .c)),
        .wr (regOf s.pins .c) (s.port.read (regOf s.pins .c) ||| lineMask s.pins .c)] s.hist
      tmp := s.port.read (regOf s.pins .c)
      env := elapse 2 s.env } ∧
    (lineLevel s.pins s.port .c = true →
      s.port.write (regOf s.pins .c) (s.port.read (regOf s.pins .c) ||| lineMask s.pins .c) = s.port)

/-- R175: with a brightness pin BRIGHT emits the one event `PWM(level)`, without one nothing; it changes nothing else in the block and
nothing in PORT. That the event is a turn in the environment's script is the model's choice (log 8). -/
def Obligations.BrightHandsTheLevelToThePwmUnit : Prop :=
  ∀ (level : Byte) (s : State), s.Inv → s.busy = false → s.undisturbed 1 = true →
    exec (.bright level) s =
      if s.cfg.brtPin = none then .next s
      else .next { s with hist := record [.pwm level] s.hist, env := elapse 1 s.env }

/-- R146, R147, R31: after a deferred fast frame an edge is withheld, and FINISH supplies it: it samples the frame's last pair, once, and
then none is withheld. -/
def Obligations.FinishSamplesTheWithheldPair : Prop :=
  ∀ (vec : Vec) (s : State), s.Inv → s.busy = false → s.env = [] → s.fast = true → s.defer = true →
    ∃ t u w, exec (.set vec) s = .next t ∧ exec .finish t = .next u ∧ exec .finish u = .next w ∧
      edgePendingAfter (.set vec) s t false = true ∧
      lineTrace s.pins t.port (eventsSince t u) = [splitPair s.by32 s.cfg vec (s.cfg.nOut - 1)] ∧
      edgePendingAfter .finish t u true = false ∧
      lineTrace s.pins u.port (eventsSince u w) = []

/-! ### NEXT -/

/-- R190, R197: NEXT shows the frame of the cursor through the same dispatch as SET, holds it for that frame's delay, and advances the
cursor; it leaves the configuration, the pins, the flags and the host's stream, SNAP and LUT on the safe path, and every register
outside `R`. -/
def Obligations.NextShowsHoldsAndAdvances : Prop :=
  ∀ (s : State) (bytes : List Byte) (d : BitVec 16), s.Inv → s.busy = false → 0 < s.cfg.frameCount →
    s.cfg.frameRom[s.fidx.toNat]? = some bytes → s.cfg.delayRom[s.fidx.toNat]? = some d →
    s.undisturbed ((frameEvents s (fromBytes s.cfg s.cfg.frameBytes bytes)).length + 2) = true →
    ∃ t, exec .next s = .next t ∧ t.vreg = fromBytes s.cfg s.cfg.frameBytes bytes ∧
      t.hist = record (frameEvents s (fromBytes s.cfg s.cfg.frameBytes bytes) ++ [.waitMs d]) s.hist ∧
      t.port = replay s.port (frameEvents s (fromBytes s.cfg s.cfg.frameBytes bytes)) ∧
      (t.fidx.toNat, t.dir) = advance s.cfg.frameCount s.cfg.pingPong s.fidx.toNat s.dir ∧
      t.busy = false ∧ t.phase = .idle ∧ t.pos = s.cfg.nOut ∧ t.pending = [] ∧
      t.cfg = s.cfg ∧ t.pins = s.pins ∧ t.fast = s.fast ∧ t.by32 = s.by32 ∧ t.defer = s.defer ∧
      t.offers = s.offers ∧ (s.fast = false → t.snap = s.snap ∧ t.lut = s.lut) ∧ (s.fast = true → t.tmp = s.tmp) ∧
      ∀ r, r ∉ order s.pins → t.port.read r = s.port.read r

/-- R149, R26, R190: an act of the environment that comes after the last event of NEXT's frame finds the engine busy with PHASE = IDLE and
POS = `N_OUT`; one that comes after the `WAITMS` finds it in WAIT, still busy, with the cursor not yet moved. The rules give WAIT, BUSY = 1 and the
order; that WAIT begins with the `WAITMS` event and that this event is in the history while the wait lasts are the model's choice
(log 11, 25, 22, 26), and so is the count of turns at which the act comes (log 8). -/
def Obligations.NextIsIdleAfterItsFrameAndThenWaits : Prop :=
  ∀ (s : State) (bytes : List Byte) (d : BitVec 16) (act : EnvAct), s.Inv → s.busy = false → 0 < s.cfg.frameCount →
    s.cfg.frameRom[s.fidx.toNat]? = some bytes → s.cfg.delayRom[s.fidx.toNat]? = some d →
    (s.env = [((frameEvents s (fromBytes s.cfg s.cfg.frameBytes bytes)).length, act)] →
      ∃ t, exec .next s = .next t ∧ t.busy = true ∧ t.phase = .idle ∧ t.pos = s.cfg.nOut ∧
        t.hist = record (frameEvents s (fromBytes s.cfg s.cfg.frameBytes bytes)) s.hist ∧
        t.fidx = s.fidx ∧ t.dir = s.dir ∧ t.env = [(0, act)]) ∧
    (s.env = [((frameEvents s (fromBytes s.cfg s.cfg.frameBytes bytes)).length + 1, act)] →
      ∃ t, exec .next s = .next t ∧ t.busy = true ∧ t.phase = .wait ∧ t.pos = s.cfg.nOut ∧
        t.hist = record (frameEvents s (fromBytes s.cfg s.cfg.frameBytes bytes) ++ [.waitMs d]) s.hist ∧
        t.fidx = s.fidx ∧ t.dir = s.dir ∧ t.env = [(0, act)])

/-- R190, R26: from WAIT, when no act of the environment is due, the wait ends: the cursor advances, BUSY falls, PHASE is IDLE, no event is
emitted and nothing else changes. That the end of the wait, the advance and the fall of BUSY are one turn, counted in the environment's
script, is the model's choice (log 8, 25, 26). -/
def Obligations.WaitEndsWithTheCursorsAdvance : Prop :=
  ∀ s : State, s.Inv → s.phase = .wait → dueAct s = none →
    step s = .next { s with
      fidx := BitVec.ofNat 16 (advance s.cfg.frameCount s.cfg.pingPong s.fidx.toNat s.dir).1
      dir := (advance s.cfg.frameCount s.cfg.pingPong s.fidx.toNat s.dir).2
      busy := false
      phase := .idle
      pending := []
      env := elapse 1 s.env }

/-- R196: with an empty frame table NEXT emits nothing and writes nothing. -/
def Obligations.NextWithAnEmptyTableDoesNothing : Prop :=
  ∀ s : State, s.cfg.frameCount = 0 → exec .next s = .next s

/-- R192, R193, R194: the cursor's step inside the table and at its ends, for `n` frames. -/
def Obligations.CursorStepsAndTurns : Prop :=
  ∀ n idx : Nat, 0 < n →
    (∀ pp, idx + 1 < n → advance n pp idx .forward = (idx + 1, .forward)) ∧
    (∀ pp, 0 < idx → idx < n → advance n pp idx .backward = (idx - 1, .backward)) ∧
    advance n true (n - 1) .forward = (n - 2, .backward) ∧
    advance n false (n - 1) .forward = (0, .forward) ∧
    advance n true 0 .backward = (min 1 (n - 1), .forward) ∧
    advance n false 0 .backward = (n - 1, .backward)

/-- R195, with R196 for one frame: the order in which successive NEXTs from the cursor (0, forward) show the frames, in ping-pong mode
and in wrap mode. -/
def Obligations.FramesAreVisitedInTheStatedOrder : Prop :=
  ∀ (s : State) (k : Nat), s.Inv → s.busy = false → s.env = [] → s.fidx = 0#16 → s.dir = .forward →
    0 < s.cfg.frameCount →
    ∃ t u, execAll (List.replicate k .next) s = .next t ∧ exec .next t = .next u ∧
      t.fidx.toNat =
        (if s.cfg.pingPong then pingPongFrame s.cfg.frameCount k else wrapFrame s.cfg.frameCount k) ∧
      u.vreg = fromBytes s.cfg s.cfg.frameBytes (s.cfg.frameRom.getD t.fidx.toNat [])

/-! ### The whole machine -/

/-- A step on an idle engine runs exactly the command that the host's next word decodes to, the word being taken from the host's
stream and its acceptance counted as a turn in the environment's script (log 8). -/
def Obligations.StepRunsTheDecodedCommand : Prop :=
  ∀ (s : State) (w : CmdWord) (rest : List CmdWord) (i : Instr), dueAct s = none → configWf s.cfg = true →
    s.busy = false → s.offers = w :: rest → decode w = .ok i →
    step s = exec i { s with offers := rest, env := elapse 1 s.env }

/-- The word laid for the next step is the one the next step runs (log 9 says how it is laid). -/
def Obligations.LaidWordIsTheNextCommand : Prop :=
  ∀ (s : State) (w : Nat) (i : Instr), configWf s.cfg = true → decodeTableWord 112 w = some i →
    step (s.withFetchWord 112 w) = exec i { s with busy := false, pending := [], env := [] }

/-- R170, R154: a busy engine accepts no command and drops none; it goes on with its own, taking at least one of the turns still to come and
emitting at least one event, but for a wait that ends. The list of turns still to come and the turn without an event are the model's
(log 13, 25). -/
def Obligations.BusyEngineAcceptsNoCommand : Prop :=
  ∀ s : State, s.Inv → s.busy = true → dueAct s = none →
    ∃ t, step s = .next t ∧ t.offers = s.offers ∧ s.cmdReady = false ∧ t.pending.length < s.pending.length ∧
      (s.phase ≠ .wait → s.hist.length < t.hist.length) ∧ (s.phase = .wait → t.busy = false)

/-- R170, R221, R62: the environment can act right after the acceptance of a command. One with events is then busy and has emitted none; one
without events is complete, and the next word is not yet accepted. That acceptance is an instant of its own is the model's choice
(log 8). -/
def Obligations.EnvironmentCanActRightAfterAcceptance : Prop :=
  ∀ (s u : State) (w : CmdWord) (rest : List CmdWord) (i : Instr) (act : EnvAct), s.Inv → s.busy = false →
    s.env = [(1, act)] → s.offers = w :: rest → decode w = .ok i →
    exec i { s with offers := rest, env := [] } = .next u →
    ∃ t, step s = .next t ∧ t.offers = rest ∧ t.hist = s.hist ∧ t.port = s.port ∧ t.env = [(0, act)] ∧
      t.busy = !(eventsSince s u).isEmpty ∧ (u.hist = s.hist → t = { u with env := [(0, act)] }) ∧
      step t = envStep act { t with env := [] } ∧
      ∀ straps, act = .reset straps → ∃ x, step t = .next x ∧ x.hist = s.hist ∧ x.port = s.port ∧ x.offers = rest ∧
        x.busy = false ∧ x.pending = [] ∧ x.fast = straps.rstFast ∧ x.by32 = false ∧ x.defer = false

/-- R213: an idle engine that is offered nothing waits, emitting nothing. -/
def Obligations.IdleEngineWaits : Prop :=
  ∀ s : State, s.Inv → s.busy = false → dueAct s = none → s.offers = [] → step s = .next s

/-- R171, R22, R23, R28, R222: no command writes the configuration or the pins; each flag is written by its own command only; the cursor is
written by NEXT only; VREG is written by SET, SETB and NEXT only. -/
def Obligations.CommandsWriteOnlyWhatTheirRuleNames : Prop :=
  ∀ (i : Instr) (s t : State), exec i s = .next t →
    t.cfg = s.cfg ∧ t.pins = s.pins ∧ t.offers = s.offers ∧
      ((∀ v, i ≠ .fast v) → t.fast = s.fast) ∧
      ((∀ v, i ≠ .by32 v) → t.by32 = s.by32) ∧
      ((∀ v, i ≠ .defer v) → t.defer = s.defer) ∧
      (i ≠ .next → t.fidx = s.fidx ∧ t.dir = s.dir) ∧
      ((∀ v, i ≠ .set v) → (∀ bs, i ≠ .setb bs) → i ≠ .next → t.vreg = s.vreg ∧ t.snap = s.snap ∧ t.lut = s.lut)

/-- R61, R51, R59: a step only adds to the history; every `RD` it adds returns the byte last written to its register by any agent; PORT
is what the `WR` events it adds, in their order, make of PORT, and nothing else changes it. -/
def Obligations.HistoryExplainsThePort : Prop :=
  ∀ s t : State, step s = .next t →
    ∃ new : List (Agent × Event), t.hist = new.reverse ++ s.hist ∧
      readsLastWritten s.port (new.map Prod.snd) = true ∧ t.port = replay s.port (new.map Prod.snd)

/-- R51: the engine accesses no register outside `R`, and `R` lies in the register bank. -/
def Obligations.EngineAccessesItsOwnRegistersOnly : Prop :=
  ∀ s t : State, s.Inv → step s = .next t →
    ∃ new : List (Agent × Event), t.hist = new ++ s.hist ∧
      ∀ e r, (Agent.engine, e) ∈ new → e.reg? = some r → r ∈ order s.pins ∧ r < s.cfg.nRegs

/-- R128: from the acceptance of a command to its end, or to the point where the environment acts, the engine changes no bit of PORT
other than the three lines. -/
def Obligations.NoCommandChangesForeignBits : Prop :=
  ∀ s t : State, s.Inv → s.busy = false → dueAct s = none → step s = .next t →
    ∀ r, t.port.read r &&& keepMask s.pins r = s.port.read r &&& keepMask s.pins r

/-- R10, R62, R226: an act of the environment that keeps R226, at any point between the acceptance of a command and its last event or in the
wait of NEXT, leaves the command's events, the block's state and the lines at its end as they would have been; the environment's own write stands. -/
def Obligations.PoliteEnvironmentLeavesTheCommandAlone : Prop :=
  ∀ (i : Instr) (s t : State) (k : Nat) (act : EnvAct), s.Inv → s.busy = false → s.env = [(k, act)] →
    politeAct i s act = true → exec i { s with env := [] } = .next t →
    k < (eventsSince s t).length + (if i = .next ∧ 0 < s.cfg.frameCount then 1 else 0) →
    ∃ t1 t2 t3, exec i s = .next t1 ∧ t1.busy = true ∧ step t1 = .next t2 ∧ step t2 = .next t3 ∧
      engineEvents t3.hist = engineEvents t.hist ∧
      (∀ x, lineLevel s.pins t3.port x = lineLevel s.pins t.port x) ∧
      (∀ r, t3.port.read r = match act with
        | .write r' b => if r' = r then b else t.port.read r
        | .read _ => t.port.read r
        | .reset _ => t.port.read r) ∧
      t3.vreg = t.vreg ∧ t3.fast = t.fast ∧ t3.by32 = t.by32 ∧ t3.defer = t.defer ∧ t3.busy = t.busy ∧
      t3.phase = t.phase ∧ t3.pos = t.pos ∧ t3.snap = t.snap ∧ t3.lut = t.lut ∧ t3.fidx = t.fidx ∧ t3.dir = t.dir

/-- R58, R62: a PinWrite is two accesses: a foreign write that falls between its `RD` and its `WR` is lost for every bit. -/
def Obligations.ForeignWriteInsideAPinWriteIsLost : Prop :=
  ∀ (s : State) (b : Byte), s.Inv → s.busy = false → s.env = [(1, .write (regOf s.pins .c) b)] →
    ∃ t1 t2 t3, exec .finish s = .next t1 ∧ step t1 = .next t2 ∧ step t2 = .next t3 ∧
      t2.port.read (regOf s.pins .c) = b ∧
      t3.port.read (regOf s.pins .c) = s.port.read (regOf s.pins .c) ||| lineMask s.pins .c ∧
      t3.hist = (.engine, .wr (regOf s.pins .c) (s.port.read (regOf s.pins .c) ||| lineMask s.pins .c)) ::
        (.environment, .wr (regOf s.pins .c) b) ::
        (.engine, .rd (regOf s.pins .c) (s.port.read (regOf s.pins .c))) :: s.hist

/-- R226, R201: where the duty is broken the engine neither notices nor stops: a foreign write of any register, the brightness pin's among
them, that falls inside BRIGHT stands, and the level is handed over as before. That it can fall between the acceptance and the event is the model's
choice (log 8). -/
def Obligations.ForeignWriteDuringBrightGoesUnnoticed : Prop :=
  ∀ (s : State) (level : Byte) (p : Nat) (r : RegId) (b : Byte), s.Inv → s.busy = false → s.cfg.brtPin = some p →
    r < s.cfg.nRegs → s.env = [(0, .write r b)] →
    ∃ t1 t2 t3, exec (.bright level) s = .next t1 ∧ t1.busy = true ∧ step t1 = .next t2 ∧ step t2 = .next t3 ∧
      t3 = { s with
        port := s.port.write r b
        hist := (.engine, .pwm level) :: (.environment, .wr r b) :: s.hist
        env := [] }

/-- R31: over steps of any agents in which no transmission ends and the pins stay, an edge is still withheld exactly when none of their `WR`s
raised the clock, the environment's among them: the answer is a property of the history. What counts as the last transmission is the model's
reading (log 30). -/
def Obligations.WithheldEdgeIsAPropertyOfTheHistory : Prop :=
  ∀ (s t u : State) (withheld : Bool), step s = .next t → step t = .next u → t.pins = s.pins →
    stepEndsFrame s t = false → stepEndsFrame t u = false →
    edgePendingStep t u (edgePendingStep s t withheld) =
      (withheld && (lineTrace s.pins s.port (eventsSince s u)).isEmpty)

/-- R31, R62, R147: after a deferred frame a foreign write between two commands that raises the clock supplies the edge: none is withheld any
more, and a FINISH after it samples nothing (log 30). -/
def Obligations.ForeignRiseSuppliesTheWithheldEdge : Prop :=
  ∀ (vec : Vec) (s : State) (b : Byte), s.Inv → s.busy = false → s.fast = true → s.defer = true →
    s.env = [((frameEvents s (maskVec s.cfg vec)).length, .write (regOf s.pins .c) b)] →
    b.getLsbD (pinOf s.pins .c).bit.val = true →
    ∃ t u w, exec (.set vec) s = .next t ∧ edgePendingAfter (.set vec) s t false = true ∧
      step t = .next u ∧ edgePendingStep t u true = false ∧
      exec .finish u = .next w ∧ lineTrace s.pins u.port (eventsSince u w) = [] ∧ edgePendingAfter .finish u w false = false

/-- U1, R33, R27: no command's events, port writes or visible state depend on what VREG, SNAP, LUT and the byte `t` hold when it begins,
up to its end or the environment's first turn in it: the values that R33 leaves unspecified at reset (log 3, 4, 12, 16) enter none of
them. -/
def Obligations.UnspecifiedResetValuesAreNeverRead : Prop :=
  ∀ (i : Instr) (s t : State) (x : Vec) (m m' : Memory) (b : Byte), s.Inv → s.busy = false → m.wf = true →
    m'.wf = true → exec i s = .next t →
    ∃ t', exec i { s with vreg := x, snap := m, lut := m', tmp := b } = .next t' ∧
      t'.hist = t.hist ∧ t'.port = t.port ∧ t'.busy = t.busy ∧ t'.phase = t.phase ∧ t'.pos = t.pos ∧
      t'.fast = t.fast ∧ t'.by32 = t.by32 ∧ t'.defer = t.defer ∧ t'.fidx = t.fidx ∧ t'.dir = t.dir ∧
      t'.offers = t.offers ∧ t'.env = t.env ∧ t'.pending = t.pending
end

