-- ==== Sys2Proof/Laws/Bits.lean ====
section
/-! SUPPORT. The bits of the vector operations, one lemma per operation: `mask(n)`, `MASK`, the packed bytes, the bit builder. -/

namespace Sys2Proof

@[simp] theorem ones_getLsbD (n i : Nat) : (ones n).getLsbD i = (decide (i < n) && decide (i < 104)) := by
  simp [ones, BitVec.getLsbD_ofNat, Nat.testBit_two_pow_sub_one, Bool.and_comm]

theorem ofBits_getLsbD (f : Nat → Bool) (n i : Nat) :
    (ofBits f n).getLsbD i = (decide (i < n) && decide (i < 104) && f i) := by
  induction n with
  | zero => simp [ofBits]
  | succ n ih =>
    rw [ofBits, BitVec.getLsbD_or, ih]
    have hbit : (if f n then (1#104 <<< n) else 0#104).getLsbD i = (decide (i = n) && decide (i < 104) && f i) := by
      by_cases hf : f n <;> by_cases hi : i = n
      · subst hi
        simp [hf]
      · simp [hf, hi, BitVec.getLsbD_one]
        omega
      · subst hi
        simp [hf]
      · simp [hf, hi]
    rw [hbit]
    by_cases h1 : i < n
    · simp [h1, show i < n + 1 by omega, show i ≠ n by omega]
    · by_cases h2 : i = n
      · simp [h2]
      · simp [h1, h2, show ¬ i < n + 1 by omega]

theorem payloadByte_getLsbD (p : Vec) (k i : Nat) :
    (payloadByte p k).getLsbD i = (decide (i < 8) && p.getLsbD (8 * k + i)) := by
  simp [payloadByte]

/-- Byte `k` stands in the bits from `8k` (R54); a byte that is not there is 0. -/
theorem packBytes_getLsbD (bs : List Byte) (i : Nat) :
    (packBytes bs).getLsbD i = (decide (i < 104) && (bs.getD (i / 8) 0#8).getLsbD (i % 8)) := by
  induction bs generalizing i with
  | nil => simp [packBytes]
  | cons b bs ih =>
    rw [packBytes, BitVec.getLsbD_or, BitVec.getLsbD_shiftLeft, ih, BitVec.getLsbD_setWidth]
    by_cases h : i < 8
    · simp [h, Nat.div_eq_of_lt h, Nat.mod_eq_of_lt h]
    · have hdiv : i / 8 = (i - 8) / 8 + 1 := by omega
      have hmod : i % 8 = (i - 8) % 8 := by omega
      have hb : b.getLsbD i = false := BitVec.getLsbD_of_ge _ _ (by omega)
      rw [hdiv, hmod, hb]
      by_cases h' : i < 104
      · simp [h, h', show i - 8 < 104 by omega]
      · simp [h']

end Sys2Proof

namespace Sys2Proof.Machine

open Sys2Proof

@[simp] theorem maskVec_getLsbD (cfg : Config) (x : Vec) (i : Nat) :
    (maskVec cfg x).getLsbD i = (decide (i < cfg.nOut) && x.getLsbD i) := by
  by_cases h : i < 104
  · rw [maskVec, BitVec.getLsbD_and, ones_getLsbD]
    simp [h, Bool.and_comm]
  · have h1 : (maskVec cfg x).getLsbD i = false := BitVec.getLsbD_of_ge _ _ (by omega)
    have h2 : x.getLsbD i = false := BitVec.getLsbD_of_ge _ _ (by omega)
    rw [h1, h2, Bool.and_false]

/-- MASK keeps a vector that is already masked. -/
@[simp] theorem maskVec_maskVec (cfg : Config) (x : Vec) : maskVec cfg (maskVec cfg x) = maskVec cfg x := by
  apply BitVec.eq_of_getLsbD_eq
  simp [maskVec_getLsbD]

/-- The bit of `V` that R8 speaks of is the bit of the masked vector. -/
theorem vecBit_eq (cfg : Config) (v : Vec) (j : Nat) : vecBit cfg v j = (maskVec cfg v).getLsbD j := by
  rw [vecBit, maskVec_getLsbD]

@[simp] theorem vecBit_maskVec (cfg : Config) (v : Vec) (j : Nat) : vecBit cfg (maskVec cfg v) j = vecBit cfg v j := by
  rw [vecBit_eq, vecBit_eq, maskVec_maskVec]

@[simp] theorem maskVec_fromBytes (cfg : Config) (n : Nat) (bs : List Byte) :
    maskVec cfg (fromBytes cfg n bs) = fromBytes cfg n bs := maskVec_maskVec ..

@[simp] theorem split_length (by32 : Bool) (cfg : Config) (v : Vec) : (split by32 cfg v).length = cfg.nOut := by
  simp [split]

end Sys2Proof.Machine
end

