-- ==== Sys2Proof/Laws/State.lean ====
section
/-! SUPPORT. What each named update of the state does to each field, one lemma per field, so that no later proof unfolds an update. -/

namespace Sys2Proof.Machine

open Sys2Proof

@[simp] theorem elapse_nil (n : Nat) : elapse n [] = [] := rfl
@[simp] theorem elapse_cons (n gap : Nat) (act : EnvAct) (rest : List (Nat × EnvAct)) :
    elapse n ((gap, act) :: rest) = (gap - n, act) :: rest := rfl

/-- What the acceptance of a word changes: the host's stream, and one turn in the environment's script. -/
theorem acceptOffer_eq_some {s s' : State} {w : CmdWord} (h : acceptOffer s = some (w, s')) :
    ∃ rest, s.offers = w :: rest ∧ s' = { s with offers := rest, env := elapse 1 s.env } := by
  unfold acceptOffer at h
  split at h <;> cases h
  exact ⟨_, ‹_›, rfl⟩

@[simp] theorem emit_cfg (s : State) (who : Agent) (e : Event) : (s.emit who e).cfg = s.cfg := rfl
@[simp] theorem emit_pins (s : State) (who : Agent) (e : Event) : (s.emit who e).pins = s.pins := rfl
@[simp] theorem emit_vreg (s : State) (who : Agent) (e : Event) : (s.emit who e).vreg = s.vreg := rfl
@[simp] theorem emit_fast (s : State) (who : Agent) (e : Event) : (s.emit who e).fast = s.fast := rfl
@[simp] theorem emit_by32 (s : State) (who : Agent) (e : Event) : (s.emit who e).by32 = s.by32 := rfl
@[simp] theorem emit_defer (s : State) (who : Agent) (e : Event) : (s.emit who e).defer = s.defer := rfl
@[simp] theorem emit_busy (s : State) (who : Agent) (e : Event) : (s.emit who e).busy = s.busy := rfl
@[simp] theorem emit_phase (s : State) (who : Agent) (e : Event) : (s.emit who e).phase = s.phase := rfl
@[simp] theorem emit_pos (s : State) (who : Agent) (e : Event) : (s.emit who e).pos = s.pos := rfl
@[simp] theorem emit_snap (s : State) (who : Agent) (e : Event) : (s.emit who e).snap = s.snap := rfl
@[simp] theorem emit_lut (s : State) (who : Agent) (e : Event) : (s.emit who e).lut = s.lut := rfl
@[simp] theorem emit_fidx (s : State) (who : Agent) (e : Event) : (s.emit who e).fidx = s.fidx := rfl
@[simp] theorem emit_dir (s : State) (who : Agent) (e : Event) : (s.emit who e).dir = s.dir := rfl
@[simp] theorem emit_tmp (s : State) (who : Agent) (e : Event) : (s.emit who e).tmp = s.tmp := rfl
@[simp] theorem emit_pending (s : State) (who : Agent) (e : Event) : (s.emit who e).pending = s.pending := rfl
@[simp] theorem emit_port (s : State) (who : Agent) (e : Event) : (s.emit who e).port = s.port := rfl
@[simp] theorem emit_hist (s : State) (who : Agent) (e : Event) : (s.emit who e).hist = (who, e) :: s.hist := rfl
@[simp] theorem emit_offers (s : State) (who : Agent) (e : Event) : (s.emit who e).offers = s.offers := rfl
@[simp] theorem emit_env (s : State) (who : Agent) (e : Event) : (s.emit who e).env = s.env := rfl

@[simp] theorem rd_cfg (s : State) (r : RegId) : (s.rd r).cfg = s.cfg := rfl
@[simp] theorem rd_pins (s : State) (r : RegId) : (s.rd r).pins = s.pins := rfl
@[simp] theorem rd_vreg (s : State) (r : RegId) : (s.rd r).vreg = s.vreg := rfl
@[simp] theorem rd_fast (s : State) (r : RegId) : (s.rd r).fast = s.fast := rfl
@[simp] theorem rd_by32 (s : State) (r : RegId) : (s.rd r).by32 = s.by32 := rfl
@[simp] theorem rd_defer (s : State) (r : RegId) : (s.rd r).defer = s.defer := rfl
@[simp] theorem rd_busy (s : State) (r : RegId) : (s.rd r).busy = s.busy := rfl
@[simp] theorem rd_phase (s : State) (r : RegId) : (s.rd r).phase = s.phase := rfl
@[simp] theorem rd_pos (s : State) (r : RegId) : (s.rd r).pos = s.pos := rfl
@[simp] theorem rd_snap (s : State) (r : RegId) : (s.rd r).snap = s.snap := rfl
@[simp] theorem rd_lut (s : State) (r : RegId) : (s.rd r).lut = s.lut := rfl
@[simp] theorem rd_fidx (s : State) (r : RegId) : (s.rd r).fidx = s.fidx := rfl
@[simp] theorem rd_dir (s : State) (r : RegId) : (s.rd r).dir = s.dir := rfl
@[simp] theorem rd_tmp (s : State) (r : RegId) : (s.rd r).tmp = s.tmp := rfl
@[simp] theorem rd_pending (s : State) (r : RegId) : (s.rd r).pending = s.pending := rfl
@[simp] theorem rd_port (s : State) (r : RegId) : (s.rd r).port = s.port := rfl
@[simp] theorem rd_hist (s : State) (r : RegId) : (s.rd r).hist = (.engine, .rd r (s.port.read r)) :: s.hist := rfl
@[simp] theorem rd_offers (s : State) (r : RegId) : (s.rd r).offers = s.offers := rfl
@[simp] theorem rd_env (s : State) (r : RegId) : (s.rd r).env = s.env := rfl

@[simp] theorem wr_cfg (s : State) (r : RegId) (b : Byte) : (s.wr r b).cfg = s.cfg := rfl
@[simp] theorem wr_pins (s : State) (r : RegId) (b : Byte) : (s.wr r b).pins = s.pins := rfl
@[simp] theorem wr_vreg (s : State) (r : RegId) (b : Byte) : (s.wr r b).vreg = s.vreg := rfl
@[simp] theorem wr_fast (s : State) (r : RegId) (b : Byte) : (s.wr r b).fast = s.fast := rfl
@[simp] theorem wr_by32 (s : State) (r : RegId) (b : Byte) : (s.wr r b).by32 = s.by32 := rfl
@[simp] theorem wr_defer (s : State) (r : RegId) (b : Byte) : (s.wr r b).defer = s.defer := rfl
@[simp] theorem wr_busy (s : State) (r : RegId) (b : Byte) : (s.wr r b).busy = s.busy := rfl
@[simp] theorem wr_phase (s : State) (r : RegId) (b : Byte) : (s.wr r b).phase = s.phase := rfl
@[simp] theorem wr_pos (s : State) (r : RegId) (b : Byte) : (s.wr r b).pos = s.pos := rfl
@[simp] theorem wr_snap (s : State) (r : RegId) (b : Byte) : (s.wr r b).snap = s.snap := rfl
@[simp] theorem wr_lut (s : State) (r : RegId) (b : Byte) : (s.wr r b).lut = s.lut := rfl
@[simp] theorem wr_fidx (s : State) (r : RegId) (b : Byte) : (s.wr r b).fidx = s.fidx := rfl
@[simp] theorem wr_dir (s : State) (r : RegId) (b : Byte) : (s.wr r b).dir = s.dir := rfl
@[simp] theorem wr_tmp (s : State) (r : RegId) (b : Byte) : (s.wr r b).tmp = s.tmp := rfl
@[simp] theorem wr_pending (s : State) (r : RegId) (b : Byte) : (s.wr r b).pending = s.pending := rfl
@[simp] theorem wr_port (s : State) (r : RegId) (b : Byte) : (s.wr r b).port = s.port.write r b := rfl
@[simp] theorem wr_hist (s : State) (r : RegId) (b : Byte) : (s.wr r b).hist = (.engine, .wr r b) :: s.hist := rfl
@[simp] theorem wr_offers (s : State) (r : RegId) (b : Byte) : (s.wr r b).offers = s.offers := rfl
@[simp] theorem wr_env (s : State) (r : RegId) (b : Byte) : (s.wr r b).env = s.env := rfl

@[simp] theorem capture_cfg (s : State) (r : RegId) (b : Byte) : (s.capture r b).cfg = s.cfg := rfl
@[simp] theorem capture_pins (s : State) (r : RegId) (b : Byte) : (s.capture r b).pins = s.pins := rfl
@[simp] theorem capture_vreg (s : State) (r : RegId) (b : Byte) : (s.capture r b).vreg = s.vreg := rfl
@[simp] theorem capture_fast (s : State) (r : RegId) (b : Byte) : (s.capture r b).fast = s.fast := rfl
@[simp] theorem capture_by32 (s : State) (r : RegId) (b : Byte) : (s.capture r b).by32 = s.by32 := rfl
@[simp] theorem capture_defer (s : State) (r : RegId) (b : Byte) : (s.capture r b).defer = s.defer := rfl
@[simp] theorem capture_busy (s : State) (r : RegId) (b : Byte) : (s.capture r b).busy = s.busy := rfl
@[simp] theorem capture_phase (s : State) (r : RegId) (b : Byte) : (s.capture r b).phase = s.phase := rfl
@[simp] theorem capture_pos (s : State) (r : RegId) (b : Byte) : (s.capture r b).pos = s.pos := rfl
@[simp] theorem capture_snap (s : State) (r : RegId) (b : Byte) : (s.capture r b).snap = s.snap.write r b := rfl
@[simp] theorem capture_fidx (s : State) (r : RegId) (b : Byte) : (s.capture r b).fidx = s.fidx := rfl
@[simp] theorem capture_dir (s : State) (r : RegId) (b : Byte) : (s.capture r b).dir = s.dir := rfl
@[simp] theorem capture_tmp (s : State) (r : RegId) (b : Byte) : (s.capture r b).tmp = s.tmp := rfl
@[simp] theorem capture_pending (s : State) (r : RegId) (b : Byte) : (s.capture r b).pending = s.pending := rfl
@[simp] theorem capture_port (s : State) (r : RegId) (b : Byte) : (s.capture r b).port = s.port := rfl
@[simp] theorem capture_hist (s : State) (r : RegId) (b : Byte) : (s.capture r b).hist = s.hist := rfl
@[simp] theorem capture_offers (s : State) (r : RegId) (b : Byte) : (s.capture r b).offers = s.offers := rfl
@[simp] theorem capture_env (s : State) (r : RegId) (b : Byte) : (s.capture r b).env = s.env := rfl

@[simp] theorem advanceCursor_cfg (s : State) : (s.advanceCursor).cfg = s.cfg := rfl
@[simp] theorem advanceCursor_pins (s : State) : (s.advanceCursor).pins = s.pins := rfl
@[simp] theorem advanceCursor_vreg (s : State) : (s.advanceCursor).vreg = s.vreg := rfl
@[simp] theorem advanceCursor_fast (s : State) : (s.advanceCursor).fast = s.fast := rfl
@[simp] theorem advanceCursor_by32 (s : State) : (s.advanceCursor).by32 = s.by32 := rfl
@[simp] theorem advanceCursor_defer (s : State) : (s.advanceCursor).defer = s.defer := rfl
@[simp] theorem advanceCursor_busy (s : State) : (s.advanceCursor).busy = s.busy := rfl
@[simp] theorem advanceCursor_phase (s : State) : (s.advanceCursor).phase = s.phase := rfl
@[simp] theorem advanceCursor_pos (s : State) : (s.advanceCursor).pos = s.pos := rfl
@[simp] theorem advanceCursor_snap (s : State) : (s.advanceCursor).snap = s.snap := rfl
@[simp] theorem advanceCursor_lut (s : State) : (s.advanceCursor).lut = s.lut := rfl
@[simp] theorem advanceCursor_fidx (s : State) : (s.advanceCursor).fidx = BitVec.ofNat 16 (advance s.cfg.frameCount s.cfg.pingPong s.fidx.toNat s.dir).1 := rfl
@[simp] theorem advanceCursor_dir (s : State) : (s.advanceCursor).dir = (advance s.cfg.frameCount s.cfg.pingPong s.fidx.toNat s.dir).2 := rfl
@[simp] theorem advanceCursor_tmp (s : State) : (s.advanceCursor).tmp = s.tmp := rfl
@[simp] theorem advanceCursor_pending (s : State) : (s.advanceCursor).pending = s.pending := rfl
@[simp] theorem advanceCursor_port (s : State) : (s.advanceCursor).port = s.port := rfl
@[simp] theorem advanceCursor_hist (s : State) : (s.advanceCursor).hist = s.hist := rfl
@[simp] theorem advanceCursor_offers (s : State) : (s.advanceCursor).offers = s.offers := rfl
@[simp] theorem advanceCursor_env (s : State) : (s.advanceCursor).env = s.env := rfl

@[simp] theorem complete_cfg (s : State) : (s.complete).cfg = s.cfg := rfl
@[simp] theorem complete_pins (s : State) : (s.complete).pins = s.pins := rfl
@[simp] theorem complete_vreg (s : State) : (s.complete).vreg = s.vreg := rfl
@[simp] theorem complete_fast (s : State) : (s.complete).fast = s.fast := rfl
@[simp] theorem complete_by32 (s : State) : (s.complete).by32 = s.by32 := rfl
@[simp] theorem complete_defer (s : State) : (s.complete).defer = s.defer := rfl
@[simp] theorem complete_busy (s : State) : (s.complete).busy = false := rfl
@[simp] theorem complete_phase (s : State) : (s.complete).phase = .idle := rfl
@[simp] theorem complete_pos (s : State) : (s.complete).pos = s.pos := rfl
@[simp] theorem complete_snap (s : State) : (s.complete).snap = s.snap := rfl
@[simp] theorem complete_lut (s : State) : (s.complete).lut = s.lut := rfl
@[simp] theorem complete_fidx (s : State) : (s.complete).fidx = s.fidx := rfl
@[simp] theorem complete_dir (s : State) : (s.complete).dir = s.dir := rfl
@[simp] theorem complete_tmp (s : State) : (s.complete).tmp = s.tmp := rfl
@[simp] theorem complete_pending (s : State) : (s.complete).pending = [] := rfl
@[simp] theorem complete_port (s : State) : (s.complete).port = s.port := rfl
@[simp] theorem complete_hist (s : State) : (s.complete).hist = s.hist := rfl
@[simp] theorem complete_offers (s : State) : (s.complete).offers = s.offers := rfl
@[simp] theorem complete_env (s : State) : (s.complete).env = s.env := rfl

@[simp] theorem loadVreg_cfg (s : State) (x : Vec) : (s.loadVreg x).cfg = s.cfg := rfl
@[simp] theorem loadVreg_pins (s : State) (x : Vec) : (s.loadVreg x).pins = s.pins := rfl
@[simp] theorem loadVreg_vreg (s : State) (x : Vec) : (s.loadVreg x).vreg = maskVec s.cfg x := rfl
@[simp] theorem loadVreg_fast (s : State) (x : Vec) : (s.loadVreg x).fast = s.fast := rfl
@[simp] theorem loadVreg_by32 (s : State) (x : Vec) : (s.loadVreg x).by32 = s.by32 := rfl
@[simp] theorem loadVreg_defer (s : State) (x : Vec) : (s.loadVreg x).defer = s.defer := rfl
@[simp] theorem loadVreg_busy (s : State) (x : Vec) : (s.loadVreg x).busy = s.busy := rfl
@[simp] theorem loadVreg_phase (s : State) (x : Vec) : (s.loadVreg x).phase = s.phase := rfl
@[simp] theorem loadVreg_pos (s : State) (x : Vec) : (s.loadVreg x).pos = s.pos := rfl
@[simp] theorem loadVreg_snap (s : State) (x : Vec) : (s.loadVreg x).snap = s.snap := rfl
@[simp] theorem loadVreg_lut (s : State) (x : Vec) : (s.loadVreg x).lut = s.lut := rfl
@[simp] theorem loadVreg_fidx (s : State) (x : Vec) : (s.loadVreg x).fidx = s.fidx := rfl
@[simp] theorem loadVreg_dir (s : State) (x : Vec) : (s.loadVreg x).dir = s.dir := rfl
@[simp] theorem loadVreg_tmp (s : State) (x : Vec) : (s.loadVreg x).tmp = s.tmp := rfl
@[simp] theorem loadVreg_pending (s : State) (x : Vec) : (s.loadVreg x).pending = s.pending := rfl
@[simp] theorem loadVreg_port (s : State) (x : Vec) : (s.loadVreg x).port = s.port := rfl
@[simp] theorem loadVreg_hist (s : State) (x : Vec) : (s.loadVreg x).hist = s.hist := rfl
@[simp] theorem loadVreg_offers (s : State) (x : Vec) : (s.loadVreg x).offers = s.offers := rfl
@[simp] theorem loadVreg_env (s : State) (x : Vec) : (s.loadVreg x).env = s.env := rfl

@[simp] theorem setFast_cfg (s : State) (v : Bool) : (s.setFast v).cfg = s.cfg := rfl
@[simp] theorem setFast_pins (s : State) (v : Bool) : (s.setFast v).pins = s.pins := rfl
@[simp] theorem setFast_vreg (s : State) (v : Bool) : (s.setFast v).vreg = s.vreg := rfl
@[simp] theorem setFast_fast (s : State) (v : Bool) : (s.setFast v).fast = v := rfl
@[simp] theorem setFast_by32 (s : State) (v : Bool) : (s.setFast v).by32 = s.by32 := rfl
@[simp] theorem setFast_defer (s : State) (v : Bool) : (s.setFast v).defer = s.defer := rfl
@[simp] theorem setFast_busy (s : State) (v : Bool) : (s.setFast v).busy = s.busy := rfl
@[simp] theorem setFast_phase (s : State) (v : Bool) : (s.setFast v).phase = s.phase := rfl
@[simp] theorem setFast_pos (s : State) (v : Bool) : (s.setFast v).pos = s.pos := rfl
@[simp] theorem setFast_snap (s : State) (v : Bool) : (s.setFast v).snap = s.snap := rfl
@[simp] theorem setFast_lut (s : State) (v : Bool) : (s.setFast v).lut = s.lut := rfl
@[simp] theorem setFast_fidx (s : State) (v : Bool) : (s.setFast v).fidx = s.fidx := rfl
@[simp] theorem setFast_dir (s : State) (v : Bool) : (s.setFast v).dir = s.dir := rfl
@[simp] theorem setFast_tmp (s : State) (v : Bool) : (s.setFast v).tmp = s.tmp := rfl
@[simp] theorem setFast_pending (s : State) (v : Bool) : (s.setFast v).pending = s.pending := rfl
@[simp] theorem setFast_port (s : State) (v : Bool) : (s.setFast v).port = s.port := rfl
@[simp] theorem setFast_hist (s : State) (v : Bool) : (s.setFast v).hist = s.hist := rfl
@[simp] theorem setFast_offers (s : State) (v : Bool) : (s.setFast v).offers = s.offers := rfl
@[simp] theorem setFast_env (s : State) (v : Bool) : (s.setFast v).env = s.env := rfl

@[simp] theorem setBy32_cfg (s : State) (v : Bool) : (s.setBy32 v).cfg = s.cfg := rfl
@[simp] theorem setBy32_pins (s : State) (v : Bool) : (s.setBy32 v).pins = s.pins := rfl
@[simp] theorem setBy32_vreg (s : State) (v : Bool) : (s.setBy32 v).vreg = s.vreg := rfl
@[simp] theorem setBy32_fast (s : State) (v : Bool) : (s.setBy32 v).fast = s.fast := rfl
@[simp] theorem setBy32_by32 (s : State) (v : Bool) : (s.setBy32 v).by32 = v := rfl
@[simp] theorem setBy32_defer (s : State) (v : Bool) : (s.setBy32 v).defer = s.defer := rfl
@[simp] theorem setBy32_busy (s : State) (v : Bool) : (s.setBy32 v).busy = s.busy := rfl
@[simp] theorem setBy32_phase (s : State) (v : Bool) : (s.setBy32 v).phase = s.phase := rfl
@[simp] theorem setBy32_pos (s : State) (v : Bool) : (s.setBy32 v).pos = s.pos := rfl
@[simp] theorem setBy32_snap (s : State) (v : Bool) : (s.setBy32 v).snap = s.snap := rfl
@[simp] theorem setBy32_lut (s : State) (v : Bool) : (s.setBy32 v).lut = s.lut := rfl
@[simp] theorem setBy32_fidx (s : State) (v : Bool) : (s.setBy32 v).fidx = s.fidx := rfl
@[simp] theorem setBy32_dir (s : State) (v : Bool) : (s.setBy32 v).dir = s.dir := rfl
@[simp] theorem setBy32_tmp (s : State) (v : Bool) : (s.setBy32 v).tmp = s.tmp := rfl
@[simp] theorem setBy32_pending (s : State) (v : Bool) : (s.setBy32 v).pending = s.pending := rfl
@[simp] theorem setBy32_port (s : State) (v : Bool) : (s.setBy32 v).port = s.port := rfl
@[simp] theorem setBy32_hist (s : State) (v : Bool) : (s.setBy32 v).hist = s.hist := rfl
@[simp] theorem setBy32_offers (s : State) (v : Bool) : (s.setBy32 v).offers = s.offers := rfl
@[simp] theorem setBy32_env (s : State) (v : Bool) : (s.setBy32 v).env = s.env := rfl

@[simp] theorem setDefer_cfg (s : State) (v : Bool) : (s.setDefer v).cfg = s.cfg := rfl
@[simp] theorem setDefer_pins (s : State) (v : Bool) : (s.setDefer v).pins = s.pins := rfl
@[simp] theorem setDefer_vreg (s : State) (v : Bool) : (s.setDefer v).vreg = s.vreg := rfl
@[simp] theorem setDefer_fast (s : State) (v : Bool) : (s.setDefer v).fast = s.fast := rfl
@[simp] theorem setDefer_by32 (s : State) (v : Bool) : (s.setDefer v).by32 = s.by32 := rfl
@[simp] theorem setDefer_defer (s : State) (v : Bool) : (s.setDefer v).defer = v := rfl
@[simp] theorem setDefer_busy (s : State) (v : Bool) : (s.setDefer v).busy = s.busy := rfl
@[simp] theorem setDefer_phase (s : State) (v : Bool) : (s.setDefer v).phase = s.phase := rfl
@[simp] theorem setDefer_pos (s : State) (v : Bool) : (s.setDefer v).pos = s.pos := rfl
@[simp] theorem setDefer_snap (s : State) (v : Bool) : (s.setDefer v).snap = s.snap := rfl
@[simp] theorem setDefer_lut (s : State) (v : Bool) : (s.setDefer v).lut = s.lut := rfl
@[simp] theorem setDefer_fidx (s : State) (v : Bool) : (s.setDefer v).fidx = s.fidx := rfl
@[simp] theorem setDefer_dir (s : State) (v : Bool) : (s.setDefer v).dir = s.dir := rfl
@[simp] theorem setDefer_tmp (s : State) (v : Bool) : (s.setDefer v).tmp = s.tmp := rfl
@[simp] theorem setDefer_pending (s : State) (v : Bool) : (s.setDefer v).pending = s.pending := rfl
@[simp] theorem setDefer_port (s : State) (v : Bool) : (s.setDefer v).port = s.port := rfl
@[simp] theorem setDefer_hist (s : State) (v : Bool) : (s.setDefer v).hist = s.hist := rfl
@[simp] theorem setDefer_offers (s : State) (v : Bool) : (s.setDefer v).offers = s.offers := rfl
@[simp] theorem setDefer_env (s : State) (v : Bool) : (s.setDefer v).env = s.env := rfl

@[simp] theorem envRead_cfg (s : State) (r : RegId) : (envRead r s).cfg = s.cfg := rfl
@[simp] theorem envRead_pins (s : State) (r : RegId) : (envRead r s).pins = s.pins := rfl
@[simp] theorem envRead_vreg (s : State) (r : RegId) : (envRead r s).vreg = s.vreg := rfl
@[simp] theorem envRead_fast (s : State) (r : RegId) : (envRead r s).fast = s.fast := rfl
@[simp] theorem envRead_by32 (s : State) (r : RegId) : (envRead r s).by32 = s.by32 := rfl
@[simp] theorem envRead_defer (s : State) (r : RegId) : (envRead r s).defer = s.defer := rfl
@[simp] theorem envRead_busy (s : State) (r : RegId) : (envRead r s).busy = s.busy := rfl
@[simp] theorem envRead_phase (s : State) (r : RegId) : (envRead r s).phase = s.phase := rfl
@[simp] theorem envRead_pos (s : State) (r : RegId) : (envRead r s).pos = s.pos := rfl
@[simp] theorem envRead_snap (s : State) (r : RegId) : (envRead r s).snap = s.snap := rfl
@[simp] theorem envRead_lut (s : State) (r : RegId) : (envRead r s).lut = s.lut := rfl
@[simp] theorem envRead_fidx (s : State) (r : RegId) : (envRead r s).fidx = s.fidx := rfl
@[simp] theorem envRead_dir (s : State) (r : RegId) : (envRead r s).dir = s.dir := rfl
@[simp] theorem envRead_tmp (s : State) (r : RegId) : (envRead r s).tmp = s.tmp := rfl
@[simp] theorem envRead_pending (s : State) (r : RegId) : (envRead r s).pending = s.pending := rfl
@[simp] theorem envRead_port (s : State) (r : RegId) : (envRead r s).port = s.port := rfl
@[simp] theorem envRead_hist (s : State) (r : RegId) : (envRead r s).hist = (.environment, .rd r (s.port.read r)) :: s.hist := rfl
@[simp] theorem envRead_offers (s : State) (r : RegId) : (envRead r s).offers = s.offers := rfl
@[simp] theorem envRead_env (s : State) (r : RegId) : (envRead r s).env = s.env := rfl

@[simp] theorem envWrite_cfg (s : State) (r : RegId) (b : Byte) : (envWrite r b s).cfg = s.cfg := rfl
@[simp] theorem envWrite_pins (s : State) (r : RegId) (b : Byte) : (envWrite r b s).pins = s.pins := rfl
@[simp] theorem envWrite_vreg (s : State) (r : RegId) (b : Byte) : (envWrite r b s).vreg = s.vreg := rfl
@[simp] theorem envWrite_fast (s : State) (r : RegId) (b : Byte) : (envWrite r b s).fast = s.fast := rfl
@[simp] theorem envWrite_by32 (s : State) (r : RegId) (b : Byte) : (envWrite r b s).by32 = s.by32 := rfl
@[simp] theorem envWrite_defer (s : State) (r : RegId) (b : Byte) : (envWrite r b s).defer = s.defer := rfl
@[simp] theorem envWrite_busy (s : State) (r : RegId) (b : Byte) : (envWrite r b s).busy = s.busy := rfl
@[simp] theorem envWrite_phase (s : State) (r : RegId) (b : Byte) : (envWrite r b s).phase = s.phase := rfl
@[simp] theorem envWrite_pos (s : State) (r : RegId) (b : Byte) : (envWrite r b s).pos = s.pos := rfl
@[simp] theorem envWrite_snap (s : State) (r : RegId) (b : Byte) : (envWrite r b s).snap = s.snap := rfl
@[simp] theorem envWrite_lut (s : State) (r : RegId) (b : Byte) : (envWrite r b s).lut = s.lut := rfl
@[simp] theorem envWrite_fidx (s : State) (r : RegId) (b : Byte) : (envWrite r b s).fidx = s.fidx := rfl
@[simp] theorem envWrite_dir (s : State) (r : RegId) (b : Byte) : (envWrite r b s).dir = s.dir := rfl
@[simp] theorem envWrite_tmp (s : State) (r : RegId) (b : Byte) : (envWrite r b s).tmp = s.tmp := rfl
@[simp] theorem envWrite_pending (s : State) (r : RegId) (b : Byte) : (envWrite r b s).pending = s.pending := rfl
@[simp] theorem envWrite_port (s : State) (r : RegId) (b : Byte) : (envWrite r b s).port = s.port.write r b := rfl
@[simp] theorem envWrite_hist (s : State) (r : RegId) (b : Byte) : (envWrite r b s).hist = (.environment, .wr r b) :: s.hist := rfl
@[simp] theorem envWrite_offers (s : State) (r : RegId) (b : Byte) : (envWrite r b s).offers = s.offers := rfl
@[simp] theorem envWrite_env (s : State) (r : RegId) (b : Byte) : (envWrite r b s).env = s.env := rfl

@[simp] theorem applyReset_cfg (s : State) (cfg : Config) : (applyReset cfg s).cfg = cfg := rfl
@[simp] theorem applyReset_pins (s : State) (cfg : Config) : (applyReset cfg s).pins = resolvePins cfg := rfl
@[simp] theorem applyReset_vreg (s : State) (cfg : Config) : (applyReset cfg s).vreg = 0#104 := rfl
@[simp] theorem applyReset_fast (s : State) (cfg : Config) : (applyReset cfg s).fast = cfg.rstFast := rfl
@[simp] theorem applyReset_by32 (s : State) (cfg : Config) : (applyReset cfg s).by32 = false := rfl
@[simp] theorem applyReset_defer (s : State) (cfg : Config) : (applyReset cfg s).defer = false := rfl
@[simp] theorem applyReset_busy (s : State) (cfg : Config) : (applyReset cfg s).busy = false := rfl
@[simp] theorem applyReset_phase (s : State) (cfg : Config) : (applyReset cfg s).phase = .idle := rfl
@[simp] theorem applyReset_pos (s : State) (cfg : Config) : (applyReset cfg s).pos = 0 := rfl
@[simp] theorem applyReset_snap (s : State) (cfg : Config) : (applyReset cfg s).snap = [] := rfl
@[simp] theorem applyReset_lut (s : State) (cfg : Config) : (applyReset cfg s).lut = [] := rfl
@[simp] theorem applyReset_fidx (s : State) (cfg : Config) : (applyReset cfg s).fidx = 0#16 := rfl
@[simp] theorem applyReset_dir (s : State) (cfg : Config) : (applyReset cfg s).dir = .forward := rfl
@[simp] theorem applyReset_tmp (s : State) (cfg : Config) : (applyReset cfg s).tmp = 0#8 := rfl
@[simp] theorem applyReset_pending (s : State) (cfg : Config) : (applyReset cfg s).pending = [] := rfl
@[simp] theorem applyReset_port (s : State) (cfg : Config) : (applyReset cfg s).port = s.port := rfl
@[simp] theorem applyReset_hist (s : State) (cfg : Config) : (applyReset cfg s).hist = s.hist := rfl
@[simp] theorem applyReset_offers (s : State) (cfg : Config) : (applyReset cfg s).offers = s.offers := rfl
@[simp] theorem applyReset_env (s : State) (cfg : Config) : (applyReset cfg s).env = s.env := rfl

end Sys2Proof.Machine
end

