-- ==== Sys2Proof/Laws/Cursor.lean ====
section
/-! SUPPORT. The cursor's step stays inside the tables (R191). -/

namespace Sys2Proof.Machine

open Sys2Proof

/-- ADVANCE of a cursor inside a table of `n` frames is inside it. -/
theorem advance_lt {n idx : Nat} (pp : Bool) (dir : Dir) (h : idx < n) : (advance n pp idx dir).1 < n := by
  unfold advance
  split_ifs with h1 h2
  · unfold overrun
    split <;> simp <;> omega
  · unfold underrun
    split <;> simp <;> omega
  · cases dir <;> simp only [cursorTarget] at * <;> omega

/-- The cursor's new value is ADVANCE's, the table having at most 65535 frames (R4). -/
theorem advanceCursor_toNat {s : State} (hn : s.cfg.frameCount ≤ 65535) (h : s.fidx.toNat < s.cfg.frameCount) :
    s.advanceCursor.fidx.toNat = (advance s.cfg.frameCount s.cfg.pingPong s.fidx.toNat s.dir).1 := by
  have := advance_lt s.cfg.pingPong s.dir h
  rw [advanceCursor_fidx, BitVec.toNat_ofNat, Nat.mod_eq_of_lt (by omega)]

/-- The cursor invariant is kept. -/
theorem advanceCursor_lt {s : State} (h : s.fidx.toNat < s.cfg.frameCount) :
    s.advanceCursor.fidx.toNat < s.cfg.frameCount := by
  rw [advanceCursor_fidx, BitVec.toNat_ofNat]
  exact lt_of_le_of_lt (Nat.mod_le _ _) (advance_lt _ _ h)

end Sys2Proof.Machine
end

