-- ==== Sys2Proof/Laws/Encoding.lean ====
section
/-! SUPPORT. The fields of a command word that the encoder builds. -/

namespace Sys2Proof

theorem commandWord_getLsbD (op : Byte) (p : Vec) (i : Nat) :
    (commandWord op p).getLsbD i = (decide (i < 112) && (if i < 104 then p.getLsbD i else op.getLsbD (i - 104))) := by
  rw [commandWord, BitVec.getLsbD_or, BitVec.getLsbD_shiftLeft, BitVec.getLsbD_setWidth, BitVec.getLsbD_setWidth]
  by_cases h : i < 104
  · simp [h, show i < 112 by omega]
  · have hp : p.getLsbD i = false := BitVec.getLsbD_of_ge _ _ (by omega)
    rw [hp]
    by_cases h' : i < 112
    · simp [h, h', show i - 104 < 112 by omega]
    · simp [h']

@[simp] theorem opOf_commandWord (op : Byte) (p : Vec) : opOf (commandWord op p) = op := by
  apply BitVec.eq_of_getLsbD_eq
  intro i hi
  rw [opOf, BitVec.getLsbD_extractLsb', commandWord_getLsbD]
  simp [hi, show 104 + i < 112 by omega]

@[simp] theorem payloadOf_commandWord (op : Byte) (p : Vec) : payloadOf (commandWord op p) = p := by
  apply BitVec.eq_of_getLsbD_eq
  intro i hi
  rw [payloadOf, BitVec.getLsbD_extractLsb', commandWord_getLsbD]
  simp [hi, show i < 112 by omega]

/-- A word is its opcode and its payload. -/
theorem commandWord_of_fields (w : CmdWord) : commandWord (opOf w) (payloadOf w) = w := by
  apply BitVec.eq_of_getLsbD_eq
  intro i hi
  rw [commandWord_getLsbD, opOf, payloadOf, BitVec.getLsbD_extractLsb', BitVec.getLsbD_extractLsb']
  by_cases h : i < 104
  · simp [h, hi]
  · simp [h, hi, show i - 104 < 8 by omega, show 104 + (i - 104) = i by omega]

@[simp] theorem opOf_extract_high (n : Nat) (h : n < 16) : (0x10#8 ||| BitVec.ofNat 8 n).extractLsb' 4 4 = 1#4 := by
  interval_cases n <;> decide

@[simp] theorem opOf_extract_low (n : Nat) (h : n < 16) :
    ((0x10#8 ||| BitVec.ofNat 8 n).extractLsb' 0 4).toNat = n := by
  interval_cases n <;> decide

/-- The bytes of a packed payload are the bytes packed into it. -/
theorem payloadByte_packBytes (bs : List Byte) (k : Nat) (h : k < 13) :
    payloadByte (packBytes bs) k = bs.getD k 0#8 := by
  apply BitVec.eq_of_getLsbD_eq
  intro i hi
  rw [payloadByte_getLsbD, packBytes_getLsbD]
  simp [hi, show 8 * k + i < 104 by omega, show (8 * k + i) / 8 = k by omega, show (8 * k + i) % 8 = i by omega]

theorem flagPayload_getLsbD_zero (v : Bool) : (flagPayload v).getLsbD 0 = v := by
  cases v <;> decide

theorem payloadByte_zero_setWidth (b : Byte) : payloadByte (b.zeroExtend 104) 0 = b := by
  apply BitVec.eq_of_getLsbD_eq
  intro i hi
  rw [payloadByte_getLsbD, BitVec.getLsbD_setWidth]
  simp [hi, show i < 104 by omega]

end Sys2Proof
end

