-- ==== Sys2Proof/Laws/Memory.lean ====
section
/-! SUPPORT. The laws of the byte-register store: a read after a write, the canonical form is kept, and equal contents are equal
lists. -/

namespace Sys2Proof.Machine

open Sys2Proof

@[simp] theorem Memory.read_nil (a : Nat) : Memory.read [] a = Memory.unlisted := rfl

theorem Memory.read_cons (k : Nat) (x : Byte) (m : Memory) (a : Nat) :
    Memory.read ((k, x) :: m) a = if k = a then x else Memory.read m a := rfl

theorem Memory.wfFrom_cons (lo k : Nat) (x : Byte) (m : Memory) :
    Memory.wfFrom lo ((k, x) :: m) = true ↔ lo ≤ k ∧ x ≠ Memory.unlisted ∧ Memory.wfFrom (k + 1) m = true := by
  simp [Memory.wfFrom, and_assoc]

@[simp] theorem Memory.wfFrom_nil (lo : Nat) : Memory.wfFrom lo [] = true := rfl

theorem Memory.wfFrom_mono {m : Memory} {lo lo' : Nat} (h : lo ≤ lo') (hm : Memory.wfFrom lo' m = true) :
    Memory.wfFrom lo m = true := by
  cases m with
  | nil => rfl
  | cons e m =>
    rw [Memory.wfFrom_cons] at hm ⊢
    exact ⟨h.trans hm.1, hm.2⟩

/-- A key below every listed one reads as unlisted. -/
theorem Memory.read_below {m : Memory} {lo a : Nat} (hm : Memory.wfFrom lo m = true) (ha : a < lo) :
    Memory.read m a = Memory.unlisted := by
  induction m generalizing lo with
  | nil => rfl
  | cons e m ih =>
    obtain ⟨hk, -, htail⟩ := (Memory.wfFrom_cons ..).1 hm
    rw [Memory.read_cons, if_neg (by omega)]
    exact ih htail (by omega)

theorem Memory.write_wfFrom {m : Memory} {lo a : Nat} (v : Byte) (hm : Memory.wfFrom lo m = true) (ha : lo ≤ a) :
    Memory.wfFrom lo (Memory.write m a v) = true := by
  induction m generalizing lo with
  | nil =>
    unfold Memory.write
    split
    · rfl
    · simp [Memory.wfFrom_cons, *]
  | cons e m ih =>
    obtain ⟨k, x⟩ := e
    obtain ⟨hk, hx, htail⟩ := (Memory.wfFrom_cons ..).1 hm
    unfold Memory.write
    split_ifs
    · exact hm
    · simp only [Memory.wfFrom_cons]
      exact ⟨ha, ‹_›, by omega, hx, htail⟩
    · exact Memory.wfFrom_mono (by omega) htail
    · exact (Memory.wfFrom_cons ..).2 ⟨hk, ‹_›, htail⟩
    · exact (Memory.wfFrom_cons ..).2 ⟨hk, hx, ih htail (by omega)⟩

/-- Writing keeps the canonical form. -/
theorem Memory.write_wf {m : Memory} (hm : m.wf = true) (a : Nat) (v : Byte) : (m.write a v).wf = true :=
  Memory.write_wfFrom v hm (Nat.zero_le a)

theorem Memory.read_write_from {m : Memory} {lo : Nat} (hm : Memory.wfFrom lo m = true) (a a' : Nat) (v : Byte) :
    Memory.read (Memory.write m a v) a' = if a = a' then v else Memory.read m a' := by
  induction m generalizing lo with
  | nil =>
    unfold Memory.write
    split_ifs <;> simp_all [Memory.read_cons]
  | cons e m ih =>
    obtain ⟨k, x⟩ := e
    obtain ⟨hk, hx, htail⟩ := (Memory.wfFrom_cons ..).1 hm
    have hbelow : a < k + 1 → Memory.read m a = Memory.unlisted := fun h => Memory.read_below htail h
    unfold Memory.write
    split_ifs <;> (try simp only [Memory.read_cons, ih htail]) <;> (try split_ifs) <;>
      first
        | rfl
        | omega
        | (subst_vars; simp_all; done)
        | (subst_vars; simp_all; exact Memory.read_below htail (by omega))

/-- A read after a write gives the value written at its key, and what was there before at every other. -/
theorem Memory.read_write {m : Memory} (hm : m.wf = true) (a a' : Nat) (v : Byte) :
    (m.write a v).read a' = if a = a' then v else m.read a' :=
  Memory.read_write_from hm a a' v

theorem Memory.ext_from {m m' : Memory} {lo : Nat} (hm : Memory.wfFrom lo m = true) (hm' : Memory.wfFrom lo m' = true)
    (h : ∀ a, Memory.read m a = Memory.read m' a) : m = m' := by
  induction m generalizing m' lo with
  | nil =>
    cases m' with
    | nil => rfl
    | cons e m' =>
      obtain ⟨k, x⟩ := e
      have := h k
      rw [Memory.read_nil, Memory.read_cons, if_pos rfl] at this
      exact absurd this.symm ((Memory.wfFrom_cons ..).1 hm').2.1
  | cons e m ih =>
    obtain ⟨k, x⟩ := e
    obtain ⟨hk, hx, htail⟩ := (Memory.wfFrom_cons ..).1 hm
    cases m' with
    | nil =>
      have := h k
      rw [Memory.read_nil, Memory.read_cons, if_pos rfl] at this
      exact absurd this hx
    | cons e' m' =>
      obtain ⟨k', x'⟩ := e'
      obtain ⟨hk', hx', htail'⟩ := (Memory.wfFrom_cons ..).1 hm'
      have hkey : k = k' := by
        rcases Nat.lt_trichotomy k k' with hlt | heq | hgt
        · have := h k
          rw [Memory.read_cons, Memory.read_cons, if_pos rfl, if_neg (by omega),
            Memory.read_below htail' (by omega)] at this
          exact absurd this hx
        · exact heq
        · have := h k'
          rw [Memory.read_cons, Memory.read_cons, if_neg (by omega), if_pos rfl,
            Memory.read_below htail (by omega)] at this
          exact absurd this.symm hx'
      have hval : x = x' := by
        have := h k
        rwa [Memory.read_cons, Memory.read_cons, if_pos rfl, if_pos hkey.symm] at this
      have htl : m = m' := by
        refine ih htail (hkey ▸ htail') fun a => ?_
        by_cases ha : k = a
        · rw [← ha, Memory.read_below htail (by omega), Memory.read_below htail' (by omega)]
        · have := h a
          rwa [Memory.read_cons, Memory.read_cons, if_neg ha, if_neg (by omega)] at this
      rw [hkey, hval, htl]

/-- In canonical form, equal contents are equal lists. -/
theorem Memory.ext {m m' : Memory} (hm : m.wf = true) (hm' : m'.wf = true) (h : ∀ a, m.read a = m'.read a) : m = m' :=
  Memory.ext_from hm hm' h

/-- Writing the byte already there changes nothing (R59). -/
theorem Memory.write_read_self {m : Memory} (hm : m.wf = true) (a : Nat) : m.write a (m.read a) = m :=
  Memory.ext (Memory.write_wf hm ..) hm fun a' => by
    rw [Memory.read_write hm]
    split_ifs with h
    · rw [h]
    · rfl

/-- Writes at different keys commute. -/
theorem Memory.write_comm {m : Memory} (hm : m.wf = true) {a a' : Nat} (v v' : Byte) (h : a ≠ a') :
    (m.write a v).write a' v' = (m.write a' v').write a v := by
  have w1 := Memory.write_wf hm a v
  have w2 := Memory.write_wf hm a' v'
  refine Memory.ext (Memory.write_wf w1 ..) (Memory.write_wf w2 ..) fun b => ?_
  rw [Memory.read_write w1, Memory.read_write hm, Memory.read_write w2, Memory.read_write hm]
  split_ifs with h1 h2 <;> first | rfl | omega

@[simp] theorem Memory.wf_nil : Memory.wf [] = true := rfl

end Sys2Proof.Machine
end

