-- ==== Sys2Proof/Laws/Run.lean ====
section
/-! SUPPORT. What one turn of the engine can change, and what the run loop does with a command's turns. -/

namespace Sys2Proof.Machine

open Sys2Proof

/-! ### One operation -/

@[simp] theorem doOp_cfg (s : State) (op : Op) : (s.doOp op).cfg = s.cfg := by cases op <;> rfl
@[simp] theorem doOp_pins (s : State) (op : Op) : (s.doOp op).pins = s.pins := by cases op <;> rfl
@[simp] theorem doOp_vreg (s : State) (op : Op) : (s.doOp op).vreg = s.vreg := by cases op <;> rfl
@[simp] theorem doOp_fast (s : State) (op : Op) : (s.doOp op).fast = s.fast := by cases op <;> rfl
@[simp] theorem doOp_by32 (s : State) (op : Op) : (s.doOp op).by32 = s.by32 := by cases op <;> rfl
@[simp] theorem doOp_defer (s : State) (op : Op) : (s.doOp op).defer = s.defer := by cases op <;> rfl
@[simp] theorem doOp_busy (s : State) (op : Op) : (s.doOp op).busy = s.busy := by cases op <;> rfl
@[simp] theorem doOp_phase (s : State) (op : Op) : (s.doOp op).phase = s.phase := by cases op <;> rfl
@[simp] theorem doOp_pos (s : State) (op : Op) : (s.doOp op).pos = s.pos := by cases op <;> rfl
@[simp] theorem doOp_pending (s : State) (op : Op) : (s.doOp op).pending = s.pending := by cases op <;> rfl
@[simp] theorem doOp_offers (s : State) (op : Op) : (s.doOp op).offers = s.offers := by cases op <;> rfl
@[simp] theorem doOp_env (s : State) (op : Op) : (s.doOp op).env = s.env := by cases op <;> rfl

/-- The event that an operation emits, none where a wait ends. -/
def opEvent (s : State) : Op → Option Event
  | .pinRead x => some (.rd (regOf s.pins x) (s.port.read (regOf s.pins x)))
  | .pinWrite x v => some (.wr (regOf s.pins x) (pinByte s.pins x v s.tmp))
  | .delay => some .dly
  | .snapshot r => some (.rd r (s.port.read r))
  | .table r a b => some (.wr r (s.lut.read (lutKey r a b)))
  | .clkHigh a b => some (.wr (regOf s.pins .c) (s.lut.read (lutKey (regOf s.pins .c) a b) ||| lineMask s.pins .c))
  | .pwm level => some (.pwm level)
  | .hold n => some (.waitMs n)
  | .advance => none

/-- PORT after an event: only a `WR` changes it (R51, R59). -/
def portAfter (m : Memory) : Event → Memory
  | .wr r b => m.write r b
  | .rd _ _ => m
  | .dly => m
  | .waitMs _ => m
  | .pwm _ => m

/-- Every operation but the end of a wait has an event. -/
theorem opEvent_isSome (s : State) (op : Op) : (opEvent s op).isSome = decide (op ≠ .advance) := by
  cases op <;> simp [opEvent]

/-- An operation adds its event, and nothing else, to the history (R10). -/
theorem doOp_hist (s : State) (op : Op) : (s.doOp op).hist = (opEvent s op).toList.map (Agent.engine, ·) ++ s.hist := by
  cases op <;> rfl

theorem doOp_port (s : State) (op : Op) : (s.doOp op).port = (opEvent s op).elim s.port (portAfter s.port) := by
  cases op <;> rfl

/-- Only the end of a wait moves the cursor. -/
theorem doOp_cursor (s : State) (op : Op) (h : op ≠ .advance) :
    (s.doOp op).fidx = s.fidx ∧ (s.doOp op).dir = s.dir := by
  cases op with
  | advance => exact absurd rfl h
  | hold => exact ⟨rfl, rfl⟩
  | pinRead => exact ⟨rfl, rfl⟩
  | pinWrite => exact ⟨rfl, rfl⟩
  | delay => exact ⟨rfl, rfl⟩
  | snapshot => exact ⟨rfl, rfl⟩
  | table => exact ⟨rfl, rfl⟩
  | clkHigh => exact ⟨rfl, rfl⟩
  | pwm => exact ⟨rfl, rfl⟩

/-- Only a snapshot writes SNAP and LUT. -/
theorem doOp_tables (s : State) (op : Op) (h : ∀ r, op ≠ .snapshot r) :
    (s.doOp op).snap = s.snap ∧ (s.doOp op).lut = s.lut := by
  cases op with
  | snapshot r => exact absurd rfl (h r)
  | pinRead => exact ⟨rfl, rfl⟩
  | pinWrite => exact ⟨rfl, rfl⟩
  | delay => exact ⟨rfl, rfl⟩
  | hold => exact ⟨rfl, rfl⟩
  | advance => exact ⟨rfl, rfl⟩
  | table => exact ⟨rfl, rfl⟩
  | clkHigh => exact ⟨rfl, rfl⟩
  | pwm => exact ⟨rfl, rfl⟩

theorem portAfter_wf {m : Memory} (h : m.wf = true) (e : Event) : (portAfter m e).wf = true := by
  cases e <;> first | exact h | exact Memory.write_wf h ..

/-- Every byte register stays in canonical form. -/
theorem doOp_wf (s : State) (op : Op) (hp : s.port.wf = true) (hs : s.snap.wf = true) (hl : s.lut.wf = true) :
    (s.doOp op).port.wf = true ∧ (s.doOp op).snap.wf = true ∧ (s.doOp op).lut.wf = true := by
  refine ⟨?_, ?_⟩
  · rw [doOp_port]
    cases opEvent s op with
    | none => exact hp
    | some e => exact portAfter_wf hp e
  cases op with
  | snapshot r =>
    exact ⟨Memory.write_wf hs .., Memory.write_wf (Memory.write_wf (Memory.write_wf (Memory.write_wf hl ..) ..) ..) ..⟩
  | pinRead => exact ⟨hs, hl⟩
  | pinWrite => exact ⟨hs, hl⟩
  | delay => exact ⟨hs, hl⟩
  | hold => exact ⟨hs, hl⟩
  | advance => exact ⟨hs, hl⟩
  | table => exact ⟨hs, hl⟩
  | clkHigh => exact ⟨hs, hl⟩
  | pwm => exact ⟨hs, hl⟩

theorem lutKey_injective {r r' : RegId} {a b a' b' : Bool} (h : lutKey r a b = lutKey r' a' b') :
    r = r' ∧ a = a' ∧ b = b' := by
  unfold lutKey at h
  cases a <;> cases b <;> cases a' <;> cases b' <;> simp_all <;> omega

/-- After the snapshot of a register its table entries are those of R125, the others as they were. -/
theorem capture_lut_read (s : State) (r : RegId) (x : Byte) (hl : s.lut.wf = true) (r' : RegId) (a b : Bool) :
    (s.capture r x).lut.read (lutKey r' a b) =
      if r' = r then lutByte s.pins r x a b else s.lut.read (lutKey r' a b) := by
  have w1 := Memory.write_wf hl (lutKey r false false) (lutByte s.pins r x false false)
  have w2 := Memory.write_wf w1 (lutKey r false true) (lutByte s.pins r x false true)
  have w3 := Memory.write_wf w2 (lutKey r true false) (lutByte s.pins r x true false)
  simp only [State.capture, Memory.read_write w3, Memory.read_write w2, Memory.read_write w1, Memory.read_write hl]
  by_cases hr : r' = r
  · subst hr
    cases a <;> cases b <;> simp [lutKey]
    intro h
    omega
  · have hne : ∀ a' b', lutKey r a' b' ≠ lutKey r' a b := fun a' b' h => hr (lutKey_injective h).1.symm
    simp [hne, hr]

/-! ### One act -/

@[simp] theorem perform_cfg (s : State) (act : Act) : (s.perform act).cfg = s.cfg := by simp [State.perform]
@[simp] theorem perform_pins (s : State) (act : Act) : (s.perform act).pins = s.pins := by simp [State.perform]
@[simp] theorem perform_vreg (s : State) (act : Act) : (s.perform act).vreg = s.vreg := by simp [State.perform]
@[simp] theorem perform_fast (s : State) (act : Act) : (s.perform act).fast = s.fast := by simp [State.perform]
@[simp] theorem perform_by32 (s : State) (act : Act) : (s.perform act).by32 = s.by32 := by simp [State.perform]
@[simp] theorem perform_defer (s : State) (act : Act) : (s.perform act).defer = s.defer := by simp [State.perform]
@[simp] theorem perform_busy (s : State) (act : Act) : (s.perform act).busy = s.busy := by simp [State.perform]
@[simp] theorem perform_pending (s : State) (act : Act) : (s.perform act).pending = s.pending := by simp [State.perform]
@[simp] theorem perform_offers (s : State) (act : Act) : (s.perform act).offers = s.offers := by simp [State.perform]
@[simp] theorem perform_phase (s : State) (act : Act) : (s.perform act).phase = act.phaseAfter := rfl
@[simp] theorem perform_env (s : State) (act : Act) : (s.perform act).env = elapse 1 s.env := rfl

theorem perform_pos (s : State) (act : Act) : (s.perform act).pos = act.frameEnd.getD (act.pos.getD s.pos) := by
  simp [State.perform]

/-- An act's operation sees the registers as they are: PHASE and POS enter no rule of it. -/
theorem opEvent_placed (s : State) (phase : Phase) (pos : Nat) (op : Op) :
    opEvent { s with phase := phase, pos := pos } op = opEvent s op := by
  cases op <;> rfl

theorem perform_hist (s : State) (act : Act) :
    (s.perform act).hist = (opEvent s act.op).toList.map (Agent.engine, ·) ++ s.hist := by
  simp only [State.perform]
  rw [doOp_hist, opEvent_placed]

theorem perform_port (s : State) (act : Act) :
    (s.perform act).port = (opEvent s act.op).elim s.port (portAfter s.port) := by
  simp only [State.perform]
  rw [doOp_port, opEvent_placed]

theorem perform_wf (s : State) (act : Act) (hp : s.port.wf = true) (hs : s.snap.wf = true) (hl : s.lut.wf = true) :
    (s.perform act).port.wf = true ∧ (s.perform act).snap.wf = true ∧ (s.perform act).lut.wf = true :=
  doOp_wf _ act.op hp hs hl

/-! ### The run loop -/

theorem envDue_false_of_undisturbed {s : State} {n : Nat} (h : s.undisturbed (n + 1) = true) : s.envDue = false := by
  unfold State.undisturbed at h
  unfold State.envDue
  split at h <;> simp_all
  split <;> simp_all

theorem undisturbed_perform {s : State} {n : Nat} (act : Act) (h : s.undisturbed (n + 1) = true) :
    (s.perform act).undisturbed n = true := by
  unfold State.undisturbed at *
  rw [perform_env]
  cases henv : s.env with
  | nil => rfl
  | cons e rest =>
    rw [henv] at h
    simp only [elapse, decide_eq_true_eq] at *
    omega

/-- A command that the environment leaves alone runs to its end (R154). -/
theorem engineRun_undisturbed (acts : List Act) (s : State) (h : s.undisturbed acts.length = true) :
    engineRun acts s = (acts.foldl State.perform s).complete := by
  induction acts generalizing s with
  | nil => rfl
  | cons act acts ih =>
    rw [engineRun, envDue_false_of_undisturbed h, if_neg (by simp), ih _ (undisturbed_perform act h), List.foldl_cons]

/-- Whatever the environment does, a run of the engine is some first part of the command's events: all of them, and the engine is
idle again, or fewer, and the rest is pending with the environment's turn due. -/
theorem engineRun_cases (acts : List Act) (s : State) :
    engineRun acts s = (acts.foldl State.perform s).complete ∨
      ∃ k, k < acts.length ∧ ((acts.take k).foldl State.perform s).envDue = true ∧
        engineRun acts s = { (acts.take k).foldl State.perform s with pending := acts.drop k } := by
  induction acts generalizing s with
  | nil => exact .inl rfl
  | cons act acts ih =>
    rw [engineRun]
    by_cases hdue : s.envDue = true
    · exact .inr ⟨0, by simp, by simpa using hdue, by simp [hdue]⟩
    · rw [if_neg hdue]
      obtain h | ⟨k, hk, hd, h⟩ := ih (s.perform act)
      · exact .inl h
      · exact .inr ⟨k + 1, by simpa using hk, by simpa using hd, by simpa using h⟩

/-- What is kept between the state and the acts still to come, act by act, holds where a run stops: at its end with none to come, or
where the environment's turn is due, with the rest. -/
theorem engineRun_rest {P : State → List Act → Prop} {acts : List Act} {s : State}
    (hperform : ∀ s act acts, P s (act :: acts) → P (s.perform act) acts) (hs : P s acts) :
    (∃ u, P u [] ∧ engineRun acts s = u.complete) ∨
      ∃ u rest, P u rest ∧ rest ≠ [] ∧ u.envDue = true ∧ engineRun acts s = { u with pending := rest } := by
  induction acts generalizing s with
  | nil => exact .inl ⟨s, hs, rfl⟩
  | cons act acts ih =>
    rw [engineRun]
    by_cases hdue : s.envDue = true
    · exact .inr ⟨s, act :: acts, hs, List.cons_ne_nil _ _, hdue, by simp [hdue]⟩
    · rw [if_neg hdue]
      exact ih (hperform s act acts hs)

/-- A property that every act keeps, and that the end of a command and leaving a rest pending keep, holds after a run. -/
theorem engineRun_induction {P : State → Prop} {acts : List Act} {s : State}
    (hperform : ∀ act ∈ acts, ∀ s, P s → P (s.perform act)) (hcomplete : ∀ s, P s → P s.complete)
    (hpending : ∀ s k, P s → P { s with pending := acts.drop k }) (hs : P s) : P (engineRun acts s) := by
  have hfold : ∀ l : List Act, (∀ act ∈ l, act ∈ acts) → ∀ s, P s → P (l.foldl State.perform s) := by
    intro l
    induction l with
    | nil => intro _ s h; exact h
    | cons act l ih =>
      intro hl s h
      exact ih (fun a ha => hl a (List.mem_cons_of_mem _ ha)) _ (hperform act (hl act List.mem_cons_self) s h)
  obtain h | ⟨k, _, _, h⟩ := engineRun_cases acts s
  · exact h ▸ hcomplete _ (hfold acts (fun _ h => h) s hs)
  · exact h ▸ hpending _ k (hfold _ (fun _ h => List.mem_of_mem_take h) s hs)

end Sys2Proof.Machine
end

