-- ==== Sys2Proof/Laws/Invariant.lean ====
section
/-! SUPPORT. The invariant as a check that can be evaluated, and what the position of an act does to POS. -/

namespace Sys2Proof.Machine

open Sys2Proof

/-- The invariant as a Bool. -/
def State.invCheck (s : State) : Bool :=
  configWf s.cfg && decide (s.pins = resolvePins s.cfg) && decide (maskVec s.cfg s.vreg = s.vreg) &&
    s.port.wf && s.snap.wf && s.lut.wf &&
    (decide (s.cfg.frameCount = 0) || decide (s.fidx.toNat < s.cfg.frameCount)) &&
    decide (s.pos ≤ s.cfg.nOut) && (decide (s.phase ≠ .start) || decide (s.pos ≤ 1)) &&
    (s.busy || (decide (s.phase = .idle) && s.pending.isEmpty)) && (!s.busy || !s.pending.isEmpty) &&
    waitSound s.phase s.pending && s.pending.all (actSound s.cfg s.pins) && s.env.all (fun e => envActSound e.2)

/-- The check decides the invariant in the direction that witnesses need. -/
theorem inv_of_invCheck {s : State} (h : s.invCheck = true) : s.Inv := by
  simp only [State.invCheck, Bool.and_eq_true, Bool.or_eq_true, decide_eq_true_eq, Bool.not_eq_true',
    List.isEmpty_iff, List.isEmpty_eq_false_iff] at h
  obtain ⟨⟨⟨⟨⟨⟨⟨⟨⟨⟨⟨⟨⟨h1, h2⟩, h3⟩, h4⟩, h5⟩, h6⟩, h7⟩, h8⟩, h9⟩, h10⟩, h11⟩, h14⟩, h12⟩, h13⟩ := h
  refine ⟨h1, h2, h3, h4, h5, h6, fun hn => ?_, h8, fun hp => ?_, fun hb => ?_, fun hb => ?_, h14, h12, h13⟩
  · exact h7.resolve_left (by omega)
  · exact h9.resolve_left (fun h => h hp)
  · exact h10.resolve_left (by simp [hb])
  · exact h11.resolve_left (by simp [hb])

/-- A sound act leaves POS in range, and at 0 or 1 in START (R26, R149). -/
theorem perform_pos_bound {s : State} {act : Act} (hs : actSound s.cfg s.pins act = true) (hpos : s.pos ≤ s.cfg.nOut)
    (hn : 1 ≤ s.cfg.nOut) :
    (s.perform act).pos ≤ s.cfg.nOut ∧ ((s.perform act).phase = .start → (s.perform act).pos ≤ 1) := by
  rw [perform_pos, perform_phase]
  obtain ⟨phase, pos, op, frameEnd⟩ := act
  simp only [actSound, positionSound, Bool.and_eq_true] at hs
  obtain ⟨-, ⟨⟨⟨hpl, -⟩, -⟩, hsh⟩, haf⟩ := hs
  cases phase <;> cases pos <;> cases frameEnd <;> simp_all [Act.phaseAfter] <;> omega

/-- What is still to come stays in agreement with WAIT, act by act. -/
theorem perform_waitSound {s : State} {act : Act} {acts : List Act} (h : waitSound s.phase (act :: acts) = true) :
    waitSound (s.perform act).phase acts = true := by
  simp only [waitSound, Bool.and_eq_true] at h
  exact h.2

/-- Acts that neither begin nor end a wait, put before others. -/
theorem waitSound_append {front rest : List Act} {phase : Phase} (hp : phase ≠ .wait)
    (hf : ∀ act ∈ front, act.phase ≠ .wait ∧ act.op ≠ .advance)
    (hr : ∀ phase, phase ≠ .wait → waitSound phase rest = true) : waitSound phase (front ++ rest) = true := by
  induction front generalizing phase with
  | nil => exact hr phase hp
  | cons act front ih =>
    obtain ⟨hph, hop⟩ := hf act List.mem_cons_self
    have hafter : act.phaseAfter ≠ .wait := by
      unfold Act.phaseAfter
      split
      · simp
      · exact hph
    simp [waitSound, hp, hop, ih hafter fun a ha => hf a (List.mem_cons_of_mem _ ha)]

/-- The wait of NEXT is in agreement with WAIT. -/
theorem waitSound_holdActs (d : BitVec 16) {phase : Phase} (hp : phase ≠ .wait) : waitSound phase (holdActs d) = true := by
  simp [holdActs, actsAt, waitSound, Act.phaseAfter, hp]

end Sys2Proof.Machine
end

