-- ==== Sys2Proof/Laws/Lines.lean ====
section
/-! SUPPORT. Masks and bytes of the GPIO multiplexer, bit by bit: which bit of a register is which line's. -/

namespace Sys2Proof.Machine

open Sys2Proof

@[simp] theorem lineMask_getLsbD (pins : Pins) (x : Line) (i : Nat) :
    (lineMask pins x).getLsbD i = decide (i = (pinOf pins x).bit.val) := by
  have h := (pinOf pins x).bit.isLt
  rw [lineMask, BitVec.getLsbD_shiftLeft, BitVec.getLsbD_one]
  by_cases hi : i = (pinOf pins x).bit.val
  · simp [hi]
  · simp [hi]
    omega

theorem maskOn_getLsbD (pins : Pins) (x : Line) (r : RegId) (i : Nat) :
    (maskOn pins x r).getLsbD i = (decide (regOf pins x = r) && decide (i = (pinOf pins x).bit.val)) := by
  unfold maskOn
  split <;> simp [*]

theorem keepMask_getLsbD (pins : Pins) (r : RegId) (i : Nat) :
    (keepMask pins r).getLsbD i = (decide (i < 8) && !((maskOn pins .c r).getLsbD i ||
      (maskOn pins .a r).getLsbD i || (maskOn pins .b r).getLsbD i)) := by
  simp [keepMask]

/-- A PinWrite's byte: the line's bit is the level, every other bit as it was read (R123). -/
theorem pinByte_getLsbD (pins : Pins) (x : Line) (v : Bool) (t : Byte) (i : Nat) :
    (pinByte pins x v t).getLsbD i = if i = (pinOf pins x).bit.val then v else t.getLsbD i := by
  have h := (pinOf pins x).bit.isLt
  have hv : (if v then lineMask pins x else 0#8).getLsbD i = (v && decide (i = (pinOf pins x).bit.val)) := by
    cases v <;> simp
  rw [pinByte, BitVec.getLsbD_or, BitVec.getLsbD_and, BitVec.getLsbD_not, lineMask_getLsbD, hv]
  by_cases hi : i = (pinOf pins x).bit.val
  · simp [hi]
  · by_cases hlt : i < 8
    · simp [hi, hlt]
    · have : t.getLsbD i = false := BitVec.getLsbD_of_ge _ _ (by omega)
      simp [hi, hlt, this]

/-- A table entry is the byte of the register with the clock low and the data lines at the entry's levels (R125). -/
theorem lutByte_eq_lineByte (pins : Pins) (port : Memory) (r : RegId) (a b : Bool) :
    lutByte pins r (port.read r) a b = lineByte pins port ⟨false, a, b⟩ r := by
  simp [lutByte, lineByte]

/-- Every line's register is in ORDER (R122). -/
theorem regOf_mem_order (pins : Pins) (x : Line) : regOf pins x ∈ order pins := by
  unfold order
  cases x
  · simp
  · by_cases h1 : regOf pins .a = regOf pins .c <;> simp [h1]
  · by_cases h1 : regOf pins .b = regOf pins .c
    · simp [h1]
    · by_cases h2 : regOf pins .b = regOf pins .a
      · by_cases h3 : regOf pins .a = regOf pins .c <;> simp [h2, h3]
      · simp [h1, h2]

/-- A register that no line lives on holds what PORT holds, whatever the levels. -/
theorem lineByte_of_not_mem {pins : Pins} {r : RegId} (h : r ∉ order pins) (port : Memory) (l : Levels) :
    lineByte pins port l r = port.read r := by
  have hm : ∀ x, maskOn pins x r = 0#8 := by
    intro x
    unfold maskOn
    rw [if_neg]
    rintro rfl
    exact h (regOf_mem_order pins x)
  have hall : port.read r &&& ~~~(0#8) = port.read r := by
    apply BitVec.eq_of_getLsbD_eq
    intro i hi
    rw [BitVec.getLsbD_and, BitVec.getLsbD_not]
    simp [hi]
  simp only [lineByte, keepMask, hm, BitVec.or_zero, ite_self, hall]

end Sys2Proof.Machine
end

