-- ==== Sys2Proof/Laws/PerInstr.lean ====
section
/-! SUPPORT. Per command: its encoding stands in the row of the opcode table that bears its mnemonic (R86). -/

namespace Sys2Proof.Laws.TableRow

open Sys2Proof

/-- A well-formed command's word matches a row of the opcode table with the command's mnemonic. -/
def Statement (i : Instr) : Prop :=
  i.wf = true → ∃ row ∈ opcodeTable, row.mnemonic = i.mnemonic ∧ row.hits (encode i) = true

/-- A word matches the row of its opcode byte. -/
theorem hits_commandWord (m : String) (op : Byte) (p : Vec) : (OpcodeRow.mk m op).hits (commandWord op p) = true := by
  have h : commandWord op p &&& OpcodeRow.mask = (OpcodeRow.mk m op).value := by
    apply BitVec.eq_of_getLsbD_eq
    intro i hi
    rw [BitVec.getLsbD_and, OpcodeRow.mask, OpcodeRow.value, commandWord_getLsbD, commandWord_getLsbD,
      commandWord_getLsbD]
    by_cases hlow : i < 104
    · simp [hlow]
    · have hone : (0xff#8).getLsbD (i - 104) = true := by
        have : i - 104 < 8 := by omega
        interval_cases (i - 104) <;> rfl
      simp [hlow, hi, hone]
  simp [OpcodeRow.hits, h]

theorem set (vec : Vec) : Statement (.set vec) :=
  fun _ => ⟨⟨"SET", 0x01#8⟩, by decide, rfl, hits_commandWord ..⟩

theorem setb (bytes : List Byte) : Statement (.setb bytes) := by
  intro h
  have hn : bytes.length ≤ 13 := of_decide_eq_true h
  have hrow : ∀ n ≤ 13, (⟨"SETB", 0x10#8 ||| BitVec.ofNat 8 n⟩ : OpcodeRow) ∈ opcodeTable := by decide
  exact ⟨_, hrow _ hn, rfl, hits_commandWord ..⟩

theorem finish : Statement .finish :=
  fun _ => ⟨⟨"FINISH", 0x02#8⟩, by decide, rfl, hits_commandWord ..⟩

theorem bright (level : Byte) : Statement (.bright level) :=
  fun _ => ⟨⟨"BRIGHT", 0x03#8⟩, by decide, rfl, hits_commandWord ..⟩

theorem fast (v : Bool) : Statement (.fast v) :=
  fun _ => ⟨⟨"FAST", 0x04#8⟩, by decide, rfl, hits_commandWord ..⟩

theorem by32 (v : Bool) : Statement (.by32 v) :=
  fun _ => ⟨⟨"BY32", 0x05#8⟩, by decide, rfl, hits_commandWord ..⟩

theorem defer (v : Bool) : Statement (.defer v) :=
  fun _ => ⟨⟨"DEFER", 0x06#8⟩, by decide, rfl, hits_commandWord ..⟩

theorem next : Statement .next :=
  fun _ => ⟨⟨"NEXT", 0x07#8⟩, by decide, rfl, hits_commandWord ..⟩

end Sys2Proof.Laws.TableRow
end

