-- ==== Sys2Proof/Laws/Step.lean ====
section
/-! SUPPORT. What a command, an act of the environment and a step can do, each said once. -/

namespace Sys2Proof.Machine

open Sys2Proof

/-- A command that answers a next state has done one of these. -/
theorem exec_cases {i : Instr} {s t : State} (h : exec i s = .next t) :
    (∃ v, i = .fast v ∧ t = s.setFast v) ∨ (∃ v, i = .by32 v ∧ t = s.setBy32 v) ∨
      (∃ v, i = .defer v ∧ t = s.setDefer v) ∨ (i = .finish ∧ t = s.runCommand doFinish) ∨
      (∃ l, i = .bright l ∧ s.cfg.brtPin = none ∧ t = s) ∨
      (∃ l p, i = .bright l ∧ s.cfg.brtPin = some p ∧ t = s.runCommand (actsAt .idle none [.pwm l])) ∨
      (∃ x, i = .set x ∧ t = loadAndDispatch x s) ∨
      (∃ bs, i = .setb bs ∧ t = loadAndDispatch (fromBytes s.cfg bs.length bs) s) ∨
      (i = .next ∧ s.cfg.frameCount = 0 ∧ t = s) ∨
      (i = .next ∧ s.cfg.frameCount ≠ 0 ∧ ∃ bytes d, s.cfg.frameRom[s.fidx.toNat]? = some bytes ∧
        s.cfg.delayRom[s.fidx.toNat]? = some d ∧ t = playFrame bytes d s) := by
  cases i with
  | set x =>
    cases h
    exact .inr (.inr (.inr (.inr (.inr (.inr (.inl ⟨x, rfl, rfl⟩))))))
  | setb bs =>
    cases h
    exact .inr (.inr (.inr (.inr (.inr (.inr (.inr (.inl ⟨bs, rfl, rfl⟩)))))))
  | finish =>
    cases h
    exact .inr (.inr (.inr (.inl ⟨rfl, rfl⟩)))
  | bright l =>
    simp only [exec, execBright] at h
    split at h <;> cases h
    · exact .inr (.inr (.inr (.inr (.inl ⟨l, rfl, ‹_›, rfl⟩))))
    · exact .inr (.inr (.inr (.inr (.inr (.inl ⟨l, _, rfl, ‹_›, rfl⟩)))))
  | fast v =>
    cases h
    exact .inl ⟨v, rfl, rfl⟩
  | by32 v =>
    cases h
    exact .inr (.inl ⟨v, rfl, rfl⟩)
  | defer v =>
    cases h
    exact .inr (.inr (.inl ⟨v, rfl, rfl⟩))
  | next =>
    simp only [exec, execNext] at h
    split at h
    · cases h
      exact .inr (.inr (.inr (.inr (.inr (.inr (.inr (.inr (.inl ⟨rfl, ‹_›, rfl⟩))))))))
    · split at h <;> cases h
      exact .inr (.inr (.inr (.inr (.inr (.inr (.inr (.inr (.inr ⟨rfl, ‹_›, _, _, ‹_›, ‹_›, rfl⟩))))))))

/-- An act of the environment that answers a next state has done one of these. -/
theorem envStep_cases {act : EnvAct} {s t : State} (h : envStep act s = .next t) :
    (∃ r, act = .read r ∧ r < s.cfg.nRegs ∧ t = envRead r s) ∨
      (∃ r b, act = .write r b ∧ r < s.cfg.nRegs ∧ t = envWrite r b s) ∨
      ∃ cfg, act = .reset cfg ∧ t = applyReset cfg s := by
  cases act with
  | read r =>
    simp only [envStep] at h
    split at h <;> cases h
    exact .inl ⟨r, rfl, ‹_›, rfl⟩
  | write r b =>
    simp only [envStep] at h
    split at h <;> cases h
    exact .inr (.inl ⟨r, b, rfl, ‹_›, rfl⟩)
  | reset cfg =>
    cases h
    exact .inr (.inr ⟨cfg, rfl, rfl⟩)

/-- An act of the environment is due exactly when the script's first gap is 0. -/
theorem dueAct_eq_some {s s' : State} {act : EnvAct} (h : dueAct s = some (act, s')) :
    ∃ rest, s.env = (0, act) :: rest ∧ s' = { s with env := rest } := by
  unfold dueAct at h
  split at h
  · cases h
    exact ⟨_, ‹_›, rfl⟩
  · cases h

theorem dueAct_eq_none {s : State} : dueAct s = none ↔ s.envDue = false := by
  unfold dueAct State.envDue
  split <;> simp [*]

/-- A step that answers a next state has done one of these (R6, R61). -/
theorem step_cases {s t : State} (h : step s = .next t) :
    (∃ act rest, s.env = (0, act) :: rest ∧ envStep act { s with env := rest } = .next t) ∨
      (dueAct s = none ∧ configWf s.cfg = true ∧ s.busy = true ∧ t = s.resume) ∨
      (dueAct s = none ∧ configWf s.cfg = true ∧ s.busy = false ∧ s.offers = [] ∧ t = s) ∨
      (dueAct s = none ∧ configWf s.cfg = true ∧ s.busy = false ∧ ∃ w rest e, s.offers = w :: rest ∧
        decode w = .error e ∧ t = { s with offers := rest, env := elapse 1 s.env }) ∨
      (dueAct s = none ∧ configWf s.cfg = true ∧ s.busy = false ∧ ∃ w rest i, s.offers = w :: rest ∧
        decode w = .ok i ∧ exec i { s with offers := rest, env := elapse 1 s.env } = .next t) := by
  unfold step at h
  split at h
  · obtain ⟨rest, he, rfl⟩ := dueAct_eq_some ‹_›
    exact .inl ⟨_, rest, he, h⟩
  · have hdue : dueAct s = none := ‹_›
    refine .inr ?_
    split at h
    · have hwf : configWf s.cfg = true := ‹_›
      split at h
      · cases h
        exact .inl ⟨hdue, hwf, ‹_›, rfl⟩
      · have hidle : s.busy = false := Bool.eq_false_iff.2 ‹_›
        refine .inr ?_
        unfold acceptOffer at h
        cases ho : s.offers with
        | nil =>
          rw [ho] at h
          cases h
          exact .inl ⟨hdue, hwf, hidle, rfl, rfl⟩
        | cons w rest =>
          rw [ho] at h
          refine .inr ?_
          simp only at h
          split at h
          · exact .inr ⟨hdue, hwf, hidle, w, rest, _, rfl, ‹_›, h⟩
          · cases h
            exact .inl ⟨hdue, hwf, hidle, w, rest, _, rfl, ‹_›, rfl⟩
    · cases h

end Sys2Proof.Machine
end

