-- ==== Sys2Proof/Machine/Assembler.lean ====
section
/-! DEFINITION. The textual form of R90 and R91: one command per line, `;` starts a comment, numbers decimal or `0x` hexadecimal. A line
is a list of characters. -/

namespace Sys2Proof.Machine

open Sys2Proof

/-- The characters before a comment (R90). -/
def stripComment : List Char → List Char
  | [] => []
  | ch :: rest => if ch = ';' then [] else ch :: stripComment rest

/-- A token gathered so far, in reverse, closed in front of the tokens after it. -/
def closeToken (current : List Char) (rest : List (List Char)) : List (List Char) :=
  if current.isEmpty then rest else current.reverse :: rest

/-- The tokens of a line: runs of characters between blanks, and each comma on its own. -/
def tokens : List Char → List Char → List (List Char)
  | current, [] => closeToken current []
  | current, ch :: rest =>
    if ch = ' ' ∨ ch = '\t' then closeToken current (tokens [] rest)
    else if ch = ',' then closeToken current ([','] :: tokens [] rest)
    else tokens (ch :: current) rest

/-- The value of a digit below the base. -/
def digitValue (base : Nat) (ch : Char) : Option Nat :=
  let n := ch.toNat
  let v := if 48 ≤ n ∧ n ≤ 57 then n - 48 else if 97 ≤ n ∧ n ≤ 102 then n - 87 else if 65 ≤ n ∧ n ≤ 70 then n - 55 else base
  if v < base then some v else none

/-- The value of digits, most significant first, after the value read so far. -/
def digitsValue (base : Nat) : Nat → List Char → Option Nat
  | acc, [] => some acc
  | acc, ch :: rest =>
    match digitValue base ch with
    | some d => digitsValue base (acc * base + d) rest
    | none => none

/-- A number (R90). -/
def parseNumber : List Char → Option Nat
  | [] => none
  | '0' :: 'x' :: d :: rest => digitsValue 16 0 (d :: rest)
  | d :: rest => digitsValue 10 0 (d :: rest)

/-- A number below a bound. -/
def parseBelow (bound : Nat) (token : List Char) : Option Nat :=
  match parseNumber token with
  | some n => if n < bound then some n else none
  | none => none

/-- Byte values. -/
def parseBytes : List (List Char) → Option (List Byte)
  | [] => some []
  | token :: rest =>
    match parseBelow 256 token, parseBytes rest with
    | some b, some bs => some (BitVec.ofNat 8 b :: bs)
    | _, _ => none

/-- What a line denotes. -/
inductive AsmLine where
  | blank
  | word (w : CmdWord)
  | malformed
  deriving DecidableEq, Repr

/-- A line whose operand was read, or not. -/
def AsmLine.ofOption (f : Nat → Instr) : Option Nat → AsmLine
  | some n => .word (encode (f n))
  | none => .malformed

/-- The bytes of a SETB, exactly as many as its count says (R90). -/
def asmSetb (n : Nat) (operands : List (List Char)) : AsmLine :=
  match parseBytes operands with
  | some bytes => if bytes.length = n then .word (encode (.setb bytes)) else .malformed
  | none => .malformed

/-- The command word of a tokenised line (R90, R91). -/
def asmTokens (cfg : Config) : List (List Char) → AsmLine
  | [] => .blank
  | [['F', 'I', 'N', 'I', 'S', 'H']] => .word (encode .finish)
  | [['N', 'E', 'X', 'T']] => .word (encode .next)
  | [['S', 'A', 'F', 'E']] => .word (Pseudo.safe.word cfg)
  | [['S', 'E', 'Q']] => .word (Pseudo.seq.word cfg)
  | [['N', 'O', 'P']] => .word (Pseudo.nop.word cfg)
  | [['S', 'E', 'T'], v] => .ofOption (fun n => .set (BitVec.ofNat 104 n)) (parseBelow (2 ^ 104) v)
  | [['B', 'R', 'I', 'G', 'H', 'T'], v] => .ofOption (fun n => .bright (BitVec.ofNat 8 n)) (parseBelow 256 v)
  | [['F', 'A', 'S', 'T'], v] => .ofOption (fun n => .fast (n == 1)) (parseBelow 2 v)
  | [['B', 'Y', '3', '2'], v] => .ofOption (fun n => .by32 (n == 1)) (parseBelow 2 v)
  | [['D', 'E', 'F', 'E', 'R'], v] => .ofOption (fun n => .defer (n == 1)) (parseBelow 2 v)
  | [['S', 'E', 'T', 'B'], n] => if parseNumber n = some 0 then asmSetb 0 [] else .malformed
  | ['S', 'E', 'T', 'B'] :: n :: [','] :: operands =>
    match parseBelow 14 n with
    | some n => asmSetb n operands
    | none => .malformed
  | [['S', 'E', 'T', 'W'], a, [','], b, [','], c] =>
    match parseNumber a, parseNumber b, parseNumber c with
    | some x, some y, some z =>
      .word ((Pseudo.setw (BitVec.ofNat 104 x) (BitVec.ofNat 104 y) (BitVec.ofNat 104 z)).word cfg)
    | _, _, _ => .malformed
  | ['S', 'E', 'T', 'F'] :: operands => asmSetb 9 operands
  | _ => .malformed

/-- The command word of a line of text (R90). -/
def assembleLine (cfg : Config) (line : List Char) : AsmLine := asmTokens cfg (tokens [] (stripComment line))

end Sys2Proof.Machine
end

