-- ==== Sys2Proof/Tests/Slice0.lean ====
section
/-! SUPPORT. The model's own tests. Expected results are the worked encodings of R92 and the vectors of 95_test_vectors.md, named
in each comment, or are read off the rule named. Then, for each statement of Obligations.lean that has hypotheses, a witness
that meets them together. -/

namespace Sys2Proof.Tests

open Sys2Proof Sys2Proof.Machine

/-! ### Small states -/

/-- The reduced configuration of the vectors, `N_OUT` = 4, with three pins of the example platform EX. -/
def small (c a b : Nat) : Config := { Config.sample with nOut := 4, clkPin := c, daPin := a, dbPin := b }

/-- An idle machine with given registers. -/
def idleState (cfg : Config) (port : Memory) (fast : Bool) : State :=
  { State.resetWith cfg with port := port, fast := fast }

/-- Layout L1 with `PORT[1] = 0xA9`. -/
def l1 (fast : Bool) : State := idleState (small 8 9 10) [(1, 0xa9#8)] fast

/-- Layout L3 with `PORT = [0xFF, 0x00, 0x7F]`. -/
def l3 (fast : Bool) : State := idleState (small 5 9 23) [(0, 0xff#8), (2, 0x7f#8)] fast

/-- The same with one act of the environment after `gap` turns. -/
def State.withEnv (s : State) (gap : Nat) (act : EnvAct) : State := { s with env := [(gap, act)] }

/-- The state a command ends in. -/
def after (i : Instr) (s : State) : State :=
  match exec i s with
  | .next t => t
  | .fault _ => s
  | .refused _ => s

/-- The state a step ends in. -/
def stepped (s : State) : State :=
  match step s with
  | .next t => t
  | .fault _ => s
  | .refused _ => s

/-- The answer is a next state. -/
def isNext (o : Host.Outcome State Fault Refusal) : Bool :=
  match o with
  | .next _ => true
  | .fault _ => false
  | .refused _ => false

/-! ### Encoding (R92, T30, T31) -/

theorem test_decode_set : decode 0x0100000000000004000000000000#112 = .ok (.set (1#104 <<< 50)) := by decide

theorem test_decode_set_keeps_high_bits : decode 0x01ffffffffffffffffffffffffff#112 = .ok (.set (ones 104)) := by decide

theorem test_decode_setb : decode 0x1900000000800000000000000001#112 =
    .ok (.setb [0x01#8, 0#8, 0#8, 0#8, 0#8, 0#8, 0#8, 0#8, 0x80#8]) := by decide

theorem test_decode_setb_empty : decode 0x1000000000000000000000000000#112 = .ok (.setb []) := by decide

theorem test_decode_setb_thirteen : decode 0x1d0c0b0a09080706050403020100#112 =
    .ok (.setb [0x00#8, 1#8, 2#8, 3#8, 4#8, 5#8, 6#8, 7#8, 8#8, 9#8, 0x0a#8, 0x0b#8, 0x0c#8]) := by decide

theorem test_decode_finish : decode 0x0200000000000000000000000000#112 = .ok .finish := by decide

theorem test_decode_bright : decode 0x0300000000000000000000000080#112 = .ok (.bright 128#8) := by decide

theorem test_decode_fast : decode 0x0400000000000000000000000003#112 = .ok (.fast true) := by decide

theorem test_decode_by32 : decode 0x0500000000000000000000000002#112 = .ok (.by32 false) := by decide

theorem test_decode_defer : decode 0x0600000000000000000000000001#112 = .ok (.defer true) := by decide

theorem test_decode_next : decode 0x0700000000000000000000000000#112 = .ok .next := by decide

theorem test_decode_reserved :
    decode 0x0000000000000000000000000000#112 = .error (.reservedOpcode 0x00#8) ∧
      decode 0x08ffffffffffffffffffffffffff#112 = .error (.reservedOpcode 0x08#8) ∧
      decode 0x1e00000000000000000000000000#112 = .error (.reservedOpcode 0x1e#8) ∧
      decode 0xff00000000000000000000000000#112 = .error (.reservedOpcode 0xff#8) := by decide

theorem test_encode_words :
    encode (.set (1#104 <<< 50)) = 0x0100000000000004000000000000#112 ∧
      encode (.setb [0x01#8, 0#8, 0#8, 0#8, 0#8, 0#8, 0#8, 0#8, 0x80#8]) = 0x1900000000800000000000000001#112 ∧
      encode .finish = 0x0200000000000000000000000000#112 ∧
      encode (.bright 128#8) = 0x0300000000000000000000000080#112 ∧
      encode (.fast true) = 0x0400000000000000000000000001#112 ∧
      encode (.by32 true) = 0x0500000000000000000000000001#112 ∧
      encode (.defer false) = 0x0600000000000000000000000000#112 ∧
      encode .next = 0x0700000000000000000000000000#112 := by decide

theorem test_opcode_table_rows : opcodeTable.length = 21 ∧ (opcodeTable.map OpcodeRow.op).Nodup := by decide

/-- T30: SETW of the vector VX. -/
theorem test_pseudo_setw : (Pseudo.setw 0x8000000d#104 0x8000000d#104 0x40000000d#104).word Config.sample =
    0x01040000000d8000000d8000000d#112 := by decide

/-- R90: two lines of text. -/
theorem test_assemble :
    assembleLine Config.sample ['F', 'A', 'S', 'T', ' ', '1', ' ', ';', ' ', 'x'] =
        .word 0x0400000000000000000000000001#112 ∧
      assembleLine Config.sample
          ['S', 'E', 'T', 'B', ' ', '2', ',', ' ', '0', 'x', 'a', 'F', ' ', '1', '0'] =
        .word 0x1200000000000000000000000aaf#112 ∧
      assembleLine Config.sample ['S', 'E', 'T', 'B', ' ', '2', ',', ' ', '1'] = .malformed := by decide

/-! ### Well-formedness: a term for each check, refused -/

theorem test_wf_setb_fourteen_bytes : Instr.wf (.setb (List.replicate 14 0#8)) = false := by decide

theorem test_wf_setb_thirteen_bytes : Instr.wf (.setb (List.replicate 13 0#8)) = true := by decide

theorem test_config_sample : configWf Config.sample = true := by decide

theorem test_config_pin_out_of_range : pinsInRange { Config.sample with daPin := 24 } = false := by decide

theorem test_config_brightness_out_of_range : pinsInRange { Config.sample with brtPin := some 24 } = false := by decide

theorem test_config_pins_equal : pinsDistinct { Config.sample with brtPin := some 8 } = false := by decide

theorem test_config_pinmap_short : pinMapSound { Config.sample with nPins := 25 } = false := by decide

theorem test_config_pinmap_not_injective :
    pinMapSound { Config.sample with nPins := 2, pinMap := [⟨0, 1⟩, ⟨0, 1⟩] } = false := by decide

theorem test_config_pinmap_outside_bank : pinMapSound { Config.sample with nRegs := 2 } = false := by decide

theorem test_config_width : widthEncodable { Config.sample with nOut := 105 } = false ∧
    widthEncodable { Config.sample with nOut := 0 } = false ∧
    widthEncodable { Config.sample with nOut := 104 } = true := by decide

theorem test_config_tables : tablesSound { Config.sample with frameCount := 3 } = false ∧
    tablesSound { Config.sample with frameRom := List.replicate 4 [0#8] } = false ∧
    tablesSound { Config.sample with frameCount := 65536 } = false := by decide

theorem test_config_delay_unit : configWf { Config.sample with tMin := 0 } = false := by decide

/-! ### Interleaver and mask generator -/

/-- T2's vector VX. -/
def vx : Vec := 0x40000000d8000000d8000000d#104

theorem test_from_words : fromWords Config.sample 0x8000000d#104 0x8000000d#104 0x40000000d#104 = vx ∧
    fromWords Config.sample 0#104 0#104 0xfffffffff#104 = 0x7ffffffff#104 <<< 64 := by decide

/-- T3. -/
theorem test_packed_form : toBytes Config.sample vx =
      [0x0d#8, 0#8, 0#8, 0x80#8, 0x0d#8, 0#8, 0#8, 0x80#8, 0x0d#8, 0#8, 0#8, 0#8, 0x04#8] ∧
    fromBytes Config.sample 13 (List.replicate 13 0xff#8) = ones 99 ∧
    fromBytes Config.sample 9 (List.replicate 9 0xff#8) = ones 72 := by decide

/-- T4: the positions of the ones. -/
theorem test_sequential_split :
    (List.range 99).filter (seqA Config.sample vx) = [0, 2, 3, 31, 32, 34, 35, 63, 64, 66, 67, 98] ∧
      (List.range 99).filter (seqB Config.sample vx) = [0, 28, 29, 31, 32, 60, 61, 63, 64, 95] := by decide +kernel

/-- T6. -/
theorem test_by32_split :
    (List.range 99).filter (by32A Config.sample vx) = [0, 2, 3, 31] ∧
      (List.range 99).filter (by32B Config.sample vx) = [0, 2, 3, 31, 32, 34] ∧
      recon Config.sample (split true Config.sample vx) = 0x58000000d8000000d#104 := by decide +kernel

/-- T12: layout L2. -/
theorem test_lut_two_registers :
    keepMask (resolvePins (small 9 8 16)) 1 = 0xfc#8 ∧ keepMask (resolvePins (small 9 8 16)) 2 = 0xfe#8 ∧
      lutByte (resolvePins (small 9 8 16)) 1 0x0c#8 true false = 0x0d#8 ∧
      lutByte (resolvePins (small 9 8 16)) 2 0xf0#8 true true = 0xf1#8 ∧
      order (resolvePins (small 9 8 16)) = [1, 2] ∧ order (resolvePins (small 5 9 23)) = [0, 1, 2] := by decide

/-- T10: the snapshot's clock bit survives into no entry. -/
theorem test_lut_clock_bit : lutByte (resolvePins (small 8 9 10)) 1 0xa9#8 false true = 0xac#8 := by decide

/-! ### Commands, one step each -/

/-- T20: the end and the LineTrace of the safe frame. -/
theorem test_set_safe : (after (.set 0b1011#104) (l1 false)).port = [(1, 0xaa#8)] ∧
    lineTrace (l1 false).pins (l1 false).port (eventsSince (l1 false) (after (.set 0b1011#104) (l1 false))) =
      [(true, true), (true, true), (true, true), (true, false), (false, false), (true, false)] := by decide +kernel

/-- T23: the fast frame on three registers, its first events and its end. -/
theorem test_set_fast_three_registers : (after (.set 0b1011#104) (l3 true)).port = [(0, 0xff#8), (1, 0x02#8), (2, 0x7f#8)] ∧
    (eventsSince (l3 true) (after (.set 0b1011#104) (l3 true))).take 10 =
      [.rd 0 0xff#8, .rd 1 0x00#8, .rd 2 0x7f#8, .wr 0 0xdf#8, .wr 1 0x00#8, .wr 2 0x7f#8,
        .wr 0 0xdf#8, .wr 1 0x02#8, .wr 2 0xff#8, .wr 0 0xff#8] := by decide +kernel

/-- T21's fourteen events, from the byte form of the vector; BY32 is 0. -/
theorem test_setb_fast_events : eventsSince (l1 true) (after (.setb [0x0b#8]) (l1 true)) =
    [.rd 1 0xa9#8, .wr 1 0xa8#8, .wr 1 0xae#8, .wr 1 0xaf#8, .wr 1 0xae#8, .wr 1 0xaf#8, .wr 1 0xae#8, .wr 1 0xaf#8,
      .wr 1 0xaa#8, .wr 1 0xab#8, .wr 1 0xa8#8, .wr 1 0xa9#8, .wr 1 0xaa#8, .wr 1 0xab#8] := by decide +kernel

/-- T25: by 32, position 0 is (1, 0). -/
theorem test_setb_by32 :
    lineTrace (l1 true).pins (l1 true).port
      (eventsSince (l1 true) (after (.setb [0x0b#8, 0xff#8]) { l1 true with by32 := true })) =
      [(true, true), (true, true), (true, false), (true, false), (false, false), (true, false)] := by decide +kernel

/-- R176's example: `PORT[1] = 0xAC` after a deferred frame. -/
theorem test_finish : (after .finish (idleState (small 8 9 10) [(1, 0xac#8)] true)).hist =
    [(.engine, .wr 1 0xad#8), (.engine, .rd 1 0xac#8)] := by decide

/-- T22: a second FINISH writes the byte back. -/
theorem test_finish_again : (after .finish (idleState (small 8 9 10) [(1, 0xab#8)] true)).hist =
    [(.engine, .wr 1 0xab#8), (.engine, .rd 1 0xab#8)] := by decide

/-- R175: no pin, no event. -/
theorem test_bright_without_pin : (after (.bright 128#8) (l1 true)).hist = [] := by decide

theorem test_bright_with_pin :
    (after (.bright 128#8) (idleState { small 8 9 10 with brtPin := some 11 } [] true)).hist =
      [(.engine, .pwm 128#8)] := by decide

theorem test_fast : after (.fast true) (l1 false) = l1 true := by decide

theorem test_by32 : (after (.by32 true) (l1 false)).mode = 0b010#3 := by decide

theorem test_defer : (after (.defer true) (l1 true)).mode = 0b101#3 := by decide

/-- P3's first NEXT on four outputs: vector 1, the last event `WAITMS(100)`, the cursor at (1, forward). -/
theorem test_next_first_frame :
    (after .next (l1 true)).vreg = 1#104 ∧ (after .next (l1 true)).hist.head? = some (.engine, .waitMs 100#16) ∧
      (after .next (l1 true)).fidx = 1#16 ∧ (after .next (l1 true)).dir = .forward := by decide +kernel

/-- P3's fourth NEXT: overrun, the cursor turns to (2, backward). -/
theorem test_next_overrun :
    (after .next { l1 true with fidx := 3#16 }).fidx = 2#16 ∧
      (after .next { l1 true with fidx := 3#16 }).dir = .backward := by decide +kernel

/-- T40, T41. -/
theorem test_advance : advance 1 true 0 .forward = (0, .backward) ∧ advance 1 true 0 .backward = (0, .forward) ∧
    advance 2 true 1 .forward = (0, .backward) ∧ advance 2 true 0 .backward = (1, .forward) ∧
    advance 4 false 0 .backward = (3, .backward) ∧ advance 4 false 3 .forward = (0, .forward) := by decide

/-! ### Steps -/

theorem test_reset_runs_an_offered_word : isNext (step (State.reset.withFetchWord 112 0x0100000000000004000000000000)) = true := by
  decide

theorem test_decode_table_word : decodeTableWord 112 0x0700000000000000000000000000 = some .next := by decide

/-- The engine stops where the environment's turn is, and goes on after it. -/
theorem test_interrupted_finish :
    (after .finish (State.withEnv (l1 true) 1 (.write 1 0#8))).busy = true ∧
      (stepped (stepped (after .finish (State.withEnv (l1 true) 1 (.write 1 0#8))))).port = [(1, 0xa9#8)] := by decide

/-- R152, R149, R26: NEXT's fast frame on one register has 14 events; after them PHASE is IDLE and POS is 4, after the WAITMS it is WAIT,
and the cursor moves when the wait is over. -/
theorem test_wait_of_next :
    ((after .next (State.withEnv (l1 true) 14 (.read 0))).phase, (after .next (State.withEnv (l1 true) 14 (.read 0))).pos) =
        (.idle, 4) ∧
      (after .next (State.withEnv (l1 true) 15 (.read 0))).phase = .wait ∧
      (after .next (State.withEnv (l1 true) 15 (.read 0))).fidx = 0#16 ∧
      (stepped (stepped (after .next (State.withEnv (l1 true) 15 (.read 0))))).fidx = 1#16 := by decide +kernel

/-- R221: a reset right after `FAST 1` comes before the FINISH that is offered next, and clears FAST. -/
theorem test_reset_between_commands :
    stepped (stepped { State.withEnv (l1 false) 1 (.reset (small 8 9 10)) with
        offers := [0x0400000000000000000000000001#112, 0x0200000000000000000000000000#112] }) =
      { l1 false with offers := [0x0200000000000000000000000000#112] } := by decide +kernel

/-- R226: the brightness pin 23 of EX lives on register 2, which is kept during BRIGHT only. -/
theorem test_brightness_register :
    politeAct (.bright 1#8) (idleState { small 8 9 10 with brtPin := some 23 } [] true) (.write 2 0#8) = false ∧
      politeAct .finish (idleState { small 8 9 10 with brtPin := some 23 } [] true) (.write 2 0#8) = true := by decide

/-- R50: there is no register 3. -/
theorem test_environment_register_absent :
    step (State.withEnv (l1 true) 0 (.read 3)) = .fault (.noSuchRegister 3) := by rfl

/-! ### Witnesses -/

/-- Undisturbed and idle with the invariant, on each path and layout. -/
theorem witness_frames :
    ((l1 false).Inv ∧ (l1 false).busy = false ∧ (l1 false).fast = false ∧
      (l1 false).undisturbed (frameEvents (l1 false) (maskVec (l1 false).cfg 0b1011#104)).length = true) ∧
    ((l3 true).Inv ∧ (l3 true).busy = false ∧ (l3 true).fast = true ∧
      (l3 true).undisturbed (frameEvents (l3 true) (maskVec (l3 true).cfg 0b1011#104)).length = true) :=
  ⟨⟨inv_of_invCheck (by decide), by decide, by decide, by decide⟩,
    ⟨inv_of_invCheck (by decide), by decide, by decide, by decide⟩⟩

/-- The boundary of "undisturbed": the environment's act comes right after the frame's 68 events. -/
theorem witness_SetLoadsTheVectorAndSendsTheFrame :
    (State.withEnv (l1 false) 68 (.read 1)).Inv ∧ (State.withEnv (l1 false) 68 (.read 1)).busy = false ∧
      (State.withEnv (l1 false) 68 (.read 1)).undisturbed
        (frameEvents (State.withEnv (l1 false) 68 (.read 1)) (maskVec (l1 false).cfg 0b1011#104)).length = true :=
  ⟨inv_of_invCheck (by decide), by decide, by decide +kernel⟩

theorem witness_FastFrameBuildsSnapshotAndTable :
    (l3 true).Inv ∧ (l3 true).busy = false ∧ (l3 true).fast = true ∧
      (l3 true).undisturbed (frameEvents (l3 true) (maskVec (l3 true).cfg 5#104)).length = true :=
  ⟨inv_of_invCheck (by decide), by decide, by decide, by decide⟩

theorem witness_SafePathPacesEveryClockEdge :
    (l3 false).Inv ∧ (l3 false).busy = false ∧ (l3 false).fast = false ∧
      (l3 false).undisturbed (frameEvents (l3 false) (maskVec (l3 false).cfg 5#104)).length = true :=
  ⟨inv_of_invCheck (by decide), by decide, by decide, by decide⟩

theorem witness_VectorCommandsLeaveTheRestUnchanged :
    (∃ t, (l1 true).Inv ∧ (l1 true).busy = false ∧ exec (.set 5#104) (l1 true) = .next t) ∧
      ∃ t, (l1 false).Inv ∧ (l1 false).busy = false ∧ exec (.setb [5#8]) (l1 false) = .next t :=
  ⟨⟨_, inv_of_invCheck (by decide), by decide, rfl⟩, ⟨_, inv_of_invCheck (by decide), by decide, rfl⟩⟩

theorem witness_BothPathsSampleTheSamePairs :
    (l1 false).Inv ∧ { l1 true with port := [] }.Inv ∧ (l1 false).busy = false ∧ (l1 true).busy = false ∧
      (l1 false).cfg = (l1 true).cfg ∧ (l1 false).env = [] ∧ (l1 true).env = [] ∧ (l1 false).fast = false ∧
      (l1 true).fast = true ∧ (l1 true).by32 = false ∧ (l1 true).defer = false :=
  ⟨inv_of_invCheck (by decide), inv_of_invCheck (by decide), by decide, by decide, by decide, by decide, by decide,
    by decide, by decide, by decide, by decide⟩

/-- Both clauses of the FINISH counts: clock low (0xA8) and clock high (0xA9). -/
theorem witness_EventCountsAreFixed :
    (idleState (small 8 9 10) [(1, 0xa8#8)] true).Inv ∧ (idleState (small 8 9 10) [(1, 0xa8#8)] true).undisturbed 2 = true ∧
      lineLevel (l1 true).pins [(1, 0xa8#8)] .c = false ∧ (l1 true).Inv ∧ (l1 true).undisturbed 2 = true ∧
      lineLevel (l1 true).pins (l1 true).port .c = true :=
  ⟨inv_of_invCheck (by decide), by decide, by decide, inv_of_invCheck (by decide), by decide, by decide⟩

theorem witness_LinesEndAsTheTableSays :
    (State.withEnv (l1 true) 2 (.read 0)).Inv ∧ (State.withEnv (l1 true) 2 (.read 0)).busy = false ∧
      (State.withEnv (l1 true) 2 (.read 0)).undisturbed 2 = true ∧ 0 < (l1 false).cfg.shiftK :=
  ⟨inv_of_invCheck (by decide), by decide, by decide, by decide⟩

theorem witness_SafePathIgnoresBy32AndDefer : (l1 false).fast = false := by decide

theorem witness_DeferredFrameMergesWithTheNext :
    (l1 true).Inv ∧ (l1 true).busy = false ∧ (l1 true).env = [] ∧ (l1 true).fast = true :=
  ⟨inv_of_invCheck (by decide), by decide, by decide, by decide⟩

theorem witness_FinishSamplesTheWithheldPair :
    { l1 true with defer := true }.Inv ∧ { l1 true with defer := true }.busy = false ∧
      { l1 true with defer := true }.env = [] ∧ { l1 true with defer := true }.fast = true ∧
      { l1 true with defer := true }.defer = true :=
  ⟨inv_of_invCheck (by decide), by decide, by decide, by decide, by decide⟩

/-- Each place of PHASE and POS at the ends of its range: safe events 1, 7, 8, 18, 19, 24, 25, 67 and fast (one register) events
1, 2, 3, 4, 5, 6, 7, 13. -/
theorem witness_PhaseAndPositionFollowTheFrame :
    (∀ k ∈ [1, 7, 8, 18, 19, 24, 25, 67], (State.withEnv (l1 false) k (.read 1)).Inv ∧
      (State.withEnv (l1 false) k (.read 1)).busy = false ∧ 1 ≤ k ∧
      k < (frameEvents (State.withEnv (l1 false) k (.read 1)) (maskVec (l1 false).cfg 5#104)).length) ∧
    ∀ k ∈ [1, 2, 3, 4, 5, 6, 7, 13], (State.withEnv (l1 true) k (.read 1)).Inv ∧
      (State.withEnv (l1 true) k (.read 1)).busy = false ∧ 1 ≤ k ∧
      k < (frameEvents (State.withEnv (l1 true) k (.read 1)) (maskVec (l1 true).cfg 5#104)).length := by
  constructor
  · intro k hk
    have h : ∀ k ∈ [1, 7, 8, 18, 19, 24, 25, 67], (State.withEnv (l1 false) k (.read 1)).invCheck = true ∧
      (State.withEnv (l1 false) k (.read 1)).busy = false ∧ 1 ≤ k ∧
      k < (frameEvents (State.withEnv (l1 false) k (.read 1)) (maskVec (l1 false).cfg 5#104)).length := by decide +kernel
    exact ⟨inv_of_invCheck (h k hk).1, (h k hk).2⟩
  · intro k hk
    have h : ∀ k ∈ [1, 2, 3, 4, 5, 6, 7, 13], (State.withEnv (l1 true) k (.read 1)).invCheck = true ∧
      (State.withEnv (l1 true) k (.read 1)).busy = false ∧ 1 ≤ k ∧
      k < (frameEvents (State.withEnv (l1 true) k (.read 1)) (maskVec (l1 true).cfg 5#104)).length := by decide +kernel
    exact ⟨inv_of_invCheck (h k hk).1, (h k hk).2⟩

theorem witness_FinishRaisesTheClockAndNothingElse :
    (l1 true).Inv ∧ (l1 true).busy = false ∧ (l1 true).undisturbed 2 = true ∧
      lineLevel (l1 true).pins (l1 true).port .c = true :=
  ⟨inv_of_invCheck (by decide), by decide, by decide, by decide⟩

/-- With a brightness pin and without one. -/
theorem witness_BrightHandsTheLevelToThePwmUnit :
    ((l1 true).Inv ∧ (l1 true).busy = false ∧ (l1 true).undisturbed 1 = true ∧ (l1 true).cfg.brtPin = none) ∧
      ((idleState { small 8 9 10 with brtPin := some 23 } [] true).Inv ∧
        (idleState { small 8 9 10 with brtPin := some 23 } [] true).busy = false ∧
        (idleState { small 8 9 10 with brtPin := some 23 } [] true).undisturbed 1 = true ∧
        (idleState { small 8 9 10 with brtPin := some 23 } [] true).cfg.brtPin ≠ none) :=
  ⟨⟨inv_of_invCheck (by decide), by decide, by decide, by decide⟩,
    ⟨inv_of_invCheck (by decide), by decide, by decide, by decide⟩⟩

/-- At the first and at the last frame of the table. -/
theorem witness_NextShowsHoldsAndAdvances :
    ∀ f ∈ [0#16, 3#16], ∃ bytes d, { l1 true with fidx := f }.Inv ∧ { l1 true with fidx := f }.busy = false ∧
      0 < (l1 true).cfg.frameCount ∧ (l1 true).cfg.frameRom[f.toNat]? = some bytes ∧
      (l1 true).cfg.delayRom[f.toNat]? = some d ∧
      { l1 true with fidx := f }.undisturbed
        ((frameEvents { l1 true with fidx := f } (fromBytes (l1 true).cfg 9 bytes)).length + 2) = true := by
  intro f hf
  rcases List.mem_cons.1 hf with rfl | hf
  · exact ⟨_, _, inv_of_invCheck (by decide), by decide, by decide, rfl, rfl, by decide⟩
  · rcases List.mem_singleton.1 hf with rfl
    exact ⟨_, _, inv_of_invCheck (by decide), by decide, by decide, rfl, rfl, by decide⟩

theorem witness_NextWithAnEmptyTableDoesNothing :
    (idleState { small 8 9 10 with frameCount := 0, frameRom := [], delayRom := [] } [] true).cfg.frameCount = 0 := by decide

/-- The clauses of the cursor's step at the ends of their ranges, `n` = 1 and `n` = 4. -/
theorem witness_CursorStepsAndTurns : 0 < 1 ∧ (0 < 4 ∧ 2 + 1 < 4 ∧ 0 < 3 ∧ 3 < 4 ∧ 0 < 1 ∧ 1 < 4 ∧ 0 + 1 < 4) := by decide

/-- Ping-pong and wrap, and the least table, one frame. -/
theorem witness_FramesAreVisitedInTheStatedOrder :
    ((l1 true).Inv ∧ (l1 true).busy = false ∧ (l1 true).env = [] ∧ (l1 true).fidx = 0#16 ∧ (l1 true).dir = .forward ∧
      0 < (l1 true).cfg.frameCount ∧ (l1 true).cfg.pingPong = true) ∧
    ((idleState { small 8 9 10 with loopFlags := 0#16, frameCount := 1, frameRom := [List.replicate 9 7#8], delayRom := [5#16] } []
        true).Inv ∧
      (idleState { small 8 9 10 with loopFlags := 0#16, frameCount := 1, frameRom := [List.replicate 9 7#8], delayRom := [5#16] } []
        true).cfg.pingPong = false) :=
  ⟨⟨inv_of_invCheck (by decide), by decide, by decide, by decide, by decide, by decide, by decide⟩,
    ⟨inv_of_invCheck (by decide), by decide⟩⟩

/-- A machine caught in the middle of a frame, with a reset due and a word offered. -/
def caught : State :=
  { after (.set 5#104) (State.withEnv (l1 true) 9 (.reset (small 5 9 23))) with offers := [0x0200000000000000000000000000#112] }

theorem witness_ResetTakesTheValuesOfTheRule :
    caught.busy = true ∧ caught.env = [(0, .reset (small 5 9 23))] := by decide +kernel

theorem witness_ResetEstablishesTheInvariant :
    configWf (small 5 9 23) = true ∧ caught.port.wf = true ∧ caught.env.all (fun e => envActSound e.2) = true := by
  decide +kernel

/-- A busy engine, an idle one with an offered word, and one whose environment moves. -/
theorem witness_EveryStepKeepsTheInvariant :
    (∃ t, { caught with env := [] }.Inv ∧ { caught with env := [] }.busy = true ∧
      step { caught with env := [] } = .next t) ∧
    (∃ t, (State.reset.withFetchWord 112 0x0200000000000000000000000000).Inv ∧
      step (State.reset.withFetchWord 112 0x0200000000000000000000000000) = .next t) ∧
    ∃ t, caught.Inv ∧ step caught = .next t :=
  ⟨⟨_, inv_of_invCheck (by decide +kernel), by decide +kernel, rfl⟩, ⟨_, inv_of_invCheck (by decide), rfl⟩,
    ⟨_, inv_of_invCheck (by decide +kernel), rfl⟩⟩

/-- The last register of the platform, read by the environment. -/
theorem witness_NoStepStopsInASoundState :
    (State.withEnv (l1 true) 0 (.read 2)).Inv ∧ (State.withEnv (l1 true) 0 (.read 2)).envPossible = true :=
  ⟨inv_of_invCheck (by decide), by decide⟩

theorem witness_IllFormedConfigurationHasNoEngine :
    dueAct (idleState { small 8 9 10 with clkPin := 24 } [] true) = none ∧
      configWf (idleState { small 8 9 10 with clkPin := 24 } [] true).cfg = false := by decide

theorem witness_DecodeOfEncodeIsTheCommand :
    Instr.wf (.setb []) = true ∧ Instr.wf (.setb (List.replicate 13 0xff#8)) = true ∧ Instr.wf (.set (ones 104)) = true := by
  decide

theorem witness_OpcodeRowsSelectTheCommand :
    (∃ i, decode 0x0200000000000000000000000001#112 = .ok i) ∧
      ∃ r ∈ opcodeTable, r.hits 0x0200000000000000000000000001#112 = true :=
  ⟨⟨.finish, by decide⟩, ⟨⟨"FINISH", 0x02#8⟩, by decide, by decide⟩⟩

theorem witness_ReservedWordIsAcceptedAndDoesNothing :
    ∃ e, dueAct { l1 true with offers := [0#112, 1#112] } = none ∧ configWf (l1 true).cfg = true ∧
      (l1 true).busy = false ∧ { l1 true with offers := [0#112, 1#112] }.offers = [0#112, 1#112] ∧
      decode 0#112 = .error e :=
  ⟨.reservedOpcode 0#8, by decide⟩

/-- One pair of words for each format with ignored bits: the highest operand bits agree, the lowest ignored bit differs. -/
theorem witness_IgnoredPayloadBitsDoNotMatter :
    opOf 0x0300000000000000000000000180#112 = opOf 0x0300000000000000000000000080#112 ∧
      (∀ j, j < 8 → (payloadOf 0x0300000000000000000000000180#112).getLsbD j =
        (payloadOf 0x0300000000000000000000000080#112).getLsbD j) ∧
      opOf 0x0400000000000000000000000003#112 = opOf 0x0400000000000000000000000001#112 ∧
      (∀ j, j < 1 → (payloadOf 0x0400000000000000000000000003#112).getLsbD j =
        (payloadOf 0x0400000000000000000000000001#112).getLsbD j) ∧
      opOf 0x1200000000000000000000010203#112 = opOf 0x1200000000000000000000000203#112 ∧
      (∀ j, j < 16 → (payloadOf 0x1200000000000000000000010203#112).getLsbD j =
        (payloadOf 0x1200000000000000000000000203#112).getLsbD j) ∧
      ∀ j, j < (l1 true).cfg.nOut → (0x1f#104).getLsbD j = (0x0f#104).getLsbD j := by decide

theorem witness_PseudoInstructionsExpandToOneCommand :
    (List.replicate 9 1#8).length = 9 ∧ ∃ v : Vec, v = (1#104 &&& ones 32) ||| ((2#104 &&& ones 32) <<< 32) |||
      ((3#104 &&& ones (w2Width Config.sample)) <<< 64) :=
  ⟨by decide, _, rfl⟩

theorem witness_MaskBoundsTheVectorRegister :
    ∃ t, (small 8 9 10).nOut ≤ 104 ∧ (l1 true).vreg.toNat < 2 ^ (small 8 9 10).nOut ∧
      exec (.set (ones 104)) (l1 true) = .next t :=
  ⟨_, by decide, by decide, rfl⟩

theorem witness_WordViewsInvertFromWords : (small 8 9 10).nOut ≤ 104 ∧ { Config.sample with nOut := 104 }.nOut ≤ 104 := by decide

theorem witness_FromBytesIsLittleEndianAndZeroFilled : { Config.sample with nOut := 104 }.nOut ≤ 104 := by decide

theorem witness_PackedFormRoundTrips :
    Config.sample.nOut ≤ 104 ∧ maskVec Config.sample vx = vx ∧ (toBytes Config.sample vx).length = packLen Config.sample ∧
      ∀ i, Config.sample.nOut ≤ i → ((toBytes Config.sample vx).getD (i / 8) 0#8).getLsbD (i % 8) = false := by
  refine ⟨by decide, by decide, by decide, fun i hi => ?_⟩
  have hi : 99 ≤ i := hi
  by_cases h : i < 104
  · have hb : ∀ j < 104, 99 ≤ j → ((toBytes Config.sample vx).getD (j / 8) 0#8).getLsbD (j % 8) = false := by
      decide +kernel
    exact hb i h hi
  · have hlen : (toBytes Config.sample vx).length = 13 := by decide
    rw [List.getD_eq_default _ _ (by omega)]
    simp

theorem witness_ChainBHasTheWordForm :
    Config.sample.nOut ≤ 104 ∧ Config.sample.shiftK ≤ Config.sample.wordW ∧ 98 < Config.sample.nOut := by decide

theorem witness_By32InverseRecoversTheCarriedBits : Config.sample.nOut ≤ 104 := by decide

theorem witness_StepRunsTheDecodedCommand :
    dueAct (State.reset.withFetchWord 112 0x0700000000000000000000000000) = none ∧ configWf State.reset.cfg = true ∧
      State.reset.busy = false ∧
      (State.reset.withFetchWord 112 0x0700000000000000000000000000).offers = [0x0700000000000000000000000000#112] ∧
      decode 0x0700000000000000000000000000#112 = .ok .next := by decide

theorem witness_LaidWordIsTheNextCommand :
    configWf State.reset.cfg = true ∧ decodeTableWord 112 0x0700000000000000000000000000 = some .next := by decide


theorem witness_IdleEngineWaits :
    (l1 true).Inv ∧ (l1 true).busy = false ∧ dueAct (l1 true) = none ∧ (l1 true).offers = [] :=
  ⟨inv_of_invCheck (by decide), by decide, by decide, by decide⟩

theorem witness_CommandsWriteOnlyWhatTheirRuleNames : ∃ t, exec .finish (l1 true) = .next t := ⟨_, rfl⟩

theorem witness_HistoryExplainsThePort : ∃ t, step caught = .next t := ⟨_, rfl⟩

theorem witness_EngineAccessesItsOwnRegistersOnly :
    ∃ t, { caught with env := [] }.Inv ∧ step { caught with env := [] } = .next t :=
  ⟨_, inv_of_invCheck (by decide +kernel), rfl⟩

theorem witness_NoCommandChangesForeignBits :
    ∃ t, (State.reset.withFetchWord 112 0x0200000000000000000000000000).Inv ∧
      (State.reset.withFetchWord 112 0x0200000000000000000000000000).busy = false ∧
      dueAct (State.reset.withFetchWord 112 0x0200000000000000000000000000) = none ∧
      step (State.reset.withFetchWord 112 0x0200000000000000000000000000) = .next t :=
  ⟨_, inv_of_invCheck (by decide), by decide, by decide, rfl⟩

/-- After 14 turns, the last event of the frame, and after 15, the WAITMS; at the first frame of the table. -/
theorem witness_NextIsIdleAfterItsFrameAndThenWaits :
    ∀ k ∈ [14, 15], ∃ bytes d, (State.withEnv (l1 true) k (.read 1)).Inv ∧ (State.withEnv (l1 true) k (.read 1)).busy = false ∧
      0 < (l1 true).cfg.frameCount ∧ (l1 true).cfg.frameRom[(l1 true).fidx.toNat]? = some bytes ∧
      (l1 true).cfg.delayRom[(l1 true).fidx.toNat]? = some d ∧
      (frameEvents (State.withEnv (l1 true) k (.read 1)) (fromBytes (l1 true).cfg 9 bytes)).length = 14 := by
  intro k hk
  rcases List.mem_cons.1 hk with rfl | hk
  · exact ⟨_, _, inv_of_invCheck (by decide), by decide, by decide, rfl, rfl, by decide⟩
  · rcases List.mem_singleton.1 hk with rfl
    exact ⟨_, _, inv_of_invCheck (by decide), by decide, by decide, rfl, rfl, by decide⟩

/-- A machine in the wait of NEXT. -/
def waiting : State := { after .next (State.withEnv (l1 true) 15 (.read 1)) with env := [(1, .read 1)] }

/-- In a frame and in the wait of NEXT. -/
theorem witness_BusyEngineAcceptsNoCommand :
    ({ caught with env := [(1, .read 1)] }.Inv ∧ { caught with env := [(1, .read 1)] }.busy = true ∧
      dueAct { caught with env := [(1, .read 1)] } = none ∧ { caught with env := [(1, .read 1)] }.phase ≠ .wait) ∧
    (waiting.Inv ∧ waiting.busy = true ∧ dueAct waiting = none ∧ waiting.phase = .wait) :=
  ⟨⟨inv_of_invCheck (by decide +kernel), by decide +kernel, by decide +kernel, by decide +kernel⟩,
    ⟨inv_of_invCheck (by decide +kernel), by decide +kernel, by decide +kernel, by decide +kernel⟩⟩

theorem witness_WaitEndsWithTheCursorsAdvance : waiting.Inv ∧ waiting.phase = .wait ∧ dueAct waiting = none :=
  ⟨inv_of_invCheck (by decide +kernel), by decide +kernel, by decide +kernel⟩

/-- A command with events and one without, a reset coming right after the acceptance. -/
theorem witness_EnvironmentCanActRightAfterAcceptance :
    ∀ w ∈ [0x0200000000000000000000000000#112, 0x0400000000000000000000000001#112], ∃ i u,
      { State.withEnv (l1 true) 1 (.reset (small 5 9 23)) with offers := [w] }.Inv ∧ (l1 true).busy = false ∧
        decode w = .ok i ∧ exec i { State.withEnv (l1 true) 1 (.reset (small 5 9 23)) with offers := [], env := [] } = .next u := by
  intro w hw
  rcases List.mem_cons.1 hw with rfl | hw
  · exact ⟨.finish, _, inv_of_invCheck (by decide), by decide, by decide, rfl⟩
  · rcases List.mem_singleton.1 hw with rfl
    exact ⟨.fast true, _, inv_of_invCheck (by decide), by decide, by decide, rfl⟩

/-- The brightness pin's own register, 2. -/
theorem witness_ForeignWriteDuringBrightGoesUnnoticed :
    (State.withEnv (idleState { small 8 9 10 with brtPin := some 23 } [] true) 0 (.write 2 1#8)).Inv ∧
      (idleState { small 8 9 10 with brtPin := some 23 } [] true).busy = false ∧
      (idleState { small 8 9 10 with brtPin := some 23 } [] true).cfg.brtPin = some 23 ∧
      2 < (idleState { small 8 9 10 with brtPin := some 23 } [] true).cfg.nRegs ∧
      brightRegister { small 8 9 10 with brtPin := some 23 } = some 2 :=
  ⟨inv_of_invCheck (by decide), by decide, by decide, by decide, by decide⟩

/-- Two foreign writes, the first of which lowers the clock and the second raises it. -/
theorem witness_WithheldEdgeIsAPropertyOfTheHistory :
    ∃ t u, step { l3 true with env := [(0, .write 0 0x00#8), (0, .write 0 0x20#8)] } = .next t ∧ step t = .next u ∧
      t.pins = (l3 true).pins ∧
      stepEndsFrame { l3 true with env := [(0, .write 0 0x00#8), (0, .write 0 0x20#8)] } t = false ∧
      stepEndsFrame t u = false :=
  ⟨_, _, rfl, rfl, rfl, rfl, rfl⟩

/-- The deferred fast frame on one register has 13 events (R152). -/
theorem witness_ForeignRiseSuppliesTheWithheldEdge :
    { State.withEnv (l1 true) 13 (.write 1 0x01#8) with defer := true }.Inv ∧ (l1 true).busy = false ∧ (l1 true).fast = true ∧
      (frameEvents { State.withEnv (l1 true) 13 (.write 1 0x01#8) with defer := true } (maskVec (l1 true).cfg 5#104)).length = 13 ∧
      regOf (l1 true).pins .c = 1 ∧ (0x01#8).getLsbD (pinOf (l1 true).pins .c).bit.val = true :=
  ⟨inv_of_invCheck (by decide), by decide, by decide, by decide, by decide, by decide⟩

/-- A foreign write to a register outside `R` after the last event but one of FINISH, a read before its first, and a write in the wait of
NEXT. -/
theorem witness_PoliteEnvironmentLeavesTheCommandAlone :
    (∃ t, (State.withEnv (l1 true) 1 (.write 2 0xff#8)).Inv ∧ (State.withEnv (l1 true) 1 (.write 2 0xff#8)).busy = false ∧
      politeAct .finish (State.withEnv (l1 true) 1 (.write 2 0xff#8)) (.write 2 0xff#8) = true ∧
      exec .finish (l1 true) = .next t ∧ 1 < (eventsSince (State.withEnv (l1 true) 1 (.write 2 0xff#8)) t).length) ∧
    (∃ t, (State.withEnv (l1 true) 0 (.read 1)).Inv ∧ politeAct .finish (State.withEnv (l1 true) 0 (.read 1)) (.read 1) = true ∧
      exec .finish (l1 true) = .next t ∧ 0 < (eventsSince (State.withEnv (l1 true) 0 (.read 1)) t).length) ∧
    ∃ t, (State.withEnv (l1 true) 15 (.write 2 1#8)).Inv ∧ politeAct .next (State.withEnv (l1 true) 15 (.write 2 1#8)) (.write 2 1#8) = true ∧
      exec .next (l1 true) = .next t ∧ 15 = (eventsSince (State.withEnv (l1 true) 15 (.write 2 1#8)) t).length ∧
      0 < (l1 true).cfg.frameCount :=
  ⟨⟨after .finish (l1 true), inv_of_invCheck (by decide), by decide, by decide, rfl, by decide⟩,
    ⟨after .finish (l1 true), inv_of_invCheck (by decide), by decide, rfl, by decide⟩,
    ⟨after .next (l1 true), inv_of_invCheck (by decide), by decide, rfl, by decide +kernel, by decide⟩⟩

theorem witness_ForeignWriteInsideAPinWriteIsLost :
    (State.withEnv (l1 true) 1 (.write (regOf (l1 true).pins .c) 0#8)).Inv ∧
      (State.withEnv (l1 true) 1 (.write (regOf (l1 true).pins .c) 0#8)).busy = false :=
  ⟨inv_of_invCheck (by decide), by decide⟩

theorem witness_UnspecifiedResetValuesAreNeverRead :
    ∃ t, (l1 true).Inv ∧ (l1 true).busy = false ∧ Memory.wf [(1, 7#8)] = true ∧ Memory.wf [(5, 9#8)] = true ∧
      exec (.set 5#104) (l1 true) = .next t :=
  ⟨_, inv_of_invCheck (by decide), by decide, by decide, by decide, rfl⟩

end Sys2Proof.Tests
end

section
/-! SUPPORT. What the turns of a command touch: the operations of every command name registers of ORDER, all of them but the end of a
wait have an event, and the command's turns do not depend on the environment's script. -/

namespace Sys2Proof.Machine

open Sys2Proof

/-! ### The operations of a command -/

@[simp] theorem actsAt_map_op (phase : Phase) (pos : Option Nat) (ops : List Op) : (actsAt phase pos ops).map Act.op = ops := by
  simp [actsAt, Function.comp_def]

/-- Marking a frame's last event leaves its operations as they are. -/
@[simp] theorem endFrame_map_op (n : Nat) (acts : List Act) : (endFrame n acts).map Act.op = acts.map Act.op := by
  induction acts with
  | nil => rfl
  | cons act acts ih =>
    cases acts with
    | nil => rfl
    | cons act' acts => simpa [endFrame] using ih

/-- An operation of a transmission: it has an event, and a register it names is one of ORDER. -/
def frameOp (pins : Pins) (op : Op) : Prop := opSound pins op = true ∧ op ≠ .advance

theorem frameOp_pinWriteOps {pins : Pins} {x : Line} {v : Bool} {op : Op} (h : op ∈ pinWriteOps x v) : frameOp pins op := by
  simp only [pinWriteOps, List.mem_cons, List.not_mem_nil, or_false] at h
  obtain rfl | rfl := h <;> simp [frameOp, opSound]

theorem frameOp_presentOps {pins : Pins} {a b : Bool} {op : Op} (h : op ∈ presentOps pins a b) : frameOp pins op := by
  obtain ⟨r, hr, rfl⟩ := List.mem_map.1 h
  simp [frameOp, opSound, hr]

theorem frameOp_snapshotOps {pins : Pins} {op : Op} (h : op ∈ snapshotOps pins) : frameOp pins op := by
  obtain ⟨r, hr, rfl⟩ := List.mem_map.1 h
  simp [frameOp, opSound, hr]

theorem frameOp_clkHighOps {pins : Pins} {a b : Bool} {op : Op} (h : op ∈ clkHighOps a b) : frameOp pins op := by
  obtain rfl := List.mem_singleton.1 h
  simp [frameOp, opSound]

theorem frameOp_delay (pins : Pins) : frameOp pins .delay := by simp [frameOp, opSound]

theorem frameOp_safePulse {pins : Pins} {op : Op} (h : op ∈ safePulse) : frameOp pins op := by
  simp only [safePulse, List.mem_append, List.mem_singleton] at h
  obtain ((h | rfl) | h) | rfl := h
  · exact frameOp_pinWriteOps h
  · exact frameOp_delay pins
  · exact frameOp_pinWriteOps h
  · exact frameOp_delay pins

theorem frameOp_safePosition {pins : Pins} {pair : Bool × Bool} {op : Op} (h : op ∈ safePosition pair) : frameOp pins op := by
  have hsplit : safePosition pair = pinWriteOps .a pair.1 ++ pinWriteOps .b pair.2 ++ [.delay] ++ safePulse := by
    simp [safePosition, safePulse]
  simp only [hsplit, List.mem_append, List.mem_singleton] at h
  obtain ((h | h) | rfl) | h := h
  · exact frameOp_pinWriteOps h
  · exact frameOp_pinWriteOps h
  · exact frameOp_delay pins
  · exact frameOp_safePulse h

theorem frameOp_fastPosition {pins : Pins} {withheld : Bool} {pair : Bool × Bool} {op : Op}
    (h : op ∈ fastPosition pins withheld pair) : frameOp pins op := by
  obtain h | h := List.mem_append.1 h
  · exact frameOp_presentOps h
  · cases withheld with
    | true => cases h
    | false => exact frameOp_clkHighOps h

theorem frameOp_txSafe {pins : Pins} {cfg : Config} {v : Vec} {op : Op} (h : op ∈ (txSafe cfg v).map Act.op) :
    frameOp pins op := by
  simp only [txSafe, endFrame_map_op, List.map_append, List.map_flatMap, actsAt_map_op, List.mem_append, List.mem_flatMap,
    List.mem_singleton] at h
  obtain ((((((h | h) | h) | rfl) | ((h | h) | rfl)) | h) | h) | ⟨i, -, h⟩ := h
  · exact frameOp_pinWriteOps h
  · exact frameOp_pinWriteOps h
  · exact frameOp_pinWriteOps h
  · exact frameOp_delay pins
  · exact frameOp_pinWriteOps h
  · exact frameOp_pinWriteOps h
  · exact frameOp_delay pins
  · exact frameOp_safePulse h
  · exact frameOp_safePulse h
  · exact frameOp_safePosition h

theorem frameOp_txFast {cfg : Config} {pins : Pins} {v : Vec} {by32 defer : Bool} {op : Op}
    (h : op ∈ (txFast cfg pins v by32 defer).map Act.op) : frameOp pins op := by
  simp only [txFast, endFrame_map_op, List.map_append, List.map_flatMap, actsAt_map_op, List.mem_append, List.mem_flatMap] at h
  obtain (((h | h) | h | h) | h | h) | ⟨i, -, h⟩ := h
  · exact frameOp_snapshotOps h
  · exact frameOp_presentOps h
  · exact frameOp_presentOps h
  · exact frameOp_clkHighOps h
  · exact frameOp_presentOps h
  · exact frameOp_clkHighOps h
  · exact frameOp_fastPosition h

theorem frameOp_dispatchActs (s : State) : ∀ act ∈ dispatchActs s, frameOp s.pins act.op := by
  intro act h
  have hop : act.op ∈ (dispatchActs s).map Act.op := List.mem_map_of_mem h
  unfold dispatchActs at hop
  split at hop
  · exact frameOp_txFast hop
  · exact frameOp_txSafe hop

theorem frameOp_doFinish (pins : Pins) : ∀ act ∈ doFinish, frameOp pins act.op := by
  intro act h
  have hop : act.op ∈ doFinish.map Act.op := List.mem_map_of_mem h
  rw [doFinish, actsAt_map_op] at hop
  exact frameOp_pinWriteOps hop

/-! ### A command as a run of turns -/

/-- The number of turns that have an event. -/
def eventTurns (acts : List Act) : Nat := acts.countP fun act => decide (act.op ≠ .advance)

theorem eventTurns_eq_length {pins : Pins} {acts : List Act} (h : ∀ act ∈ acts, frameOp pins act.op) :
    eventTurns acts = acts.length :=
  List.countP_eq_length.2 fun act ha => by simpa using (h act ha).2

/-- Each turn but the end of a wait adds one event to the history (R10). -/
theorem foldl_perform_hist_length (acts : List Act) (s : State) :
    (acts.foldl State.perform s).hist.length = s.hist.length + eventTurns acts := by
  induction acts generalizing s with
  | nil => rfl
  | cons act acts ih =>
    have hone : (opEvent s act.op).toList.length = if act.op ≠ .advance then 1 else 0 := by
      have := opEvent_isSome s act.op
      cases hev : opEvent s act.op <;> simp_all
    rw [List.foldl_cons, ih, perform_hist, eventTurns, eventTurns, List.countP_cons, List.length_append, List.length_map, hone]
    simp only [decide_eq_true_eq]
    omega

/-- The turns of a command: they name registers of ORDER only, and those without an event are the end of the wait of a NEXT that
shows a frame. -/
structure CommandTurns (i : Instr) (s : State) (acts : List Act) : Prop where
  sound : ∀ act ∈ acts, opSound s.pins act.op = true
  length : acts.length = eventTurns acts + if i = .next ∧ 0 < s.cfg.frameCount then 1 else 0

theorem commandTurns_of_frameOp {i : Instr} {s : State} {acts : List Act} (hi : i ≠ .next)
    (h : ∀ act ∈ acts, frameOp s.pins act.op) : CommandTurns i s acts :=
  ⟨fun act ha => (h act ha).1, by simp [hi, eventTurns_eq_length h]⟩

theorem commandTurns_next {s : State} {acts : List Act} (hn : s.cfg.frameCount ≠ 0) (d : BitVec 16)
    (h : ∀ act ∈ acts, frameOp s.pins act.op) : CommandTurns .next s (acts ++ holdActs d) where
  sound act ha := by
    rcases List.mem_append.1 ha with ha | ha
    · exact (h act ha).1
    · simp only [holdActs, actsAt, List.map_cons, List.map_nil, List.cons_append, List.nil_append, List.mem_cons,
        List.not_mem_nil, or_false] at ha
      obtain rfl | rfl := ha <;> rfl
  length := by
    have hwait : eventTurns (holdActs d) = 1 := rfl
    have hsum : eventTurns (acts ++ holdActs d) = eventTurns acts + eventTurns (holdActs d) := List.countP_append
    have hlen : (holdActs d).length = 2 := rfl
    rw [hsum, hwait, eventTurns_eq_length h, List.length_append, hlen, if_pos ⟨rfl, Nat.pos_of_ne_zero hn⟩]

/-- A command runs the same turns whatever the environment's script is, or has none and adds no event (R61, R171). -/
theorem exec_is_run {i : Instr} {s t : State} {e : List (Nat × EnvAct)} (h : exec i { s with env := e } = .next t) :
    (∃ x acts, CommandTurns i s acts ∧
      ∀ e', exec i { s with env := e' } = .next ({ s with env := e', vreg := x }.runCommand acts)) ∨
      (t.hist = s.hist ∧ ¬ (i = .next ∧ 0 < s.cfg.frameCount)) := by
  have hload : ∀ x, i ≠ .next → (∀ e', exec i { s with env := e' } = .next (loadAndDispatch x { s with env := e' })) →
      ∃ x acts, CommandTurns i s acts ∧
        ∀ e', exec i { s with env := e' } = .next ({ s with env := e', vreg := x }.runCommand acts) := fun x hi hx =>
    ⟨maskVec s.cfg x, dispatchActs (s.loadVreg x), commandTurns_of_frameOp hi (frameOp_dispatchActs (s.loadVreg x)), hx⟩
  obtain ⟨v, rfl, rfl⟩ | ⟨v, rfl, rfl⟩ | ⟨v, rfl, rfl⟩ | ⟨rfl, -⟩ | ⟨l, rfl, -, rfl⟩ | ⟨l, p, rfl, hp, -⟩ | ⟨x, rfl, -⟩ |
    ⟨bs, rfl, -⟩ | ⟨rfl, hn, rfl⟩ | ⟨rfl, hn, bytes, d, hrec, hd, -⟩ := exec_cases h
  · exact .inr ⟨rfl, by simp⟩
  · exact .inr ⟨rfl, by simp⟩
  · exact .inr ⟨rfl, by simp⟩
  · exact .inl ⟨s.vreg, doFinish, commandTurns_of_frameOp (by simp) (frameOp_doFinish _), fun _ => rfl⟩
  · exact .inr ⟨rfl, by simp⟩
  · refine .inl ⟨s.vreg, actsAt .idle none [.pwm l], commandTurns_of_frameOp (by simp) ?_, fun e' => ?_⟩
    · simp [actsAt, frameOp, opSound]
    · simp only [exec, execBright, show s.cfg.brtPin = some p from hp]
  · exact .inl (hload x (by simp) fun _ => rfl)
  · exact .inl (hload (fromBytes s.cfg bs.length bs) (by simp) fun _ => rfl)
  · exact .inr ⟨rfl, fun hc => hc.2.ne' hn⟩
  · refine .inl ⟨maskVec s.cfg (fromBytes s.cfg s.cfg.frameBytes bytes),
      dispatchActs (s.loadVreg (fromBytes s.cfg s.cfg.frameBytes bytes)) ++ holdActs d,
      commandTurns_next (s := s) hn d (frameOp_dispatchActs (s.loadVreg _)), fun e' => ?_⟩
    simp only [exec, execNext, show s.cfg.frameCount ≠ 0 from hn, show s.cfg.frameRom[s.fidx.toNat]? = some bytes from hrec,
      show s.cfg.delayRom[s.fidx.toNat]? = some d from hd, if_false]
    rfl

/-! ### Runs and the environment's script -/

/-- An act of the engine uses up one turn of the script and reads nothing of it. -/
theorem perform_withScript (s : State) (act : Act) (e : List (Nat × EnvAct)) :
    { s with env := e }.perform act = { s.perform act with env := elapse 1 e } := by
  obtain ⟨phase, pos, op, frameEnd⟩ := act
  cases op <;> rfl

/-- A run whose script has its first act after `k` of the turns stops there, as the same turns without a script leave the machine,
with the other turns pending and the act due. -/
theorem engineRun_stops {acts : List Act} {k : Nat} (s : State) (act : EnvAct) (rest : List (Nat × EnvAct))
    (hk : k < acts.length) :
    engineRun acts { s with env := (k, act) :: rest } =
      { (acts.take k).foldl State.perform s with pending := acts.drop k, env := (0, act) :: rest } := by
  induction acts generalizing s k with
  | nil => simp at hk
  | cons a acts ih =>
    cases k with
    | zero => rfl
    | succ k =>
      have hrun : engineRun (a :: acts) { s with env := (k + 1, act) :: rest } =
          engineRun acts ({ s with env := (k + 1, act) :: rest }.perform a) := rfl
      rw [hrun, perform_withScript]
      exact ih (s.perform a) (Nat.lt_of_succ_lt_succ hk)

/-- Without a script a run comes to its end. -/
theorem engineRun_of_env_nil {acts : List Act} {s : State} (h : s.env = []) :
    engineRun acts s = (acts.foldl State.perform s).complete :=
  engineRun_undisturbed acts s (by simp [State.undisturbed, h])

@[simp] theorem foldl_perform_cfg (acts : List Act) (s : State) : (acts.foldl State.perform s).cfg = s.cfg :=
  List.foldlRecOn (motive := fun u : State => u.cfg = s.cfg) acts _ rfl fun u h act _ => (perform_cfg u act).trans h

@[simp] theorem foldl_perform_pins (acts : List Act) (s : State) : (acts.foldl State.perform s).pins = s.pins :=
  List.foldlRecOn (motive := fun u : State => u.pins = s.pins) acts _ rfl fun u h act _ => (perform_pins u act).trans h

@[simp] theorem foldl_perform_busy (acts : List Act) (s : State) : (acts.foldl State.perform s).busy = s.busy :=
  List.foldlRecOn (motive := fun u : State => u.busy = s.busy) acts _ rfl fun u h act _ => (perform_busy u act).trans h

/-- Without a script none comes up. -/
theorem foldl_perform_env_nil (acts : List Act) {s : State} (h : s.env = []) : (acts.foldl State.perform s).env = [] :=
  List.foldlRecOn (motive := fun u : State => u.env = []) acts _ h fun u hu act _ => by rw [perform_env, hu, elapse_nil]

theorem foldl_perform_port_wf (acts : List Act) {s : State} (h : s.port.wf = true) :
    (acts.foldl State.perform s).port.wf = true :=
  List.foldlRecOn (motive := fun u : State => u.port.wf = true) acts _ h fun u hu act _ => by
    rw [perform_port]
    cases opEvent u act.op with
    | none => exact hu
    | some e => exact portAfter_wf hu e

end Sys2Proof.Machine
end

section
/-! SUPPORT. Noninterference of a polite environment (R10, R62, R226): a foreign access outside ORDER commutes with every turn of the
engine, so a command interrupted by one ends as it would have ended without it, the foreign write standing. -/

namespace Sys2Proof.Machine

open Sys2Proof

/-! ### One foreign access -/

/-- PORT after an act of the environment. -/
def EnvAct.portAfter : EnvAct → Memory → Memory
  | .write r b, m => m.write r b
  | .read _, m => m
  | .reset _, m => m

/-- The act writes no register of ORDER. -/
def EnvAct.foreign (pins : Pins) (act : EnvAct) : Prop := ∀ r b, act = .write r b → r ∉ order pins

theorem foreign_of_politeAct {i : Instr} {s : State} {act : EnvAct} (h : politeAct i s act = true) : act.foreign s.pins := by
  rintro r b rfl
  simp only [politeAct, Bool.and_eq_true, decide_eq_true_eq] at h
  exact fun hr => h.2 (List.mem_append_left _ hr)

/-- A polite act is one the platform can make: it adds one event of the environment and changes PORT at most. -/
theorem envStep_of_politeAct {i : Instr} {s u : State} {act : EnvAct} (h : politeAct i s act = true) (hcfg : u.cfg = s.cfg) :
    ∃ ev, envStep act u = .next { u with port := act.portAfter u.port, hist := (.environment, ev) :: u.hist } := by
  cases act with
  | read r =>
    simp only [politeAct, decide_eq_true_eq] at h
    refine ⟨.rd r (u.port.read r), ?_⟩
    rw [envStep, if_pos (hcfg ▸ h)]
    rfl
  | write r b =>
    simp only [politeAct, Bool.and_eq_true, decide_eq_true_eq] at h
    refine ⟨.wr r b, ?_⟩
    rw [envStep, if_pos (hcfg ▸ h.1)]
    rfl
  | reset straps => cases h

/-- A foreign access changes no register of ORDER. -/
theorem read_portAfter_of_foreign {pins : Pins} {act : EnvAct} {m : Memory} {r : RegId} (ha : act.foreign pins)
    (hm : m.wf = true) (hr : r ∈ order pins) : (act.portAfter m).read r = m.read r := by
  cases act with
  | write r' b =>
    have hne : r' ≠ r := fun h => ha r' b rfl (h ▸ hr)
    rw [EnvAct.portAfter, Memory.read_write hm, if_neg hne]
  | read => rfl
  | reset => rfl

/-- A foreign access commutes with a write to a register of ORDER. -/
theorem write_portAfter_of_foreign {pins : Pins} {act : EnvAct} {m : Memory} {r : RegId} (v : Byte) (ha : act.foreign pins)
    (hm : m.wf = true) (hr : r ∈ order pins) : (act.portAfter m).write r v = act.portAfter (m.write r v) := by
  cases act with
  | write r' b => exact Memory.write_comm hm b v fun h => ha r' b rfl (h ▸ hr)
  | read => rfl
  | reset => rfl

/-! ### The turns after it -/

/-- `v` is `u` but for a foreign access: its write stands in PORT, and the engine's events are the same. The list of pending turns,
which a run reads only as its argument, is left open. -/
structure Touched (act : EnvAct) (u v : State) : Prop where
  state : v = { u with port := act.portAfter u.port, hist := v.hist, pending := v.pending }
  events : engineEvents v.hist = engineEvents u.hist

theorem engineEvents_append (es : List Event) (h : List (Agent × Event)) :
    engineEvents (es.map (Agent.engine, ·) ++ h) = engineEvents h ++ es.reverse := by
  simp [engineEvents, List.filterMap_map]

/-- An operation on registers of ORDER does the same, and emits the same event, beside a foreign access. -/
theorem doOp_touched {act : EnvAct} {op : Op} (s : State) (h : List (Agent × Event)) (rest : List Act)
    (ha : act.foreign s.pins) (hop : opSound s.pins op = true) (hm : s.port.wf = true) :
    { s with port := act.portAfter s.port, hist := h, pending := rest }.doOp op =
      { s.doOp op with
        port := act.portAfter (s.doOp op).port
        hist := (opEvent s op).toList.map (Agent.engine, ·) ++ h
        pending := rest } := by
  have hread : ∀ r ∈ order s.pins, (act.portAfter s.port).read r = s.port.read r := fun r =>
    read_portAfter_of_foreign ha hm
  have hwrite : ∀ r ∈ order s.pins, ∀ b, (act.portAfter s.port).write r b = act.portAfter (s.port.write r b) := fun r hr b =>
    write_portAfter_of_foreign b ha hm hr
  have hline := regOf_mem_order s.pins
  cases op with
  | pinRead x => simp [State.doOp, State.rd, State.emit, opEvent, hread _ (hline x)]
  | pinWrite x w => simp [State.doOp, State.wr, State.emit, opEvent, hwrite _ (hline x)]
  | snapshot r => simp [State.doOp, State.rd, State.capture, State.emit, opEvent, hread r (of_decide_eq_true hop)]
  | table r a b => simp [State.doOp, State.wr, State.emit, opEvent, hwrite r (of_decide_eq_true hop)]
  | clkHigh a b => simp [State.doOp, State.wr, State.emit, opEvent, hwrite _ (hline .c)]
  | delay => rfl
  | pwm level => rfl
  | hold n => rfl
  | advance => rfl

theorem perform_touched {ea : EnvAct} {act : Act} {u v : State} (h : Touched ea u v) (ha : ea.foreign u.pins)
    (hop : opSound u.pins act.op = true) (hm : u.port.wf = true) : Touched ea (u.perform act) (v.perform act) := by
  have hdo := doOp_touched { u with phase := act.phase, pos := act.pos.getD u.pos } v.hist v.pending ha hop hm
  rw [opEvent_placed] at hdo
  have hv : v.perform act = { u.perform act with
      port := ea.portAfter (u.perform act).port
      hist := (opEvent u act.op).toList.map (Agent.engine, ·) ++ v.hist
      pending := v.pending } := by
    rw [h.state]
    simp only [State.perform, hdo]
  refine ⟨by rw [hv], ?_⟩
  rw [hv, perform_hist, engineEvents_append, engineEvents_append, h.events]

theorem foldl_perform_touched {ea : EnvAct} {acts : List Act} {u v : State} (h : Touched ea u v) (ha : ea.foreign u.pins)
    (hops : ∀ act ∈ acts, opSound u.pins act.op = true) (hm : u.port.wf = true) :
    Touched ea (acts.foldl State.perform u) (acts.foldl State.perform v) := by
  induction acts generalizing u v with
  | nil => exact h
  | cons act acts ih =>
    have hwf : (u.perform act).port.wf = true := foldl_perform_port_wf [act] hm
    refine ih (perform_touched h ha (hops act List.mem_cons_self) hm) ?_ ?_ hwf
    · rwa [perform_pins]
    · rw [perform_pins]
      exact fun a h => hops a (List.mem_cons_of_mem _ h)

theorem complete_touched {ea : EnvAct} {u v : State} (h : Touched ea u v) : Touched ea u.complete v.complete :=
  ⟨congrArg State.complete h.state, h.events⟩

/-! ### A step of each agent -/

theorem step_of_envDue {s : State} {act : EnvAct} {rest : List (Nat × EnvAct)} (h : s.env = (0, act) :: rest) :
    step s = envStep act { s with env := rest } := by
  simp [step, dueAct, h]

theorem step_of_busy {s : State} (hdue : dueAct s = none) (hcfg : configWf s.cfg = true) (hbusy : s.busy = true) :
    step s = .next s.resume := by
  simp [step, hdue, hcfg, hbusy]

/-- An ill-formed configuration stops the engine before anything else is looked at (R5, R214). -/
theorem step_of_not_configWf {s : State} (hdue : dueAct s = none) (hcfg : configWf s.cfg = false) :
    step s = .refused .illFormedConfiguration := by
  simp [step, hdue, hcfg]

/-! ### The interrupted run -/

/-- A polite act that is due in the middle of a command happens in one step, and in the next the engine takes the turns left to the
end that they have without the act. -/
theorem polite_act_then_resume {i : Instr} {s u : State} {rest : List Act} {act : EnvAct} (hpol : politeAct i s act = true)
    (hcfg : u.cfg = s.cfg) (hpins : u.pins = s.pins) (hwf : configWf s.cfg = true) (hport : u.port.wf = true)
    (hbusy : u.busy = true) (henv : u.env = []) (hsound : ∀ a ∈ rest, opSound s.pins a.op = true) :
    ∃ t2 t3, step { u with pending := rest, env := [(0, act)] } = .next t2 ∧ step t2 = .next t3 ∧
      Touched act (rest.foldl State.perform u).complete t3 := by
  obtain ⟨ev, hact⟩ := envStep_of_politeAct (u := { u with pending := rest, env := [] }) hpol hcfg
  refine ⟨_, _, (step_of_envDue rfl).trans hact, step_of_busy rfl (hcfg ▸ hwf) hbusy, ?_⟩
  rw [State.resume, engineRun_of_env_nil rfl]
  refine complete_touched (foldl_perform_touched ⟨?_, rfl⟩ ?_ ?_ hport)
  · simp [henv]
  · exact hpins ▸ foreign_of_politeAct hpol
  · exact hpins ▸ hsound

/-- A run that a polite act interrupts after `k` of its turns ends as the run without the act does. -/
theorem run_interrupted_touched {i : Instr} {s r : State} {acts : List Act} {k : Nat} {act : EnvAct}
    (hpol : politeAct i s act = true) (hcfg : r.cfg = s.cfg) (hpins : r.pins = s.pins) (hwf : configWf s.cfg = true)
    (hport : r.port.wf = true) (hbusy : r.busy = true) (henv : r.env = []) (hk : k < acts.length)
    (hsound : ∀ a ∈ acts, opSound s.pins a.op = true) :
    ∃ t2 t3, (engineRun acts { r with env := [(k, act)] }).busy = true ∧
      step (engineRun acts { r with env := [(k, act)] }) = .next t2 ∧ step t2 = .next t3 ∧
      Touched act (engineRun acts r) t3 := by
  have hmidBusy : ((acts.take k).foldl State.perform r).busy = true := (foldl_perform_busy ..).trans hbusy
  obtain ⟨t2, t3, h12, h23, htouched⟩ := polite_act_then_resume (u := (acts.take k).foldl State.perform r)
    (rest := acts.drop k) hpol ((foldl_perform_cfg ..).trans hcfg) ((foldl_perform_pins ..).trans hpins) hwf
    (foldl_perform_port_wf _ hport) hmidBusy (foldl_perform_env_nil _ henv) fun a ha => hsound a (List.mem_of_mem_drop ha)
  rw [← List.foldl_append, List.take_append_drop] at htouched
  rw [engineRun_stops r act [] hk, engineRun_of_env_nil henv]
  exact ⟨t2, t3, hmidBusy, h12, h23, htouched⟩

/-- A foreign access leaves the levels of the lines. -/
theorem lineLevel_portAfter {pins : Pins} {act : EnvAct} {m : Memory} (ha : act.foreign pins) (hm : m.wf = true) (x : Line) :
    lineLevel pins (act.portAfter m) x = lineLevel pins m x := by
  rw [lineLevel, read_portAfter_of_foreign ha hm (regOf_mem_order pins x), lineLevel]

theorem eventsSince_length (s t : State) : (eventsSince s t).length = t.hist.length - s.hist.length := by
  simp [eventsSince]

end Sys2Proof.Machine
end

section
/-! SUPPORT. The statements of the family 00_scope.md. -/

namespace Sys2Proof.Machine

open Sys2Proof

/-- Settles O5: with no act due, `step` looks at the configuration first. -/
theorem illFormedConfigurationHasNoEngine : Obligations.IllFormedConfigurationHasNoEngine := fun _ hdue hcfg =>
  step_of_not_configWf hdue hcfg

/-- Settles O45: the command is a run of turns on registers of ORDER, and the polite act commutes with each turn that comes after
it. -/
theorem politeEnvironmentLeavesTheCommandAlone : Obligations.PoliteEnvironmentLeavesTheCommandAlone := by
  intro i s t k act hinv hidle henv hpol hexec hk
  rw [eventsSince_length] at hk
  obtain ⟨x, acts, hturns, hrun⟩ | ⟨hquiet, hnot⟩ := exec_is_run hexec
  case inr =>
    rw [hquiet, if_neg hnot] at hk
    omega
  have ht : t = engineRun acts { s with env := [], vreg := x, busy := true } :=
    (Host.Outcome.next.inj ((hrun []).symm.trans hexec)).symm
  have htfold := engineRun_of_env_nil (acts := acts) (s := { s with env := [], vreg := x, busy := true }) rfl
  have hlen : t.hist.length = s.hist.length + eventTurns acts := by
    rw [ht, htfold]
    exact foldl_perform_hist_length ..
  have hlt : k < acts.length := by
    rw [hturns.length]
    omega
  have htport : t.port.wf = true := by
    rw [ht, htfold]
    exact foldl_perform_port_wf _ hinv.portWf
  have hfirst : exec i s = .next (engineRun acts { s with env := [(k, act)], vreg := x, busy := true }) := henv ▸ hrun s.env
  obtain ⟨t2, t3, hbusy, h12, h23, htouched⟩ :=
    run_interrupted_touched (r := { s with env := [], vreg := x, busy := true }) hpol rfl rfl hinv.config hinv.portWf rfl rfl
      hlt hturns.sound
  rw [← ht] at htouched
  refine ⟨_, t2, t3, hfirst, hbusy, h12, h23, htouched.events, ?_⟩
  rw [htouched.state]
  refine ⟨lineLevel_portAfter (foreign_of_politeAct hpol) htport, fun r => ?_, rfl, rfl, rfl, rfl, rfl, rfl, rfl, rfl, rfl, rfl,
    rfl⟩
  cases act with
  | write r' b => exact Memory.read_write htport r' r b
  | read => rfl
  | reset => rfl

end Sys2Proof.Machine
end

section
/-! SUPPORT. PORT and the history move on together: over a step of any agent the history only grows, and PORT is what the new events
make of it. So the trace of the lines over several steps is put together from the traces of each. -/

namespace Sys2Proof.Machine

open Sys2Proof

/-! ### The new events of a state -/

/-- The new events, read off what stands in front of the old history. -/
theorem eventsSince_of_hist {s t : State} {new : List (Agent × Event)} (h : t.hist = new ++ s.hist) :
    eventsSince s t = (new.map Prod.snd).reverse := by
  simp [eventsSince, h]

/-- Over two stretches the new events are those of the first and then those of the second. -/
theorem eventsSince_append {s t u : State} (hst : s.hist <:+ t.hist) (htu : t.hist <:+ u.hist) :
    eventsSince s u = eventsSince s t ++ eventsSince t u := by
  obtain ⟨new, hnew⟩ := hst
  obtain ⟨new', hnew'⟩ := htu
  have hall : u.hist = (new' ++ new) ++ s.hist := by rw [List.append_assoc, hnew, hnew']
  rw [eventsSince_of_hist hall, eventsSince_of_hist hnew.symm, eventsSince_of_hist hnew'.symm, List.map_append,
    List.reverse_append]

theorem replay_cons (m : Memory) (e : Event) (es : List Event) : replay m (e :: es) = replay (portAfter m e) es := by
  cases e <;> rfl

theorem replay_append (m : Memory) (es es' : List Event) : replay m (es ++ es') = replay (replay m es) es' := by
  induction es generalizing m with
  | nil => rfl
  | cons e es ih => rw [List.cons_append, replay_cons, replay_cons, ih]

/-- Only a `WR` can make the chips sample (R150). -/
theorem lineTrace_cons (pins : Pins) (m : Memory) (e : Event) (es : List Event) :
    lineTrace pins m (e :: es) = sampleOf pins m (portAfter m e) ++ lineTrace pins (portAfter m e) es := by
  cases e <;> simp [lineTrace, portAfter, sampleOf]

theorem lineTrace_append (pins : Pins) (m : Memory) (es es' : List Event) :
    lineTrace pins m (es ++ es') = lineTrace pins m es ++ lineTrace pins (replay m es) es' := by
  induction es generalizing m with
  | nil => rfl
  | cons e es ih => rw [List.cons_append, lineTrace_cons, lineTrace_cons, replay_cons, ih, List.append_assoc]

/-! ### What every agent keeps -/

/-- `t` is reached from `s`: the history has grown, and PORT is what the new events make of it (R51, R61). -/
structure Follows (s t : State) : Prop where
  hist : s.hist <:+ t.hist
  port : t.port = replay s.port (eventsSince s t)

theorem Follows.of_no_event {s t : State} (hh : t.hist = s.hist) (hp : t.port = s.port) : Follows s t where
  hist := ⟨[], hh.symm⟩
  port := by rw [eventsSince_of_hist (new := []) hh, hp]; rfl

theorem Follows.of_event {s t : State} {who : Agent} {e : Event} (hh : t.hist = (who, e) :: s.hist)
    (hp : t.port = portAfter s.port e) : Follows s t where
  hist := ⟨[(who, e)], hh.symm⟩
  port := by rw [eventsSince_of_hist (new := [(who, e)]) hh, hp]; exact (replay_cons s.port e []).symm

theorem Follows.trans {s t u : State} (h : Follows s t) (h' : Follows t u) : Follows s u where
  hist := h.hist.trans h'.hist
  port := by rw [eventsSince_append h.hist h'.hist, replay_append, ← h.port, h'.port]

theorem perform_follows (s : State) (act : Act) : Follows s (s.perform act) := by
  have hhist := perform_hist s act
  have hport := perform_port s act
  cases hev : opEvent s act.op with
  | none =>
    rw [hev] at hhist hport
    exact .of_no_event hhist hport
  | some e =>
    rw [hev] at hhist hport
    exact .of_event hhist hport

/-- A run of the engine from a state with the same history and PORT. -/
theorem engineRun_follows {s v : State} (acts : List Act) (hh : v.hist = s.hist) (hp : v.port = s.port) :
    Follows s (engineRun acts v) :=
  engineRun_induction (P := Follows s) (fun act _ u hu => hu.trans (perform_follows u act))
    (fun _ hu => ⟨hu.hist, hu.port⟩) (fun _ _ hu => ⟨hu.hist, hu.port⟩) (.of_no_event hh hp)

theorem exec_follows {i : Instr} {s t : State} (h : exec i s = .next t) : Follows s t := by
  obtain ⟨v, -, rfl⟩ | ⟨v, -, rfl⟩ | ⟨v, -, rfl⟩ | ⟨-, rfl⟩ | ⟨l, -, -, rfl⟩ | ⟨l, p, -, -, rfl⟩ | ⟨x, -, rfl⟩ |
    ⟨bs, -, rfl⟩ | ⟨-, -, rfl⟩ | ⟨-, -, bytes, d, -, -, rfl⟩ := exec_cases h
  · exact .of_no_event rfl rfl
  · exact .of_no_event rfl rfl
  · exact .of_no_event rfl rfl
  · exact engineRun_follows _ rfl rfl
  · exact .of_no_event rfl rfl
  · exact engineRun_follows _ rfl rfl
  · exact engineRun_follows _ rfl rfl
  · exact engineRun_follows _ rfl rfl
  · exact .of_no_event rfl rfl
  · exact engineRun_follows _ rfl rfl

theorem envStep_follows {act : EnvAct} {s t : State} (h : envStep act s = .next t) : Follows s t := by
  obtain ⟨r, -, -, rfl⟩ | ⟨r, b, -, -, rfl⟩ | ⟨cfg, -, rfl⟩ := envStep_cases h
  · exact .of_event (envRead_hist s r) rfl
  · exact .of_event (envWrite_hist s r b) rfl
  · exact .of_no_event rfl rfl

/-- A step of any agent. -/
theorem step_follows {s t : State} (h : step s = .next t) : Follows s t := by
  obtain ⟨act, rest, -, hact⟩ | ⟨-, -, -, rfl⟩ | ⟨-, -, -, -, rfl⟩ | ⟨-, -, -, w, rest, e, -, -, rfl⟩ |
    ⟨-, -, -, w, rest, i, -, -, hexec⟩ := step_cases h
  · exact .trans (t := { s with env := rest }) (.of_no_event rfl rfl) (envStep_follows hact)
  · exact engineRun_follows _ rfl rfl
  · exact .of_no_event rfl rfl
  · exact .of_no_event rfl rfl
  · exact .trans (t := { s with offers := rest, env := elapse 1 s.env }) (.of_no_event rfl rfl) (exec_follows hexec)

/-- Where no frame ends, the answer stays until an edge (R31). -/
theorem edgePendingStep_of_not_ends {s t : State} (h : stepEndsFrame s t = false) (withheld : Bool) :
    edgePendingStep s t withheld = (withheld && (lineTrace s.pins s.port (eventsSince s t)).isEmpty) := by
  rw [edgePendingStep, edgeWithheld, h, if_neg Bool.false_ne_true]

end Sys2Proof.Machine
end

section
/-! SUPPORT. Every command writes the registers that R33 leaves unspecified before it reads them: VREG is loaded before the frame is
made from it, a PinWrite reads its byte first, and a fast frame begins with the snapshot of every register of ORDER (U1, R27). -/

namespace Sys2Proof.Machine

open Sys2Proof

/-! ### What an operation reads -/

/-- Which of the unspecified values a command has written so far: the byte `t`, and the table entries of some registers. -/
structure Written where
  tmp : Bool
  regs : List RegId

/-- What an operation writes of them. -/
def Written.after (k : Written) : Op → Written
  | .pinRead _ => { k with tmp := true }
  | .snapshot r => { k with regs := r :: k.regs }
  | .pinWrite _ _ => k
  | .delay => k
  | .table _ _ _ => k
  | .clkHigh _ _ => k
  | .pwm _ => k
  | .hold _ => k
  | .advance => k

/-- What an operation reads of them has been written. -/
def Written.covers (pins : Pins) (k : Written) : Op → Prop
  | .pinWrite _ _ => k.tmp = true
  | .table r _ _ => r ∈ k.regs
  | .clkHigh _ _ => regOf pins .c ∈ k.regs
  | .pinRead _ => True
  | .snapshot _ => True
  | .delay => True
  | .pwm _ => True
  | .hold _ => True
  | .advance => True

/-- Operations of which each reads only what has been written before it. -/
inductive WrittenFirst (pins : Pins) : Written → List Op → Prop
  | nil (k : Written) : WrittenFirst pins k []
  | cons {k : Written} {op : Op} {ops : List Op} (hop : k.covers pins op) (hrest : WrittenFirst pins (k.after op) ops) :
    WrittenFirst pins k (op :: ops)

theorem covers_mono {pins : Pins} {k k' : Written} {op : Op} (ht : k.tmp = true → k'.tmp = true) (hr : k.regs ⊆ k'.regs)
    (h : k.covers pins op) : k'.covers pins op := by
  cases op with
  | pinWrite => exact ht h
  | table => exact hr h
  | clkHigh => exact hr h
  | _ => trivial

/-- What has been written stays written. -/
theorem covers_after {pins : Pins} {k : Written} (op : Op) {op' : Op} (h : k.covers pins op') :
    (k.after op).covers pins op' := by
  cases op with
  | pinRead => exact covers_mono (k := k) (fun _ => rfl) (List.Subset.refl _) h
  | snapshot r => exact covers_mono (k := k) id (List.subset_cons_self r _) h
  | _ => exact h

theorem writtenFirst_of_covers {pins : Pins} {k : Written} {ops : List Op} (h : ∀ op ∈ ops, k.covers pins op) :
    WrittenFirst pins k ops := by
  induction ops generalizing k with
  | nil => exact .nil k
  | cons op ops ih =>
    obtain ⟨hop, hops⟩ := List.forall_mem_cons.1 h
    exact .cons hop (ih fun op' h' => covers_after op (hops op' h'))

/-- After the snapshots of some registers their table entries are written. -/
theorem writtenFirst_snapshots {pins : Pins} {k : Written} {regs : List RegId} {ops : List Op}
    (h : WrittenFirst pins { k with regs := regs.reverse ++ k.regs } ops) :
    WrittenFirst pins k (regs.map .snapshot ++ ops) := by
  induction regs generalizing k with
  | nil => exact h
  | cons r regs ih => exact .cons trivial (ih (by simpa [Written.after] using h))

/-! ### The commands -/

theorem covers_presentOps {pins : Pins} {k : Written} {a b : Bool} (h : ∀ r ∈ order pins, r ∈ k.regs) :
    ∀ op ∈ presentOps pins a b, k.covers pins op := by
  intro op hop
  obtain ⟨r, hr, rfl⟩ := List.mem_map.1 hop
  exact h r hr

theorem covers_clkHighOps {pins : Pins} {k : Written} {a b : Bool} (h : ∀ r ∈ order pins, r ∈ k.regs) :
    ∀ op ∈ clkHighOps a b, k.covers pins op := by
  intro op hop
  obtain rfl := List.mem_singleton.1 hop
  exact h _ (regOf_mem_order pins .c)

theorem covers_fastPosition {pins : Pins} {k : Written} {withheld : Bool} {pair : Bool × Bool}
    (h : ∀ r ∈ order pins, r ∈ k.regs) : ∀ op ∈ fastPosition pins withheld pair, k.covers pins op := by
  refine List.forall_mem_append.2 ⟨covers_presentOps h, ?_⟩
  cases withheld with
  | true => simp
  | false => exact covers_clkHighOps h

/-- The wait of NEXT reads none of them. -/
theorem covers_holdActs (pins : Pins) (k : Written) (d : BitVec 16) : ∀ op ∈ (holdActs d).map Act.op, k.covers pins op := by
  simp [holdActs, actsAt, Written.covers]

/-- The fast frame: the snapshot of ORDER, then reads of the table. -/
theorem writtenFirst_txFast {cfg : Config} {pins : Pins} {v : Vec} {by32 defer : Bool} {k : Written} {ops : List Op}
    (h : ∀ k' : Written, ∀ op ∈ ops, k'.covers pins op) :
    WrittenFirst pins k ((txFast cfg pins v by32 defer).map Act.op ++ ops) := by
  have horder : ∀ r ∈ order pins, r ∈ (order pins).reverse ++ k.regs := fun r hr =>
    List.mem_append_left _ (List.mem_reverse.2 hr)
  simp only [txFast, endFrame_map_op, List.map_append, List.map_flatMap, actsAt_map_op, snapshotOps, List.append_assoc]
  refine writtenFirst_snapshots (writtenFirst_of_covers ?_)
  simp only [List.forall_mem_append, List.forall_mem_flatMap]
  exact ⟨covers_presentOps horder, covers_presentOps horder, covers_clkHighOps horder, covers_presentOps horder,
    covers_clkHighOps horder, fun i _ => covers_fastPosition horder, h _⟩

theorem covers_pinWriteOps {pins : Pins} {k : Written} {x : Line} {v : Bool} (h : k.tmp = true) :
    ∀ op ∈ pinWriteOps x v, k.covers pins op := by
  simp [pinWriteOps, Written.covers, h]

theorem covers_safePulse {pins : Pins} {k : Written} (h : k.tmp = true) : ∀ op ∈ safePulse, k.covers pins op := by
  simp only [safePulse, List.forall_mem_append, List.forall_mem_singleton]
  exact ⟨⟨⟨covers_pinWriteOps h, trivial⟩, covers_pinWriteOps h⟩, trivial⟩

theorem covers_safePosition {pins : Pins} {k : Written} {pair : Bool × Bool} (h : k.tmp = true) :
    ∀ op ∈ safePosition pair, k.covers pins op := by
  simp only [safePosition, List.forall_mem_append, List.forall_mem_singleton]
  exact ⟨⟨⟨⟨⟨⟨covers_pinWriteOps h, covers_pinWriteOps h⟩, trivial⟩, covers_pinWriteOps h⟩, trivial⟩, covers_pinWriteOps h⟩,
    trivial⟩

/-- A PinWrite reads the byte `t` before it uses it. -/
theorem writtenFirst_pinWriteOps {pins : Pins} {k : Written} {x : Line} {v : Bool} {ops : List Op}
    (h : ∀ op ∈ ops, { k with tmp := true }.covers pins op) : WrittenFirst pins k (pinWriteOps x v ++ ops) :=
  .cons trivial (.cons rfl (writtenFirst_of_covers h))

/-- The safe frame: a PinWrite, then PinWrites and delays. -/
theorem writtenFirst_txSafe {cfg : Config} {pins : Pins} {v : Vec} {k : Written} {ops : List Op}
    (h : ∀ k' : Written, ∀ op ∈ ops, k'.covers pins op) :
    WrittenFirst pins k ((txSafe cfg v).map Act.op ++ ops) := by
  simp only [txSafe, endFrame_map_op, List.map_append, List.map_flatMap, actsAt_map_op, List.append_assoc]
  refine writtenFirst_pinWriteOps ?_
  simp only [List.forall_mem_append, List.forall_mem_flatMap, List.forall_mem_singleton]
  exact ⟨covers_pinWriteOps rfl, covers_pinWriteOps rfl, trivial, covers_pinWriteOps rfl, covers_pinWriteOps rfl, trivial,
    covers_safePulse rfl, covers_safePulse rfl, fun i _ => covers_safePosition rfl, h _⟩

theorem writtenFirst_dispatchActs (s : State) (k : Written) {ops : List Op} (h : ∀ k' : Written, ∀ op ∈ ops, k'.covers s.pins op) :
    WrittenFirst s.pins k ((dispatchActs s).map Act.op ++ ops) := by
  unfold dispatchActs
  split
  · exact writtenFirst_txFast h
  · exact writtenFirst_txSafe h

theorem writtenFirst_doFinish (pins : Pins) (k : Written) : WrittenFirst pins k (doFinish.map Act.op) :=
  .cons trivial (.cons rfl (.nil _))

/-! ### Two runs -/

/-- The state without the unspecified values. -/
def State.visible (s : State) : State := { s with vreg := 0#104, snap := [], lut := [], tmp := 0#8 }

/-- What a turn does to the rest of the state follows from its event and the rest of the state. -/
theorem perform_visible (s : State) (act : Act) :
    (s.perform act).visible = { (opEvent s act.op).elim s.visible.advanceCursor
        (fun e => { s.visible.emit .engine e with port := portAfter s.port e }) with
      phase := act.phaseAfter
      pos := act.frameEnd.getD (act.pos.getD s.pos)
      env := elapse 1 s.env } := by
  obtain ⟨phase, pos, op, frameEnd⟩ := act
  cases op <;> rfl

/-- Two states that differ in the unspecified values only, and agree on those that have been written. -/
structure AgreeOn (k : Written) (u v : State) : Prop where
  visible : u.visible = v.visible
  tmp : k.tmp = true → u.tmp = v.tmp
  lut : ∀ r ∈ k.regs, ∀ a b, u.lut.read (lutKey r a b) = v.lut.read (lutKey r a b)
  lutWf : u.lut.wf = true
  lutWf' : v.lut.wf = true

theorem AgreeOn.port {k : Written} {u v : State} (h : AgreeOn k u v) : u.port = v.port :=
  (congrArg State.port h.visible :)

theorem AgreeOn.pins {k : Written} {u v : State} (h : AgreeOn k u v) : u.pins = v.pins :=
  (congrArg State.pins h.visible :)

theorem AgreeOn.pos {k : Written} {u v : State} (h : AgreeOn k u v) : u.pos = v.pos :=
  (congrArg State.pos h.visible :)

theorem AgreeOn.env {k : Written} {u v : State} (h : AgreeOn k u v) : u.env = v.env :=
  (congrArg State.env h.visible :)

/-- An operation that reads only written values emits the same event in both. -/
theorem AgreeOn.opEvent_eq {k : Written} {u v : State} {op : Op} (h : AgreeOn k u v) (hop : k.covers u.pins op) :
    opEvent u op = opEvent v op := by
  cases op with
  | pinRead x => simp [opEvent, h.port, h.pins]
  | pinWrite x w => simp [opEvent, h.pins, h.tmp hop]
  | snapshot r => simp [opEvent, h.port]
  | table r a b => simp [opEvent, h.lut r hop]
  | clkHigh a b => simp [opEvent, h.lut _ hop, ← h.pins]
  | delay => rfl
  | pwm level => rfl
  | hold n => rfl
  | advance => rfl

theorem doOp_lut_wf {s : State} (op : Op) (h : s.lut.wf = true) : (s.doOp op).lut.wf = true := by
  cases op with
  | snapshot r => exact Memory.write_wf (Memory.write_wf (Memory.write_wf (Memory.write_wf h ..) ..) ..) ..
  | _ => exact h

/-- What an operation writes of the unspecified values, it writes alike in both. -/
theorem AgreeOn.perform {k : Written} {u v : State} {act : Act} (h : AgreeOn k u v) (hop : k.covers u.pins act.op) :
    AgreeOn (k.after act.op) (u.perform act) (v.perform act) where
  visible := by rw [perform_visible, perform_visible, h.opEvent_eq hop, h.visible, h.port, h.pos, h.env]
  tmp := by
    obtain ⟨phase, pos, op, frameEnd⟩ := act
    cases op with
    | pinRead x =>
      intro _
      change u.port.read (regOf u.pins x) = v.port.read (regOf v.pins x)
      rw [h.port, h.pins]
    | _ => exact h.tmp
  lut := by
    obtain ⟨phase, pos, op, frameEnd⟩ := act
    cases op with
    | snapshot r =>
      intro r' hr' a b
      change ((u.rd r).capture r (u.port.read r)).lut.read _ = ((v.rd r).capture r (v.port.read r)).lut.read _
      rw [capture_lut_read (u.rd r) _ _ h.lutWf, capture_lut_read (v.rd r) _ _ h.lutWf', rd_pins, rd_pins, h.pins, h.port]
      split_ifs with hr
      · rfl
      · exact h.lut r' (List.mem_of_ne_of_mem hr hr') a b
    | _ => exact h.lut
  lutWf := doOp_lut_wf act.op h.lutWf
  lutWf' := doOp_lut_wf act.op h.lutWf'

/-- Two runs of turns that write before they read end, or are interrupted, alike. -/
theorem AgreeOn.engineRun {acts : List Act} {k : Written} {u v : State} (h : AgreeOn k u v)
    (hacts : WrittenFirst u.pins k (acts.map Act.op)) : (engineRun acts u).visible = (engineRun acts v).visible := by
  induction acts generalizing k u v with
  | nil => exact congrArg State.complete h.visible
  | cons act acts ih =>
    obtain - | ⟨hop, hrest⟩ := hacts
    have hdue : u.envDue = v.envDue := (congrArg State.envDue h.visible :)
    rw [Machine.engineRun, Machine.engineRun, hdue]
    split
    · exact congrArg (fun s : State => { s with pending := act :: acts }) h.visible
    · exact ih (h.perform hop) (by rwa [perform_pins])

/-! ### The commands, run twice -/

theorem exec_bright_of_none {s : State} (level : Byte) (h : s.cfg.brtPin = none) : exec (.bright level) s = .next s := by
  simp only [exec, execBright, h]

theorem exec_bright_of_some {s : State} {p : Nat} (level : Byte) (h : s.cfg.brtPin = some p) :
    exec (.bright level) s = .next (s.runCommand (actsAt .idle none [.pwm level])) := by
  simp only [exec, execBright, h]

theorem exec_next_of_empty {s : State} (h : s.cfg.frameCount = 0) : exec .next s = .next s := if_pos h

theorem exec_next_of_frame {s : State} {bytes : List Byte} {d : BitVec 16} (hn : s.cfg.frameCount ≠ 0)
    (hrec : s.cfg.frameRom[s.fidx.toNat]? = some bytes) (hd : s.cfg.delayRom[s.fidx.toNat]? = some d) :
    exec .next s = .next (playFrame bytes d s) := by
  simp only [exec, execNext, hn, hrec, hd, if_false]

/-- A state with other unspecified values. -/
def State.withUnspecified (s : State) (x : Vec) (m m' : Memory) (b : Byte) : State :=
  { s with vreg := x, snap := m, lut := m', tmp := b }

theorem runCommand_withUnspecified {s : State} {acts : List Act} {x : Vec} {m m' : Memory} {b : Byte} (hl : s.lut.wf = true)
    (hl' : m'.wf = true) (hacts : WrittenFirst s.pins ⟨false, []⟩ (acts.map Act.op)) :
    (s.runCommand acts).visible = ((s.withUnspecified x m m' b).runCommand acts).visible := by
  have hagree : AgreeOn ⟨false, []⟩ { s with busy := true } { s.withUnspecified x m m' b with busy := true } :=
    ⟨rfl, nofun, nofun, hl, hl'⟩
  exact hagree.engineRun hacts

/-- Loading VREG and sending the frame, and what comes after it. -/
theorem loadAndRun_withUnspecified {s : State} (y : Vec) {rest : List Act} (x : Vec) (m : Memory) {m' : Memory} (b : Byte)
    (hl : s.lut.wf = true) (hl' : m'.wf = true) (hrest : ∀ k : Written, ∀ op ∈ rest.map Act.op, k.covers s.pins op) :
    ((s.loadVreg y).runCommand (dispatchActs (s.loadVreg y) ++ rest)).visible =
      (((s.withUnspecified x m m' b).loadVreg y).runCommand
        (dispatchActs ((s.withUnspecified x m m' b).loadVreg y) ++ rest)).visible := by
  refine runCommand_withUnspecified (s := s.loadVreg y) (x := maskVec s.cfg y) hl hl' ?_
  rw [List.map_append]
  exact writtenFirst_dispatchActs (s.loadVreg y) _ hrest

theorem exec_withUnspecified {i : Instr} {s t : State} (x : Vec) (m : Memory) {m' : Memory} (b : Byte) (hl : s.lut.wf = true)
    (hl' : m'.wf = true) (h : exec i s = .next t) :
    ∃ t', exec i (s.withUnspecified x m m' b) = .next t' ∧ t.visible = t'.visible := by
  have hload : ∀ y, (loadAndDispatch y s).visible = (loadAndDispatch y (s.withUnspecified x m m' b)).visible := fun y => by
    simpa [loadAndDispatch] using loadAndRun_withUnspecified (rest := []) y x m b hl hl' (by simp)
  obtain ⟨v, rfl, rfl⟩ | ⟨v, rfl, rfl⟩ | ⟨v, rfl, rfl⟩ | ⟨rfl, rfl⟩ | ⟨l, rfl, hp, rfl⟩ | ⟨l, p, rfl, hp, rfl⟩ | ⟨y, rfl, rfl⟩ |
    ⟨bs, rfl, rfl⟩ | ⟨rfl, hn, rfl⟩ | ⟨rfl, hn, bytes, d, hrec, hd, rfl⟩ := exec_cases h
  · exact ⟨_, rfl, rfl⟩
  · exact ⟨_, rfl, rfl⟩
  · exact ⟨_, rfl, rfl⟩
  · exact ⟨_, rfl, runCommand_withUnspecified hl hl' (writtenFirst_doFinish s.pins _)⟩
  · exact ⟨_, exec_bright_of_none l hp, rfl⟩
  · exact ⟨_, exec_bright_of_some l hp, runCommand_withUnspecified hl hl' (.cons trivial (.nil _))⟩
  · exact ⟨_, rfl, hload y⟩
  · exact ⟨_, rfl, hload _⟩
  · exact ⟨_, exec_next_of_empty hn, rfl⟩
  · exact ⟨_, exec_next_of_frame hn hrec hd, loadAndRun_withUnspecified _ x m b hl hl' fun k => covers_holdActs s.pins k d⟩

end Sys2Proof.Machine
end

section
/-! SUPPORT. A deferred fast frame in full: its turns, one for each event, and the clock, which its last PRESENT leaves low (R146,
R148). -/

namespace Sys2Proof.Machine

open Sys2Proof

/-! ### Turns and operations -/

@[simp] theorem elapse_zero (e : List (Nat × EnvAct)) : elapse 0 e = e := by cases e <;> rfl

theorem elapse_elapse (m n : Nat) (e : List (Nat × EnvAct)) : elapse m (elapse n e) = elapse (n + m) e := by
  cases e with
  | nil => rfl
  | cons a e => simp [elapse, Nat.sub_sub]

/-- BUSY, PHASE, POS and the script enter no operation. -/
theorem foldl_doOp_placed (ops : List Op) (s : State) (busy : Bool) (phase : Phase) (pos : Nat) (e : List (Nat × EnvAct)) :
    ops.foldl State.doOp { s with busy := busy, phase := phase, pos := pos, env := e } =
      { ops.foldl State.doOp s with busy := busy, phase := phase, pos := pos, env := e } := by
  induction ops generalizing s with
  | nil => rfl
  | cons op ops ih =>
    have hop : { s with busy := busy, phase := phase, pos := pos, env := e }.doOp op =
        { s.doOp op with busy := busy, phase := phase, pos := pos, env := e } := by cases op <;> rfl
    rw [List.foldl_cons, hop, ih, List.foldl_cons]

theorem perform_eq (s : State) (act : Act) :
    s.perform act = { s.doOp act.op with
      busy := s.busy, phase := act.phaseAfter, pos := (s.perform act).pos, env := elapse 1 s.env } := by
  obtain ⟨phase, pos, op, frameEnd⟩ := act
  cases op <;> rfl

/-- The turns of a command are its operations, one after the other, but for PHASE, POS and the script. -/
theorem foldl_perform_eq (acts : List Act) (s : State) :
    ∃ phase pos, acts.foldl State.perform s =
      { (acts.map Act.op).foldl State.doOp s with
        busy := s.busy, phase := phase, pos := pos, env := elapse acts.length s.env } := by
  induction acts generalizing s with
  | nil => exact ⟨s.phase, s.pos, by rw [List.length_nil, elapse_zero]; rfl⟩
  | cons act acts ih =>
    obtain ⟨phase, pos, h⟩ := ih (s.perform act)
    refine ⟨phase, pos, ?_⟩
    rw [List.foldl_cons, h, perform_busy, perform_env, elapse_elapse, perform_eq, foldl_doOp_placed, Nat.add_comm]
    rfl

/-- A command that the environment leaves alone is its operations, one after the other, and the engine is idle again. -/
theorem runCommand_undisturbed {s : State} {acts : List Act} (h : s.undisturbed acts.length = true) :
    ∃ pos, s.runCommand acts = { (acts.map Act.op).foldl State.doOp s with
      busy := false, phase := .idle, pos := pos, pending := [], env := elapse acts.length s.env } := by
  obtain ⟨phase, pos, hfold⟩ := foldl_perform_eq acts { s with busy := true }
  have hops := foldl_doOp_placed (acts.map Act.op) s true s.phase s.pos s.env
  refine ⟨pos, ?_⟩
  rw [State.runCommand, engineRun_undisturbed acts { s with busy := true } h, hfold, hops]
  rfl

theorem foldl_doOp_cfg (ops : List Op) (s : State) : (ops.foldl State.doOp s).cfg = s.cfg :=
  List.foldlRecOn (motive := fun u : State => u.cfg = s.cfg) ops _ rfl fun u h op _ => (doOp_cfg u op).trans h

theorem foldl_doOp_pins (ops : List Op) (s : State) : (ops.foldl State.doOp s).pins = s.pins :=
  List.foldlRecOn (motive := fun u : State => u.pins = s.pins) ops _ rfl fun u h op _ => (doOp_pins u op).trans h

theorem foldl_doOp_port_wf (ops : List Op) {s : State} (h : s.port.wf = true) : (ops.foldl State.doOp s).port.wf = true :=
  List.foldlRecOn (motive := fun u : State => u.port.wf = true) ops _ h fun u hu op _ => by
    rw [doOp_port]
    cases opEvent u op with
    | none => exact hu
    | some e => exact portAfter_wf hu e

/-! ### The operations of the fast frame -/

/-- The operations of TX_FAST for `n + 1` outputs, the last position apart (R143, R146). -/
theorem txFast_ops {cfg : Config} {n : Nat} (hn : cfg.nOut = n + 1) (pins : Pins) (v : Vec) (by32 defer : Bool) :
    (txFast cfg pins v by32 defer).map Act.op =
      snapshotOps pins ++ (presentOps pins false false ++ fastPosition pins false (true, true) ++
        fastPosition pins false (true, true) ++
        (List.range n).flatMap fun i => fastPosition pins false (splitPair by32 cfg v i)) ++
      fastPosition pins defer (splitPair by32 cfg v n) := by
  have hbefore : (List.range n).flatMap (fun i => fastPosition pins (defer && decide (i + 1 = n + 1)) (splitPair by32 cfg v i)) =
      (List.range n).flatMap fun i => fastPosition pins false (splitPair by32 cfg v i) :=
    List.flatMap_congr fun i hi => by rw [decide_eq_false (by have := List.mem_range.1 hi; omega), Bool.and_false]
  simp only [txFast, endFrame_map_op, List.map_append, List.map_flatMap, actsAt_map_op, hn, List.range_succ,
    List.flatMap_append, hbefore]
  simp [fastPosition]

theorem length_fastPosition (pins : Pins) (withheld : Bool) (pair : Bool × Bool) :
    (fastPosition pins withheld pair).length = (order pins).length + (!withheld).toNat := by
  cases withheld <;> simp [fastPosition, presentOps, clkHighOps]

theorem length_presentEvents (pins : Pins) (port : Memory) (pair : Bool × Bool) :
    (presentEvents pins port pair).length = (order pins).length := by
  simp [presentEvents]

theorem length_pulseEvents (pins : Pins) (port : Memory) (pair : Bool × Bool) :
    (pulseEvents pins port pair).length = (order pins).length + 1 := by
  simp [pulseEvents, length_presentEvents]

/-- A fast frame has a turn for each of its events. -/
theorem length_txFast {cfg : Config} (hn : 1 ≤ cfg.nOut) (pins : Pins) (port : Memory) (v : Vec) (by32 defer : Bool) :
    (txFast cfg pins v by32 defer).length = (fastEvents cfg pins port v by32 defer).length := by
  obtain ⟨n, hn⟩ := Nat.exists_eq_add_of_le' hn
  have hlast : ∀ pair, (if defer then presentEvents pins port pair else pulseEvents pins port pair).length =
      (order pins).length + (!defer).toNat := fun pair => by
    cases defer <;> simp [length_presentEvents, length_pulseEvents]
  rw [← List.length_map (f := Act.op), txFast_ops hn]
  simp [fastEvents, split, hn, List.range_succ, snapshotOps, presentOps, length_fastPosition, length_presentEvents,
    length_pulseEvents, List.length_flatMap, hlast, Function.comp_def]

/-! ### The pins of a well-formed configuration -/

/-- The pin id of a line (R4). -/
def linePin (cfg : Config) : Line → Nat
  | .c => cfg.clkPin
  | .a => cfg.daPin
  | .b => cfg.dbPin

theorem pinOf_resolvePins (cfg : Config) (x : Line) : pinOf (resolvePins cfg) x = resolvePin cfg (linePin cfg x) := by
  cases x <;> rfl

/-- The lines have pin ids of their own, each with an entry in `PINMAP` (R5). -/
theorem linePin_of_configWf {cfg : Config} (h : configWf cfg = true) :
    (∀ x, linePin cfg x < cfg.pinMap.length) ∧ Function.Injective (linePin cfg) := by
  have hmem : ∀ x : Line, x ∈ [Line.c, .a, .b] := fun x => by cases x <;> simp
  have hpresent : pinsPresent cfg = [Line.c, .a, .b].map (linePin cfg) ++ cfg.brtPin.toList := rfl
  simp only [configWf, pinsInRange, pinsDistinct, pinMapSound, hpresent, Bool.and_eq_true, decide_eq_true_eq,
    List.all_eq_true] at h
  obtain ⟨⟨⟨⟨⟨hrange, hids⟩, ⟨hlen, -⟩, -⟩, -⟩, -⟩, -⟩ := h
  exact ⟨fun x => hlen ▸ hrange _ (List.mem_append_left _ (List.mem_map_of_mem (hmem x))),
    fun x y => List.inj_on_of_nodup_map hids.of_append_left (hmem x) (hmem y)⟩

theorem resolvePin_eq {cfg : Config} {p : Nat} (h : p < cfg.pinMap.length) : resolvePin cfg p = cfg.pinMap[p] := by
  simp [resolvePin, h]

/-- The register of a line lies in the bank (R25, R51). -/
theorem State.Inv.regOf_lt {s : State} (h : s.Inv) (x : Line) : regOf s.pins x < s.cfg.nRegs := by
  have hlt := (linePin_of_configWf h.config).1 x
  have hwf := h.config
  simp only [configWf, pinMapSound, Bool.and_eq_true, List.all_eq_true, decide_eq_true_eq] at hwf
  obtain ⟨⟨⟨⟨-, ⟨-, hregs⟩, -⟩, -⟩, -⟩, -⟩ := hwf
  rw [regOf, h.resolved, pinOf_resolvePins, resolvePin_eq hlt]
  exact hregs _ (List.getElem_mem hlt)

/-- No two lines share a pin (R5, R25). -/
theorem State.Inv.pinOf_injective {s : State} (h : s.Inv) : Function.Injective (pinOf s.pins) := by
  intro x y hxy
  obtain ⟨hlt, hinj⟩ := linePin_of_configWf h.config
  have hwf := h.config
  simp only [configWf, pinMapSound, Bool.and_eq_true, decide_eq_true_eq] at hwf
  obtain ⟨⟨⟨⟨-, -, hnodup⟩, -⟩, -⟩, -⟩ := hwf
  rw [h.resolved, pinOf_resolvePins, pinOf_resolvePins, resolvePin_eq (hlt x), resolvePin_eq (hlt y)] at hxy
  exact hinj ((hnodup.getElem_inj_iff).1 hxy)

theorem State.Inv.one_le_nOut {s : State} (h : s.Inv) : 1 ≤ s.cfg.nOut := by
  have hwf := h.config
  simp only [configWf, widthEncodable, Bool.and_eq_true, decide_eq_true_eq] at hwf
  obtain ⟨⟨⟨-, hone, -⟩, -⟩, -⟩ := hwf
  exact hone

/-! ### The clock under PRESENT -/

/-- The table entries of the clock's register have the clock low (R125). -/
def tableLow (pins : Pins) (lut : Memory) : Prop :=
  ∀ a b, (lut.read (lutKey (regOf pins .c) a b)).getLsbD (pinOf pins .c).bit.val = false

theorem pin_eq {p q : Pin} (hreg : p.reg = q.reg) (hbit : p.bit = q.bit) : p = q := by
  obtain ⟨r, i⟩ := p
  obtain ⟨r', i'⟩ := q
  exact congr (congrArg Pin.mk hreg) hbit

/-- No other line has the clock's bit of the clock's register. -/
theorem maskOn_clock_bit {pins : Pins} (h : Function.Injective (pinOf pins)) {y : Line} (hy : y ≠ .c) :
    (maskOn pins y (regOf pins .c)).getLsbD (pinOf pins .c).bit.val = false := by
  rw [maskOn_getLsbD, Bool.and_eq_false_iff, decide_eq_false_iff_not, decide_eq_false_iff_not, ← not_and_or]
  exact fun ⟨hreg, hbit⟩ => hy (h (pin_eq hreg (Fin.ext hbit.symm)))

theorem lutByte_clock_bit {pins : Pins} (h : Function.Injective (pinOf pins)) (x : Byte) (a b : Bool) :
    (lutByte pins (regOf pins .c) x a b).getLsbD (pinOf pins .c).bit.val = false := by
  have hkeep : (keepMask pins (regOf pins .c)).getLsbD (pinOf pins .c).bit.val = false := by
    simp only [keepMask_getLsbD, maskOn_getLsbD pins .c, decide_true, Bool.and_self, Bool.true_or, Bool.not_true, Bool.and_false]
  have hdata : ∀ {y : Line} (w : Bool), y ≠ .c →
      (if w then maskOn pins y (regOf pins .c) else 0#8).getLsbD (pinOf pins .c).bit.val = false := fun w hy => by
    split
    · exact maskOn_clock_bit h hy
    · exact BitVec.getLsbD_zero
  rw [lutByte, BitVec.getLsbD_or, BitVec.getLsbD_or, BitVec.getLsbD_and, hkeep, hdata a (by simp), hdata b (by simp),
    Bool.and_false, Bool.or_self, Bool.or_self]

theorem tableLow_snapshot {s : State} {r : RegId} (hpins : Function.Injective (pinOf s.pins)) (hl : s.lut.wf = true)
    (h : regOf s.pins .c = r ∨ tableLow s.pins s.lut) : tableLow s.pins (s.doOp (.snapshot r)).lut := by
  intro a b
  change (((s.rd r).capture r (s.port.read r)).lut.read _).getLsbD _ = false
  rw [capture_lut_read (s.rd r) _ _ hl]
  split_ifs with hr
  · rw [← hr]
    exact lutByte_clock_bit hpins ..
  · exact h.resolve_left hr a b

/-- The snapshots of ORDER leave the clock low in the table. -/
theorem tableLow_snapshots {s : State} (regs : List RegId) (hpins : Function.Injective (pinOf s.pins)) (hl : s.lut.wf = true)
    (h : regOf s.pins .c ∈ regs ∨ tableLow s.pins s.lut) :
    tableLow s.pins ((regs.map Op.snapshot).foldl State.doOp s).lut := by
  induction regs generalizing s with
  | nil => exact h.resolve_left List.not_mem_nil
  | cons r regs ih =>
    have hrest := ih (s := s.doOp (.snapshot r))
    rw [doOp_pins] at hrest
    rw [List.mem_cons, or_right_comm] at h
    exact hrest hpins (doOp_lut_wf _ hl) (h.symm.imp_right (tableLow_snapshot hpins hl))

/-- PRESENT leaves the clock low, whatever it was. -/
theorem clock_low_tables {s : State} (regs : List RegId) (a b : Bool) (hp : s.port.wf = true) (ht : tableLow s.pins s.lut)
    (h : regOf s.pins .c ∈ regs ∨ lineLevel s.pins s.port .c = false) :
    lineLevel s.pins ((regs.map (Op.table · a b)).foldl State.doOp s).port .c = false := by
  induction regs generalizing s with
  | nil => exact h.resolve_left List.not_mem_nil
  | cons r regs ih =>
    refine ih (s := s.doOp (.table r a b)) (Memory.write_wf hp ..) ht ?_
    rw [List.mem_cons, or_right_comm] at h
    refine h.symm.imp_right fun h => ?_
    change ((s.port.write r (s.lut.read (lutKey r a b))).read _).getLsbD _ = false
    rw [Memory.read_write hp]
    split_ifs with hr
    · rw [hr]
      exact ht a b
    · exact h.resolve_left (Ne.symm hr)

/-- Only snapshots write the table. -/
theorem foldl_doOp_lut {ops : List Op} (s : State) (h : ∀ op ∈ ops, ∀ r, op ≠ .snapshot r) :
    (ops.foldl State.doOp s).lut = s.lut :=
  List.foldlRecOn (motive := fun u : State => u.lut = s.lut) ops _ rfl fun u hu op hop => (doOp_tables u op (h op hop)).2.trans hu

theorem presentOps_not_snapshot {pins : Pins} {a b : Bool} : ∀ op ∈ presentOps pins a b, ∀ r, op ≠ .snapshot r := by
  intro op hop
  obtain ⟨r, -, rfl⟩ := List.mem_map.1 hop
  simp

theorem fastPosition_not_snapshot {pins : Pins} {withheld : Bool} {pair : Bool × Bool} :
    ∀ op ∈ fastPosition pins withheld pair, ∀ r, op ≠ .snapshot r := by
  refine List.forall_mem_append.2 ⟨presentOps_not_snapshot, ?_⟩
  cases withheld <;> simp [clkHighOps]

/-- After the snapshots, a PRESENT leaves the clock low, whatever table writes stand between them. -/
theorem clock_low_present_last {s : State} {between : List Op} (hpins : Function.Injective (pinOf s.pins))
    (hp : s.port.wf = true) (hl : s.lut.wf = true) (hbetween : ∀ op ∈ between, ∀ r, op ≠ .snapshot r) (a b : Bool) :
    lineLevel s.pins ((snapshotOps s.pins ++ between ++ presentOps s.pins a b).foldl State.doOp s).port .c = false := by
  have hclock := regOf_mem_order s.pins .c
  have hlast := clock_low_tables (s := between.foldl State.doOp ((snapshotOps s.pins).foldl State.doOp s)) (order s.pins) a b
  rw [foldl_doOp_pins, foldl_doOp_pins, foldl_doOp_lut _ hbetween] at hlast
  rw [List.foldl_append, List.foldl_append]
  exact hlast (foldl_doOp_port_wf _ (foldl_doOp_port_wf _ hp)) (tableLow_snapshots _ hpins hl (.inl hclock)) (.inl hclock)

/-- R148: a deferred fast frame ends with the clock low, since its last position is a PRESENT alone. -/
theorem clock_low_of_deferred {cfg : Config} {s : State} (hn : 1 ≤ cfg.nOut) (hpins : Function.Injective (pinOf s.pins))
    (hp : s.port.wf = true) (hl : s.lut.wf = true) (v : Vec) (by32 : Bool) :
    lineLevel s.pins (((txFast cfg s.pins v by32 true).map Act.op).foldl State.doOp s).port .c = false := by
  obtain ⟨n, hn⟩ := Nat.exists_eq_add_of_le' hn
  have hwithheld : fastPosition s.pins true (splitPair by32 cfg v n) =
      presentOps s.pins (splitPair by32 cfg v n).1 (splitPair by32 cfg v n).2 := List.append_nil _
  rw [txFast_ops hn, hwithheld]
  refine clock_low_present_last hpins hp hl ?_ _ _
  simp only [List.forall_mem_append, List.forall_mem_flatMap]
  exact ⟨⟨⟨presentOps_not_snapshot, fastPosition_not_snapshot⟩, fastPosition_not_snapshot⟩,
    fun _ _ => fastPosition_not_snapshot⟩

/-! ### The deferred frame, the foreign write, and FINISH -/

/-- Where the clock is high FINISH makes no edge (R147). -/
theorem finish_samples_nothing {s : State} (henv : s.env = []) (hclock : lineLevel s.pins s.port .c = true) :
    lineTrace s.pins s.port (eventsSince s (s.runCommand doFinish)) = [] := by
  have hhist : (s.runCommand doFinish).hist =
      [(Agent.engine, Event.wr (regOf s.pins .c) (pinByte s.pins .c true (s.port.read (regOf s.pins .c)))),
        (Agent.engine, Event.rd (regOf s.pins .c) (s.port.read (regOf s.pins .c)))] ++ s.hist := by
    obtain ⟨pos, hrun⟩ := runCommand_undisturbed (acts := doFinish) (s := s) (by simp [State.undisturbed, henv])
    rw [hrun]
    rfl
  rw [eventsSince_of_hist hhist]
  simp [lineTrace, sampleOf, hclock]

/-- An act of the environment ends no frame. -/
theorem stepEndsFrame_of_envDue {s : State} {act : EnvAct} {rest : List (Nat × EnvAct)} (h : s.env = (0, act) :: rest) (t : State) :
    stepEndsFrame s t = false := by
  simp [stepEndsFrame, dueAct, h]

/-- A foreign write that raises the clock is an edge (R31, R62). -/
theorem edgePendingStep_of_rise {s : State} {r : RegId} {b : Byte} {rest : List (Nat × EnvAct)}
    (henv : s.env = (0, .write r b) :: rest) (hlow : lineLevel s.pins s.port .c = false)
    (hhigh : lineLevel s.pins (s.port.write r b) .c = true) :
    edgePendingStep s (envWrite r b { s with env := rest }) true = false := by
  rw [edgePendingStep_of_not_ends (stepEndsFrame_of_envDue henv _),
    eventsSince_of_hist (new := [(.environment, .wr r b)]) rfl]
  simp [lineTrace, sampleOf, hlow, hhigh]

/-- A deferred fast SET up to the act of the environment that comes after its last event: nothing of the frame is left, and the clock is
low (R146, R148). -/
theorem exec_set_deferred {s : State} (vec : Vec) {act : EnvAct} (hinv : s.Inv) (hfast : s.fast = true) (hdefer : s.defer = true)
    (henv : s.env = [((frameEvents s (maskVec s.cfg vec)).length, act)]) :
    ∃ t, exec (.set vec) s = .next t ∧ t.cfg = s.cfg ∧ t.pins = s.pins ∧ t.env = [(0, act)] ∧ t.port.wf = true ∧
      t.pending = [] ∧ lineLevel s.pins t.port .c = false := by
  have hn := hinv.one_le_nOut
  have hacts : dispatchActs (s.loadVreg vec) = txFast s.cfg s.pins (maskVec s.cfg vec) s.by32 true := by
    rw [dispatchActs, loadVreg_fast, if_pos hfast, loadVreg_defer, hdefer]
    rfl
  have hframe : frameEvents s (maskVec s.cfg vec) = fastEvents s.cfg s.pins s.port (maskVec s.cfg vec) s.by32 true := by
    rw [frameEvents, if_pos hfast, hdefer]
  rw [hframe, ← length_txFast hn] at henv
  obtain ⟨pos, hrun⟩ := runCommand_undisturbed (s := s.loadVreg vec)
    (acts := txFast s.cfg s.pins (maskVec s.cfg vec) s.by32 true) (by simp [State.undisturbed, henv])
  rw [← hacts] at hrun
  refine ⟨_, congrArg Host.Outcome.next hrun, foldl_doOp_cfg _ (s.loadVreg vec), foldl_doOp_pins _ (s.loadVreg vec), ?_,
    foldl_doOp_port_wf _ hinv.portWf, rfl, ?_⟩
  · rw [loadVreg_env, henv, elapse_cons, hacts, Nat.sub_self]
  · have hclock := clock_low_of_deferred (s := s.loadVreg vec) hn hinv.pinOf_injective hinv.portWf hinv.lutWf
      (maskVec s.cfg vec) s.by32
    rw [loadVreg_pins] at hclock
    dsimp only
    rw [hacts]
    exact hclock

end Sys2Proof.Machine
end

section
/-! SUPPORT. The statements of the family 10_state.md. -/

namespace Sys2Proof.Machine

open Sys2Proof

/-- Settles O47: each command writes those values before it reads them, so its two runs show the same. -/
theorem unspecifiedResetValuesAreNeverRead : Obligations.UnspecifiedResetValuesAreNeverRead := by
  intro i s t x m m' b hinv _ _ hl' hexec
  obtain ⟨t', hexec', hvis⟩ := exec_withUnspecified x m b hinv.lutWf hl' hexec
  have heq {α : Type} (f : State → α) : f t'.visible = f t.visible := congrArg f hvis.symm
  exact ⟨t', hexec', heq State.hist, heq State.port, heq State.busy, heq State.phase, heq State.pos, heq State.fast,
    heq State.by32, heq State.defer, heq State.fidx, heq State.dir, heq State.offers, heq State.env, heq State.pending⟩

/-- Settles O52: the trace over the two steps is the trace over the first and then, from the PORT that the first leaves, the trace over
the second. -/
theorem withheldEdgeIsAPropertyOfTheHistory : Obligations.WithheldEdgeIsAPropertyOfTheHistory := by
  intro s t u withheld hst htu hpins hends hends'
  have hfirst := step_follows hst
  have hsecond := step_follows htu
  rw [edgePendingStep_of_not_ends hends, edgePendingStep_of_not_ends hends', eventsSince_append hfirst.hist hsecond.hist,
    lineTrace_append, ← hfirst.port, hpins, Bool.eq_iff_iff]
  simp [and_assoc]

/-- Settles O53: the frame leaves the clock low, so the write is an edge, and it leaves the clock high, so FINISH makes none. -/
theorem foreignRiseSuppliesTheWithheldEdge : Obligations.ForeignRiseSuppliesTheWithheldEdge := by
  intro vec s b hinv _ hfast hdefer henv hb
  obtain ⟨t, hexec, hcfg, hpins, htenv, hport, hpending, hlow⟩ := exec_set_deferred vec hinv hfast hdefer henv
  set u := envWrite (regOf s.pins .c) b { t with env := [] }
  have hhigh : lineLevel s.pins (t.port.write (regOf s.pins .c) b) .c = true := by
    rw [lineLevel, Memory.read_write hport, if_pos rfl]
    exact hb
  have hstep : step t = .next u := by
    rw [step_of_envDue htenv]
    exact if_pos (hcfg ▸ hinv.regOf_lt .c)
  refine ⟨t, u, _, hexec, ?_, hstep, ?_, rfl, ?_, rfl⟩
  · simp [edgePendingAfter, commandEndsFrame, edgeWithheld, sendsFrame, frameUnderWay, hpending, hfast, hdefer]
  · exact edgePendingStep_of_rise htenv (hpins ▸ hlow) (hpins ▸ hhigh)
  · have huhigh : lineLevel u.pins u.port .c = true := (congrArg (lineLevel · u.port .c) hpins).trans hhigh
    rw [← hpins]
    exact finish_samples_nothing rfl huhigh

end Sys2Proof.Machine
end

section
/-! SUPPORT. What a step of any agent adds to the history (R51, R61): nothing, one access of the environment, or the events of some
turns of the engine; every `RD` among them returns the byte that PORT holds, and the engine's accesses name registers of ORDER. -/

namespace Sys2Proof.Machine

open Sys2Proof

/-! ### One step -/

theorem readsLastWritten_rd (m : Memory) (r : RegId) : readsLastWritten m [.rd r (m.read r)] = true := by
  simp [readsLastWritten]

/-- What takes `s` to `t`, as far as the history shows it. -/
inductive Adds (s t : State) : Prop where
  /-- No event: a reset, a command without events, or an engine that waits. -/
  | nothing (hist : t.hist = s.hist)
  /-- One access of the environment. -/
  | foreign (e : Event) (hist : t.hist = (.environment, e) :: s.hist) (reads : readsLastWritten s.port [e] = true)
  /-- A run of the engine: the turns of a new command, or those left of the command under way. -/
  | turns (acts : List Act) (v : State) (hist : v.hist = s.hist) (port : v.port = s.port) (pins : v.pins = s.pins)
      (sound : acts = s.pending ∨ ∀ act ∈ acts, opSound s.pins act.op = true) (run : t = engineRun acts v)

theorem adds_of_exec {i : Instr} {s t : State} (h : exec i s = .next t) : Adds s t := by
  obtain ⟨x, acts, hturns, hrun⟩ | ⟨hhist, -⟩ := exec_is_run (s := s) (e := s.env) h
  · exact .turns acts { s with vreg := x, busy := true } rfl rfl rfl (.inr hturns.sound)
      (Host.Outcome.next.inj (h.symm.trans (hrun s.env)))
  · exact .nothing hhist

theorem adds_of_envStep {act : EnvAct} {s t : State} (h : envStep act s = .next t) : Adds s t := by
  obtain ⟨r, -, -, rfl⟩ | ⟨r, b, -, -, rfl⟩ | ⟨cfg, -, rfl⟩ := envStep_cases h
  · exact .foreign _ (envRead_hist s r) (readsLastWritten_rd s.port r)
  · exact .foreign _ (envWrite_hist s r b) rfl
  · exact .nothing rfl

/-- The host's stream and the environment's script are no part of the history. -/
theorem Adds.of_scripts {s t : State} {offers : List CmdWord} {env : List (Nat × EnvAct)}
    (h : Adds { s with offers := offers, env := env } t) : Adds s t := by
  cases h with
  | nothing hhist => exact .nothing hhist
  | foreign e hhist hreads => exact .foreign e hhist hreads
  | turns acts v hhist hport hpins hsound hrun => exact .turns acts v hhist hport hpins hsound hrun

theorem adds_of_step {s t : State} (h : step s = .next t) : Adds s t := by
  obtain ⟨act, rest, -, hact⟩ | ⟨-, -, -, rfl⟩ | ⟨-, -, -, -, rfl⟩ | ⟨-, -, -, w, rest, e, -, -, rfl⟩ |
    ⟨-, -, -, w, rest, i, -, -, hexec⟩ := step_cases h
  · exact (adds_of_envStep hact).of_scripts
  · exact .turns s.pending s rfl rfl rfl (.inl rfl) rfl
  · exact .nothing rfl
  · exact .nothing rfl
  · exact (adds_of_exec hexec).of_scripts

/-! ### Reads return the byte last written -/

theorem readsLastWritten_cons (m : Memory) (e : Event) (es : List Event) :
    readsLastWritten m (e :: es) = (readsLastWritten m [e] && readsLastWritten (portAfter m e) es) := by
  cases e <;> simp [readsLastWritten, portAfter]

theorem readsLastWritten_append (m : Memory) (es es' : List Event) :
    readsLastWritten m (es ++ es') = (readsLastWritten m es && readsLastWritten (replay m es) es') := by
  induction es generalizing m with
  | nil => rfl
  | cons e es ih =>
    rw [List.cons_append, readsLastWritten_cons, ih, readsLastWritten_cons m e es, replay_cons, Bool.and_assoc]

/-- An operation that reads, reads PORT as it is (R51). -/
theorem opEvent_reads {s : State} {op : Op} {e : Event} (h : opEvent s op = some e) : readsLastWritten s.port [e] = true := by
  cases op with
  | pinRead x => cases h; exact readsLastWritten_rd ..
  | snapshot r => cases h; exact readsLastWritten_rd ..
  | advance => cases h
  | _ => cases h; rfl

theorem perform_reads (s : State) (act : Act) : readsLastWritten s.port (eventsSince s (s.perform act)) = true := by
  have hhist := perform_hist s act
  rw [eventsSince_of_hist hhist]
  cases hev : opEvent s act.op with
  | none => rfl
  | some e => exact opEvent_reads hev

/-- The engine's reads along a run see its own writes before them. -/
theorem engineRun_reads {s v : State} (acts : List Act) (hh : v.hist = s.hist) (hp : v.port = s.port) :
    readsLastWritten s.port (eventsSince s (engineRun acts v)) = true := by
  refine And.right (engineRun_induction (acts := acts) (s := v)
    (P := fun u => Follows s u ∧ readsLastWritten s.port (eventsSince s u) = true)
    (fun act _ u ⟨hfollows, hreads⟩ => ?_) (fun u ⟨hfollows, hreads⟩ => ⟨⟨hfollows.hist, hfollows.port⟩, hreads⟩)
    (fun u _ ⟨hfollows, hreads⟩ => ⟨⟨hfollows.hist, hfollows.port⟩, hreads⟩) ⟨.of_no_event hh hp, ?_⟩)
  · have hact := perform_follows u act
    refine ⟨hfollows.trans hact, ?_⟩
    rw [eventsSince_append hfollows.hist hact.hist, readsLastWritten_append, ← hfollows.port, hreads, perform_reads]
    rfl
  · rw [eventsSince_of_hist (new := []) hh]
    rfl

theorem step_reads {s t : State} (h : step s = .next t) : readsLastWritten s.port (eventsSince s t) = true := by
  cases adds_of_step h with
  | nothing hhist =>
    rw [eventsSince_of_hist (new := []) hhist]
    rfl
  | foreign e hhist hreads =>
    rw [eventsSince_of_hist (new := [(.environment, e)]) hhist]
    exact hreads
  | turns acts v hhist hport _ _ hrun => exact hrun ▸ engineRun_reads acts hhist hport

/-! ### The engine's registers -/

/-- ORDER holds the registers of the lines and no other (R122). -/
theorem exists_regOf_of_mem_order {pins : Pins} {r : RegId} (h : r ∈ order pins) : ∃ x, r = regOf pins x := by
  simp only [order, List.mem_append, List.mem_singleton, List.mem_ite_nil_left] at h
  obtain (rfl | ⟨-, rfl⟩) | ⟨-, rfl⟩ := h
  · exact ⟨.c, rfl⟩
  · exact ⟨.a, rfl⟩
  · exact ⟨.b, rfl⟩

/-- ORDER lies in the register bank (R51). -/
theorem State.Inv.lt_of_mem_order {s : State} (h : s.Inv) {r : RegId} (hr : r ∈ order s.pins) : r < s.cfg.nRegs := by
  obtain ⟨x, rfl⟩ := exists_regOf_of_mem_order hr
  exact h.regOf_lt x

/-- A sound operation accesses a register of ORDER: one it names itself, or a line's. -/
theorem opEvent_reg_mem_order {s : State} {op : Op} {e : Event} {r : RegId} (hop : opSound s.pins op = true)
    (hev : opEvent s op = some e) (hr : e.reg? = some r) : r ∈ order s.pins := by
  have hline := regOf_mem_order s.pins
  cases op with
  | pinRead x => cases hev; cases hr; exact hline x
  | pinWrite x w => cases hev; cases hr; exact hline x
  | clkHigh a b => cases hev; cases hr; exact hline .c
  | snapshot r' => cases hev; cases hr; exact of_decide_eq_true hop
  | table r' a b => cases hev; cases hr; exact of_decide_eq_true hop
  | delay => cases hev; cases hr
  | pwm level => cases hev; cases hr
  | hold n => cases hev; cases hr
  | advance => cases hev

/-- From `s` to `t` the history has grown, and the engine has accessed registers of ORDER only. -/
def EngineKeepsToOrder (s t : State) : Prop :=
  ∃ new : List (Agent × Event), t.hist = new ++ s.hist ∧
    ∀ e r, (Agent.engine, e) ∈ new → e.reg? = some r → r ∈ order s.pins

theorem perform_keepsToOrder {s : State} {act : Act} (hop : opSound s.pins act.op = true) :
    EngineKeepsToOrder s (s.perform act) := by
  refine ⟨_, perform_hist s act, fun e r he hr => ?_⟩
  obtain ⟨e', he', heq⟩ := List.mem_map.1 he
  cases heq
  exact opEvent_reg_mem_order hop (Option.mem_toList.1 he') hr

theorem EngineKeepsToOrder.trans {s t u : State} (h : EngineKeepsToOrder s t) (h' : EngineKeepsToOrder t u)
    (hpins : t.pins = s.pins) : EngineKeepsToOrder s u := by
  obtain ⟨new, hhist, hnew⟩ := h
  obtain ⟨new', hhist', hnew'⟩ := h'
  refine ⟨new' ++ new, by rw [hhist', hhist, List.append_assoc], fun e r he hr => ?_⟩
  obtain he | he := List.mem_append.1 he
  · exact hpins ▸ hnew' e r he hr
  · exact hnew e r he hr

theorem engineRun_keepsToOrder {s v : State} {acts : List Act} (hh : v.hist = s.hist) (hpins : v.pins = s.pins)
    (hsound : ∀ act ∈ acts, opSound s.pins act.op = true) : EngineKeepsToOrder s (engineRun acts v) := by
  refine And.right (engineRun_induction (acts := acts) (s := v) (P := fun u => u.pins = s.pins ∧ EngineKeepsToOrder s u)
    (fun act hact u ⟨hu, hkeeps⟩ => ?_) (fun _ hu => hu) (fun _ _ hu => hu) ⟨hpins, [], hh, by simp⟩)
  exact ⟨(perform_pins u act).trans hu, hkeeps.trans (perform_keepsToOrder (hu ▸ hsound act hact)) hu⟩

theorem step_keepsToOrder {s t : State} (hinv : s.Inv) (h : step s = .next t) : EngineKeepsToOrder s t := by
  cases adds_of_step h with
  | nothing hhist => exact ⟨[], hhist, by simp⟩
  | foreign e hhist _ => exact ⟨[(.environment, e)], hhist, by simp⟩
  | turns acts v hhist _ hpins hsound hrun =>
    refine hrun ▸ engineRun_keepsToOrder hhist hpins (hsound.elim (fun hpending act hact => ?_) id)
    have hactSound := List.all_eq_true.1 hinv.pendingSound act (hpending ▸ hact)
    exact (Bool.and_eq_true_iff.1 hactSound).1

/-! ### A PinWrite in two accesses -/

/-- The byte that raises a line is the byte read with the line's bit set (R123). -/
theorem pinByte_true (pins : Pins) (x : Line) (t : Byte) : pinByte pins x true t = t ||| lineMask pins x := by
  apply BitVec.eq_of_getLsbD_eq
  intro i _
  rw [pinByte_getLsbD, BitVec.getLsbD_or, lineMask_getLsbD]
  split_ifs with hi <;> simp [hi]

/-- A foreign write that is due takes effect in the next step (R62). -/
theorem step_of_due_write {s : State} {r : RegId} {b : Byte} {rest : List (Nat × EnvAct)} (h : s.env = (0, .write r b) :: rest)
    (hr : r < s.cfg.nRegs) : step s = .next (envWrite r b { s with env := rest }) :=
  (step_of_envDue h).trans (if_pos hr)

/-- FINISH caught by an act of the environment between its `RD` and its `WR`. -/
def State.finishCaught (s : State) (act : EnvAct) : State :=
  { s.rd (regOf s.pins .c) with
    busy := true
    phase := .idle
    tmp := s.port.read (regOf s.pins .c)
    pending := actsAt .idle none [.pinWrite .c true]
    env := [(0, act)] }

theorem exec_finish_caught {s : State} {act : EnvAct} (h : s.env = [(1, act)]) : exec .finish s = .next (s.finishCaught act) := by
  have hrun := engineRun_stops (acts := doFinish) (k := 1) { s with busy := true } act [] (by decide)
  rw [← h] at hrun
  exact congrArg Host.Outcome.next hrun

end Sys2Proof.Machine
end

section
/-! SUPPORT. The statements of the family 20_memory.md. -/

namespace Sys2Proof.Machine

open Sys2Proof

/-- Settles O42: PORT follows the history over every step, and each read on the way sees PORT as the events before it leave it. -/
theorem historyExplainsThePort : Obligations.HistoryExplainsThePort := by
  intro s t h
  have hfollows := step_follows h
  obtain ⟨new, hnew⟩ := hfollows.hist
  have hevents : new.reverse.map Prod.snd = eventsSince s t := by rw [eventsSince_of_hist hnew.symm, List.map_reverse]
  refine ⟨new.reverse, by rw [List.reverse_reverse, hnew], ?_⟩
  rw [hevents]
  exact ⟨step_reads h, hfollows.port⟩

/-- Settles O43: every turn of a command, and every turn left of one under way, is on registers of ORDER. -/
theorem engineAccessesItsOwnRegistersOnly : Obligations.EngineAccessesItsOwnRegistersOnly := by
  intro s t hinv h
  obtain ⟨new, hhist, hnew⟩ := step_keepsToOrder hinv h
  exact ⟨new, hhist, fun e r he hr => ⟨hnew e r he hr, hinv.lt_of_mem_order (hnew e r he hr)⟩⟩

/-- Settles O46: the `WR` writes the byte that the `RD` before the foreign write returned. -/
theorem foreignWriteInsideAPinWriteIsLost : Obligations.ForeignWriteInsideAPinWriteIsLost := by
  intro s b hinv _ henv
  set t1 := s.finishCaught (.write (regOf s.pins .c) b)
  set t2 := envWrite (regOf s.pins .c) b { t1 with env := [] }
  have hwrite : step t1 = .next t2 := step_of_due_write rfl (hinv.regOf_lt .c)
  have hresume : step t2 = .next t2.resume := step_of_busy rfl hinv.config rfl
  refine ⟨t1, t2, t2.resume, exec_finish_caught henv, hwrite, hresume, ?_⟩
  rw [← pinByte_true]
  refine ⟨?_, ?_, rfl⟩
  · exact (Memory.read_write hinv.portWf ..).trans (if_pos rfl)
  · exact (Memory.read_write (Memory.write_wf hinv.portWf ..) ..).trans (if_pos rfl)

end Sys2Proof.Machine
end

section
/-! SUPPORT. The decoder, said once: what each opcode decodes to, which opcodes are reserved, and which row of the opcode table a word
matches. Then the encoder's words through the decoder, and the vectors that MASK cannot tell apart. -/

namespace Sys2Proof

/-! ### One equation for each opcode -/

section
variable {w : CmdWord}

theorem decode_of_set (h : opOf w = 0x01#8) : decode w = .ok (.set (payloadOf w)) := by simp [decode, h]

theorem decode_of_finish (h : opOf w = 0x02#8) : decode w = .ok .finish := by simp [decode, h]

theorem decode_of_bright (h : opOf w = 0x03#8) : decode w = .ok (.bright (payloadByte (payloadOf w) 0)) := by simp [decode, h]

theorem decode_of_fast (h : opOf w = 0x04#8) : decode w = .ok (.fast ((payloadOf w).getLsbD 0)) := by simp [decode, h]

theorem decode_of_by32 (h : opOf w = 0x05#8) : decode w = .ok (.by32 ((payloadOf w).getLsbD 0)) := by simp [decode, h]

theorem decode_of_defer (h : opOf w = 0x06#8) : decode w = .ok (.defer ((payloadOf w).getLsbD 0)) := by simp [decode, h]

theorem decode_of_next (h : opOf w = 0x07#8) : decode w = .ok .next := by simp [decode, h]

/-- The opcode of a SETB of `n` bytes (R83). -/
theorem toNat_setbOpcode {n : Nat} (hn : n ≤ 13) : (0x10#8 ||| BitVec.ofNat 8 n).toNat = 0x10 + n := by
  interval_cases n <;> rfl

/-- A SETB's byte count is the low half of its opcode (R83). -/
theorem decode_of_setb {n : Nat} (hn : n ≤ 13) (h : opOf w = 0x10#8 ||| BitVec.ofNat 8 n) :
    decode w = .ok (.setb ((List.range n).map (payloadByte (payloadOf w)))) := by
  have hother : ∀ k < 8, (0x10#8 ||| BitVec.ofNat 8 n) ≠ BitVec.ofNat 8 k := by
    intro k hk heq
    have := congrArg BitVec.toNat heq
    rw [toNat_setbOpcode hn, BitVec.toNat_ofNat] at this
    omega
  simp only [decode, h, hother, Nat.reduceLT, opOf_extract_high n (by omega), opOf_extract_low n (by omega), hn, and_self,
    reduceIte]

/-- The reserved opcodes of R87. -/
def isReservedOpcode (op : Byte) : Bool :=
  decide (op.toNat = 0x00 ∨ (0x08 ≤ op.toNat ∧ op.toNat ≤ 0x0f) ∨ op.toNat = 0x1e ∨ op.toNat = 0x1f ∨ 0x20 ≤ op.toNat)

theorem decode_of_reserved (h : isReservedOpcode (opOf w) = true) : decode w = .error (.reservedOpcode (opOf w)) := by
  have hnat := of_decide_eq_true h
  have hother : ∀ k, 1 ≤ k → k < 8 → opOf w ≠ BitVec.ofNat 8 k := by
    intro k _ _ heq
    rw [heq, BitVec.toNat_ofNat] at hnat
    omega
  have hsetb : ¬ ((opOf w).extractLsb' 4 4 = 1#4 ∧ ((opOf w).extractLsb' 0 4).toNat ≤ 13) := by
    rw [← BitVec.toNat_inj, BitVec.extractLsb'_toNat, BitVec.extractLsb'_toNat, Nat.shiftRight_eq_div_pow]
    simp only [Nat.shiftRight_zero, BitVec.toNat_ofNat]
    omega
  simp only [decode, hother, Nat.reduceLT, Nat.reduceLeDiff, hsetb, reduceIte]

end

/-- What a word decodes to: one case for each command, with the opcode that selects it (R86), and the reserved opcodes (R87). -/
inductive Decoded (w : CmdWord) : Prop where
  | set (op : opOf w = 0x01#8) (dec : decode w = .ok (.set (payloadOf w)))
  | finish (op : opOf w = 0x02#8) (dec : decode w = .ok .finish)
  | bright (op : opOf w = 0x03#8) (dec : decode w = .ok (.bright (payloadByte (payloadOf w) 0)))
  | fast (op : opOf w = 0x04#8) (dec : decode w = .ok (.fast ((payloadOf w).getLsbD 0)))
  | by32 (op : opOf w = 0x05#8) (dec : decode w = .ok (.by32 ((payloadOf w).getLsbD 0)))
  | defer (op : opOf w = 0x06#8) (dec : decode w = .ok (.defer ((payloadOf w).getLsbD 0)))
  | next (op : opOf w = 0x07#8) (dec : decode w = .ok .next)
  | setb (n : Nat) (le : n ≤ 13) (op : opOf w = 0x10#8 ||| BitVec.ofNat 8 n)
      (dec : decode w = .ok (.setb ((List.range n).map (payloadByte (payloadOf w)))))
  | reserved (op : isReservedOpcode (opOf w) = true) (dec : decode w = .error (.reservedOpcode (opOf w)))

theorem decoded (w : CmdWord) : Decoded w := by
  cases hres : isReservedOpcode (opOf w) with
  | true => exact .reserved hres (decode_of_reserved hres)
  | false =>
    have hnat := of_decide_eq_false hres
    by_cases hsetb : 0x10 ≤ (opOf w).toNat
    · have hn : (opOf w).toNat - 0x10 ≤ 13 := by omega
      have hop : opOf w = 0x10#8 ||| BitVec.ofNat 8 ((opOf w).toNat - 0x10) := by
        rw [← BitVec.toNat_inj, toNat_setbOpcode hn]
        omega
      exact .setb _ hn hop (decode_of_setb hn hop)
    · obtain hop | hop | hop | hop | hop | hop | hop : opOf w = 0x01#8 ∨ opOf w = 0x02#8 ∨ opOf w = 0x03#8 ∨
          opOf w = 0x04#8 ∨ opOf w = 0x05#8 ∨ opOf w = 0x06#8 ∨ opOf w = 0x07#8 := by
        simp only [← BitVec.toNat_inj, BitVec.toNat_ofNat]
        omega
      · exact .set hop (decode_of_set hop)
      · exact .finish hop (decode_of_finish hop)
      · exact .bright hop (decode_of_bright hop)
      · exact .fast hop (decode_of_fast hop)
      · exact .by32 hop (decode_of_by32 hop)
      · exact .defer hop (decode_of_defer hop)
      · exact .next hop (decode_of_next hop)

/-- The decoder rejects the reserved opcodes and no other (R87). -/
theorem decode_error_iff (w : CmdWord) : (∃ e, decode w = .error e) ↔ isReservedOpcode (opOf w) = true := by
  refine ⟨fun ⟨e, he⟩ => ?_, fun h => ⟨_, decode_of_reserved h⟩⟩
  cases decoded w with
  | reserved hop _ => exact hop
  | setb _ _ _ hdec => cases hdec.symm.trans he
  | _ _ hdec => cases hdec.symm.trans he

/-! ### The rows of the opcode table -/

/-- A word matches the rows whose opcode is its own (R86). -/
theorem hits_iff (r : OpcodeRow) (w : CmdWord) : r.hits w = true ↔ opOf w = r.op := by
  constructor
  · intro h
    have hop : opOf (w &&& OpcodeRow.mask) = opOf r.value := congrArg opOf (eq_of_beq h)
    have hall : opOf w &&& 0xff#8 = opOf w := BitVec.and_allOnes
    rwa [opOf, BitVec.extractLsb'_and, ← opOf, ← opOf, OpcodeRow.mask, OpcodeRow.value, opOf_commandWord, opOf_commandWord,
      hall] at hop
  · intro h
    have hrow := Laws.TableRow.hits_commandWord r.mnemonic (opOf w) (payloadOf w)
    rwa [commandWord_of_fields, h] at hrow

/-- The rows of the opcode table have different opcodes. -/
theorem eq_of_op_eq_of_mem {r r' : OpcodeRow} (hr : r ∈ opcodeTable) (hr' : r' ∈ opcodeTable) (h : r.op = r'.op) : r = r' :=
  List.inj_on_of_nodup_map (show (opcodeTable.map OpcodeRow.op).Nodup by decide) hr hr' h

theorem not_reserved_of_mem : ∀ r ∈ opcodeTable, isReservedOpcode r.op = false := by decide

theorem setb_row_mem : ∀ n ≤ 13, (⟨"SETB", 0x10#8 ||| BitVec.ofNat 8 n⟩ : OpcodeRow) ∈ opcodeTable := by decide

/-- A word that decodes to a command has its row in the table, with the command's mnemonic (R86). -/
theorem row_of_decode {w : CmdWord} {i : Instr} (h : decode w = .ok i) : ⟨i.mnemonic, opOf w⟩ ∈ opcodeTable := by
  cases decoded w with
  | reserved _ hdec => cases hdec.symm.trans h
  | setb n hn hop hdec =>
    obtain rfl := Except.ok.inj (hdec.symm.trans h)
    exact hop ▸ setb_row_mem n hn
  | _ hop hdec =>
    obtain rfl := Except.ok.inj (hdec.symm.trans h)
    rw [hop]
    simp [opcodeTable, Instr.mnemonic]

/-! ### The payload bits that are read -/

/-- How many payload bits, from bit 0 up, are operands under an opcode (R81). -/
def operandWidth (op : Byte) : Nat :=
  if op = 0x01#8 then 104 else if op = 0x03#8 then 8
  else if 0x04 ≤ op.toNat ∧ op.toNat ≤ 0x06 then 1
  else if 0x10 ≤ op.toNat ∧ op.toNat ≤ 0x1d then 8 * (op.toNat - 0x10) else 0

theorem operandWidth_setb {n : Nat} (hn : n ≤ 13) : operandWidth (0x10#8 ||| BitVec.ofNat 8 n) = 8 * n := by
  interval_cases n <;> rfl

/-- Payload byte `k` reads the bits below `8k + 8` only. -/
theorem payloadByte_congr {p p' : Vec} {k : Nat} (h : ∀ j, j < 8 * k + 8 → p.getLsbD j = p'.getLsbD j) :
    payloadByte p k = payloadByte p' k := by
  apply BitVec.eq_of_getLsbD_eq
  intro i hi
  rw [payloadByte_getLsbD, payloadByte_getLsbD, h _ (by omega)]

/-- The decoder reads the opcode and the operand bits of its format, and nothing else (R88). -/
theorem decode_congr {w w' : CmdWord} (hop' : opOf w = opOf w')
    (h : ∀ j, j < operandWidth (opOf w) → (payloadOf w).getLsbD j = (payloadOf w').getLsbD j) : decode w = decode w' := by
  cases decoded w with
  | set hop hdec =>
    have hp : payloadOf w = payloadOf w' := BitVec.eq_of_getLsbD_eq fun j hj => h j (by rw [hop]; exact hj)
    rw [hdec, decode_of_set (hop' ▸ hop), hp]
  | finish hop hdec => rw [hdec, decode_of_finish (hop' ▸ hop)]
  | bright hop hdec =>
    have hp : payloadByte (payloadOf w) 0 = payloadByte (payloadOf w') 0 :=
      payloadByte_congr fun j hj => h j (by rw [hop]; exact hj)
    rw [hdec, decode_of_bright (hop' ▸ hop), hp]
  | fast hop hdec => rw [hdec, decode_of_fast (hop' ▸ hop), h 0 (by rw [hop]; decide)]
  | by32 hop hdec => rw [hdec, decode_of_by32 (hop' ▸ hop), h 0 (by rw [hop]; decide)]
  | defer hop hdec => rw [hdec, decode_of_defer (hop' ▸ hop), h 0 (by rw [hop]; decide)]
  | next hop hdec => rw [hdec, decode_of_next (hop' ▸ hop)]
  | setb n hn hop hdec =>
    have hbytes : (List.range n).map (payloadByte (payloadOf w)) = (List.range n).map (payloadByte (payloadOf w')) :=
      List.map_congr_left fun k hk => payloadByte_congr fun j hj => h j (by
        have := List.mem_range.1 hk
        rw [hop, operandWidth_setb hn]
        omega)
    rw [hdec, decode_of_setb hn (hop' ▸ hop), hbytes]
  | reserved hop hdec => rw [hdec, decode_of_reserved (hop' ▸ hop), hop']

/-! ### The encoder's words -/

/-- Up to 13 packed bytes come back from the payload (R83). -/
theorem map_payloadByte_packBytes {bs : List Byte} (h : bs.length ≤ 13) :
    (List.range bs.length).map (payloadByte (packBytes bs)) = bs := by
  apply List.ext_getElem (by simp)
  intro k hk hk'
  rw [List.getElem_map, List.getElem_range, payloadByte_packBytes bs k (by omega), List.getD_eq_getElem _ _ hk']

/-- The decoder undoes the encoder on every command that the encoding can express. -/
theorem decode_encode {i : Instr} (h : i.wf = true) : decode (encode i) = .ok i := by
  cases i with
  | set vec => rw [encode, decode_of_set (opOf_commandWord ..), payloadOf_commandWord]
  | setb bs =>
    have hn : bs.length ≤ 13 := of_decide_eq_true h
    rw [encode, decode_of_setb hn (opOf_commandWord ..), payloadOf_commandWord, map_payloadByte_packBytes hn]
  | finish => exact decode_of_finish (opOf_commandWord ..)
  | bright level =>
    rw [encode, decode_of_bright (opOf_commandWord ..), payloadOf_commandWord, payloadByte_zero_setWidth]
  | fast v => rw [encode, decode_of_fast (opOf_commandWord ..), payloadOf_commandWord, flagPayload_getLsbD_zero]
  | by32 v => rw [encode, decode_of_by32 (opOf_commandWord ..), payloadOf_commandWord, flagPayload_getLsbD_zero]
  | defer v => rw [encode, decode_of_defer (opOf_commandWord ..), payloadOf_commandWord, flagPayload_getLsbD_zero]
  | next => exact decode_of_next (opOf_commandWord ..)

end Sys2Proof

namespace Sys2Proof.Machine

open Sys2Proof

/-! ### What the engine makes of a word -/

/-- MASK takes vectors that agree below `N_OUT` to one (R100). -/
theorem maskVec_congr {cfg : Config} {x y : Vec} (h : ∀ j, j < cfg.nOut → x.getLsbD j = y.getLsbD j) :
    maskVec cfg x = maskVec cfg y := by
  apply BitVec.eq_of_getLsbD_eq
  intro j _
  rw [maskVec_getLsbD, maskVec_getLsbD]
  by_cases hj : j < cfg.nOut
  · rw [h j hj]
  · simp [hj]

/-- A SET runs on its masked vector (R173). -/
theorem exec_set_congr {s : State} {v v' : Vec} (h : maskVec s.cfg v = maskVec s.cfg v') : exec (.set v) s = exec (.set v') s := by
  have hload : s.loadVreg v = s.loadVreg v' := congrArg (fun x => { s with vreg := x }) h
  exact congrArg (fun u : State => Host.Outcome.next (u.runCommand (dispatchActs u))) hload

/-- An idle engine takes a reserved word and does nothing (R87). -/
theorem step_of_decode_error {s : State} {w : CmdWord} {rest : List CmdWord} {e : DecodeError} (hdue : dueAct s = none)
    (hcfg : configWf s.cfg = true) (hbusy : s.busy = false) (hoffers : s.offers = w :: rest) (hdec : decode w = .error e) :
    step s = .next { s with offers := rest, env := elapse 1 s.env } := by
  simp [step, hdue, hcfg, hbusy, acceptOffer, hoffers, hdec]

/-- The words of `FROM_WORDS` cut to the widths of R91 denote the vector that the uncut ones do: MASK drops the bits of the third that
the cut drops. -/
theorem maskVec_cutWords (cfg : Config) (w0 w1 w2 : Vec) :
    maskVec cfg ((w0 &&& ones cfg.wordW) ||| ((w1 &&& ones cfg.wordW) <<< cfg.wordW) |||
      ((w2 &&& ones (w2Width cfg)) <<< (2 * cfg.wordW))) = fromWords cfg w0 w1 w2 := by
  refine maskVec_congr fun j hj => ?_
  have hthird : ((w2 &&& ones (w2Width cfg)) <<< (2 * cfg.wordW)).getLsbD j = (w2 <<< (2 * cfg.wordW)).getLsbD j := by
    rw [BitVec.getLsbD_shiftLeft, BitVec.getLsbD_shiftLeft, BitVec.getLsbD_and, ones_getLsbD]
    by_cases hlow : j < 2 * cfg.wordW
    · simp [hlow]
    · by_cases hvec : j < 104
      · simp [w2Width, show j - 2 * cfg.wordW < cfg.nOut - 2 * cfg.wordW by omega, show j - 2 * cfg.wordW < 104 by omega]
      · simp [hvec]
  rw [BitVec.getLsbD_or, BitVec.getLsbD_or (y := w2 <<< _), hthird]

end Sys2Proof.Machine
end

section
/-! SUPPORT. The statements of the family 30_encoding.md. -/

namespace Sys2Proof.Machine

open Sys2Proof

/-- Settles O8: a word matches the rows of its own opcode, the rows have different opcodes, and none of them is reserved. -/
theorem opcodeRowsSelectTheCommand : Obligations.OpcodeRowsSelectTheCommand := by
  intro w
  refine ⟨fun r hr r' hr' h h' => ?_, ⟨fun ⟨i, hi⟩ => ?_, fun ⟨r, hr, h⟩ => ?_⟩, fun i hi => ?_⟩
  · exact eq_of_op_eq_of_mem hr hr' (((hits_iff r w).1 h).symm.trans ((hits_iff r' w).1 h'))
  · exact ⟨_, row_of_decode hi, (hits_iff _ w).2 rfl⟩
  · cases hdec : decode w with
    | ok i => exact ⟨i, rfl⟩
    | error e =>
      have hres := (decode_error_iff w).1 ⟨e, hdec⟩
      rw [(hits_iff r w).1 h, not_reserved_of_mem r hr] at hres
      cases hres
  · exact ⟨_, row_of_decode hi, (hits_iff _ w).2 rfl, rfl⟩

/-- Settles O9: the decoder's cases leave exactly the reserved opcodes, and `step` answers such a word with the acceptance alone. -/
theorem reservedWordIsAcceptedAndDoesNothing : Obligations.ReservedWordIsAcceptedAndDoesNothing :=
  ⟨fun w => (decode_error_iff w).trans (decide_eq_true_iff ..), fun _ _ _ hdue hcfg hbusy hoffers ⟨_, hdec⟩ =>
    step_of_decode_error hdue hcfg hbusy hoffers hdec⟩

/-- Settles O10: the decoder reads the operand bits alone, and a SET runs on its masked vector. -/
theorem ignoredPayloadBitsDoNotMatter : Obligations.IgnoredPayloadBitsDoNotMatter :=
  ⟨fun _ _ hop h => decode_congr hop h, fun _ _ _ h => exec_set_congr (maskVec_congr h)⟩

/-- Settles O11: each expansion is an encoded command, which the decoder gives back, but for NOP, whose opcode is reserved. -/
theorem pseudoInstructionsExpandToOneCommand : Obligations.PseudoInstructionsExpandToOneCommand := by
  intro cfg
  refine ⟨fun w0 w1 w2 v hv => ?_, fun bytes hlen => ?_, decode_encode rfl, decode_encode rfl, ?_⟩
  · rw [hv]
    exact ⟨decode_encode rfl, maskVec_cutWords cfg w0 w1 w2⟩
  · exact decode_encode (decide_eq_true (hlen.trans_le (by decide)))
  · have hop : opOf (Pseudo.nop.word cfg) = 0x00#8 := opOf_commandWord ..
    rw [decode_of_reserved (by rw [hop]; rfl), hop]

end Sys2Proof.Machine
end

section
/-! SUPPORT. The operand forms of the output vector and the two splits, bit by bit: MASK as a remainder, the word views and
FROM_WORDS, the packed form, the word form of chain B, the by-32 inverse; and what a command leaves in VREG. -/

namespace Sys2Proof.Machine

open Sys2Proof

/-! ### MASK -/

/-- `mask(n)` keeps the bits below `n` (R8); it is `MASK` with any number for `N_OUT`. -/
theorem and_ones_getLsbD (x : Vec) (n i : Nat) : (x &&& ones n).getLsbD i = (decide (i < n) && x.getLsbD i) :=
  maskVec_getLsbD { Config.sample with nOut := n } x i

/-- `mask(n)` keeps exactly the vectors without a bit at `n` or above. -/
theorem and_ones_eq_self_iff (x : Vec) (n : Nat) : x &&& ones n = x ↔ ∀ j, n ≤ j → x.getLsbD j = false := by
  constructor
  · intro h j hj
    rw [← h, and_ones_getLsbD, decide_eq_false (by omega), Bool.false_and]
  · intro h
    apply BitVec.eq_of_getLsbD_eq
    intro j _
    rw [and_ones_getLsbD]
    by_cases hn : j < n
    · simp [hn]
    · simp [h j (by omega)]

theorem maskVec_toNat {cfg : Config} (hcfg : cfg.nOut ≤ 104) (x : Vec) : (maskVec cfg x).toNat = x.toNat % 2 ^ cfg.nOut := by
  have hle : 2 ^ cfg.nOut ≤ 2 ^ 104 := Nat.pow_le_pow_right (by decide) hcfg
  have hones : (ones cfg.nOut).toNat = 2 ^ cfg.nOut - 1 :=
    (BitVec.toNat_ofNat ..).trans (Nat.mod_eq_of_lt (Nat.sub_one_lt_of_le Nat.one_le_two_pow hle))
  rw [maskVec, BitVec.toNat_and, hones, Nat.and_two_pow_sub_one_eq_mod]

/-! ### VREG after a command -/

/-- A command's turns leave VREG alone, all of them or those before an interruption. -/
@[simp] theorem runCommand_vreg (s : State) (acts : List Act) : (s.runCommand acts).vreg = s.vreg :=
  engineRun_induction (P := fun u => u.vreg = s.vreg) (fun act _ u h => (perform_vreg u act).trans h)
    (fun _ h => h) (fun _ _ h => h) rfl

/-- A command loads VREG through MASK or leaves it (R20). -/
theorem exec_vreg {i : Instr} {s t : State} (h : exec i s = .next t) : t.vreg = s.vreg ∨ ∃ x, t.vreg = maskVec s.cfg x := by
  obtain ⟨v, -, rfl⟩ | ⟨v, -, rfl⟩ | ⟨v, -, rfl⟩ | ⟨-, rfl⟩ | ⟨l, -, -, rfl⟩ | ⟨l, p, -, -, rfl⟩ | ⟨x, -, rfl⟩ | ⟨bs, -, rfl⟩ |
    ⟨-, -, rfl⟩ | ⟨-, -, bytes, d, -, -, rfl⟩ := exec_cases h
  · exact .inl rfl
  · exact .inl rfl
  · exact .inl rfl
  · exact .inl (runCommand_vreg s _)
  · exact .inl rfl
  · exact .inl (runCommand_vreg s _)
  · exact .inr ⟨x, runCommand_vreg (s.loadVreg x) _⟩
  · exact .inr ⟨_, runCommand_vreg (s.loadVreg (fromBytes s.cfg bs.length bs)) _⟩
  · exact .inl rfl
  · exact .inr ⟨_, runCommand_vreg (s.loadVreg (fromBytes s.cfg s.cfg.frameBytes bytes)) _⟩

/-! ### The word form -/

theorem word0_getLsbD (cfg : Config) (v : Vec) (i : Nat) :
    (word0 cfg v).getLsbD i = (decide (i < cfg.wordW) && vecBit cfg v i) := by
  rw [vecBit_eq, word0, and_ones_getLsbD]

theorem word1_getLsbD (cfg : Config) (v : Vec) (i : Nat) :
    (word1 cfg v).getLsbD i = (decide (i < cfg.wordW) && vecBit cfg v (cfg.wordW + i)) := by
  rw [vecBit_eq, word1, and_ones_getLsbD, BitVec.getLsbD_ushiftRight]

theorem word2_getLsbD (cfg : Config) (v : Vec) (i : Nat) : (word2 cfg v).getLsbD i = vecBit cfg v (2 * cfg.wordW + i) := by
  rw [vecBit_eq, word2, BitVec.getLsbD_ushiftRight]

/-- Three words side by side: each bit comes from the word whose place it is in. The first word has to end at `w`. -/
theorem concatWords_getLsbD {w i : Nat} {x : Vec} (y z : Vec) (hi : i < 104) (hx : w ≤ i → x.getLsbD i = false) :
    (x ||| ((y &&& ones w) <<< w) ||| (z <<< (2 * w))).getLsbD i =
      if i < w then x.getLsbD i else if i < 2 * w then y.getLsbD (i - w) else z.getLsbD (i - 2 * w) := by
  rw [BitVec.getLsbD_or, BitVec.getLsbD_or, BitVec.getLsbD_shiftLeft, BitVec.getLsbD_shiftLeft, and_ones_getLsbD]
  by_cases h0 : i < w
  · simp [h0, show i < 2 * w by omega]
  · rw [hx (by omega)]
    by_cases h1 : i < 2 * w
    · simp [h0, h1, hi, show i - w < w by omega]
    · simp [h0, h1, hi, show ¬ i - w < w by omega]

/-- FROM_WORDS puts bit `i` of the vector into the word whose place it is in (R101). -/
theorem vecBit_fromWords {cfg : Config} (hcfg : cfg.nOut ≤ 104) (w0 w1 w2 : Vec) (i : Nat) :
    vecBit cfg (fromWords cfg w0 w1 w2) i = (decide (i < cfg.nOut) &&
      if i < cfg.wordW then w0.getLsbD i
      else if i < 2 * cfg.wordW then w1.getLsbD (i - cfg.wordW) else w2.getLsbD (i - 2 * cfg.wordW)) := by
  rw [fromWords, vecBit_maskVec, vecBit]
  by_cases hi : i < cfg.nOut
  · rw [concatWords_getLsbD w1 w2 (by omega) fun h => by simp [h]]
    by_cases h0 : i < cfg.wordW
    · rw [if_pos h0, if_pos h0, and_ones_getLsbD, decide_eq_true h0, Bool.true_and]
    · rw [if_neg h0, if_neg h0]
  · simp [hi]

/-! ### The words of FROM_WORDS -/

theorem word0_fromWords {cfg : Config} (hcfg : cfg.nOut ≤ 104) (w0 w1 w2 : Vec) :
    word0 cfg (fromWords cfg w0 w1 w2) = w0 &&& ones (min cfg.wordW cfg.nOut) := by
  apply BitVec.eq_of_getLsbD_eq
  intro i _
  rw [word0_getLsbD, vecBit_fromWords hcfg, and_ones_getLsbD]
  by_cases h0 : i < cfg.wordW
  · simp [h0]
  · simp [h0]

theorem word1_fromWords {cfg : Config} (hcfg : cfg.nOut ≤ 104) (w0 w1 w2 : Vec) :
    word1 cfg (fromWords cfg w0 w1 w2) = w1 &&& ones (min cfg.wordW (cfg.nOut - cfg.wordW)) := by
  apply BitVec.eq_of_getLsbD_eq
  intro i _
  rw [word1_getLsbD, vecBit_fromWords hcfg, and_ones_getLsbD]
  by_cases h1 : i < cfg.wordW
  · simp [h1, show cfg.wordW + i < 2 * cfg.wordW by omega, Nat.lt_sub_iff_add_lt']
  · simp [h1]

theorem word2_fromWords {cfg : Config} (hcfg : cfg.nOut ≤ 104) (w0 w1 w2 : Vec) :
    word2 cfg (fromWords cfg w0 w1 w2) = w2 &&& ones (w2Width cfg) := by
  apply BitVec.eq_of_getLsbD_eq
  intro i _
  rw [word2_getLsbD, vecBit_fromWords hcfg, and_ones_getLsbD, w2Width]
  simp [show ¬ 2 * cfg.wordW + i < cfg.wordW by omega, Nat.lt_sub_iff_add_lt']

/-- A vector is FROM_WORDS of its words (R21, R101). -/
theorem fromWords_words {cfg : Config} (hcfg : cfg.nOut ≤ 104) (v : Vec) :
    fromWords cfg (word0 cfg v) (word1 cfg v) (word2 cfg v) = maskVec cfg v := by
  have hmasked : maskVec cfg (fromWords cfg (word0 cfg v) (word1 cfg v) (word2 cfg v)) =
      fromWords cfg (word0 cfg v) (word1 cfg v) (word2 cfg v) := maskVec_maskVec ..
  rw [← hmasked]
  apply BitVec.eq_of_getLsbD_eq
  intro i _
  rw [← vecBit_eq, vecBit_fromWords hcfg, word0_getLsbD, word1_getLsbD, word2_getLsbD, ← vecBit_eq]
  by_cases hn : i < cfg.nOut
  · by_cases h0 : i < cfg.wordW
    · simp [hn, h0]
    · by_cases h1 : i < 2 * cfg.wordW
      · simp [hn, h0, h1, show i - cfg.wordW < cfg.wordW by omega, show cfg.wordW + (i - cfg.wordW) = i by omega]
      · simp [hn, h0, h1, show 2 * cfg.wordW + (i - 2 * cfg.wordW) = i by omega]
  · simp [hn, vecBit]

/-! ### The packed form -/

theorem fromBytes_getLsbD {cfg : Config} (hcfg : cfg.nOut ≤ 104) (n : Nat) (bytes : List Byte) (i : Nat) :
    (fromBytes cfg n bytes).getLsbD i =
      (decide (i < cfg.nOut) && decide (i / 8 < n) && (bytes.getD (i / 8) 0#8).getLsbD (i % 8)) := by
  rw [fromBytes, maskVec_getLsbD, packBytes_getLsbD, List.getD_eq_getElem?_getD, List.getElem?_take, List.getD_eq_getElem?_getD]
  by_cases hi : i < cfg.nOut
  · by_cases hn : i / 8 < n
    · simp [hi, hn, show i < 104 by omega]
    · simp [hn]
  · simp [hi]

/-- Every bit below `N_OUT` has its byte in the packed form. -/
theorem div_lt_packLen {cfg : Config} {i : Nat} (hi : i < cfg.nOut) : i / 8 < packLen cfg := by
  unfold packLen
  omega

/-- Bit `i` of a packed vector: bit `i mod 8` of byte `i div 8` (R54, R102). -/
theorem toBytes_getLsbD {cfg : Config} (v : Vec) {i : Nat} (hi : i < cfg.nOut) :
    ((toBytes cfg v).getD (i / 8) 0#8).getLsbD (i % 8) = v.getLsbD i := by
  rw [toBytes, List.getD_eq_getElem _ _ (by simpa using div_lt_packLen hi), List.getElem_map, List.getElem_range, payloadByte_getLsbD,
    Nat.div_add_mod, maskVec_getLsbD]
  simp [hi, Nat.mod_lt]

/-- FROM_BYTES undoes TO_BYTES (R102). -/
theorem fromBytes_toBytes {cfg : Config} (hcfg : cfg.nOut ≤ 104) (v : Vec) :
    fromBytes cfg (packLen cfg) (toBytes cfg v) = maskVec cfg v := by
  apply BitVec.eq_of_getLsbD_eq
  intro i _
  rw [fromBytes_getLsbD hcfg, maskVec_getLsbD]
  by_cases hi : i < cfg.nOut
  · rw [toBytes_getLsbD v hi, decide_eq_true (div_lt_packLen hi), Bool.and_true]
  · simp [hi]

/-- Where the bytes carry no bit at `N_OUT` or above, MASK drops nothing of them. -/
theorem fromBytes_eq_packBytes {cfg : Config} {bytes : List Byte}
    (h : ∀ i, cfg.nOut ≤ i → (bytes.getD (i / 8) 0#8).getLsbD (i % 8) = false) :
    fromBytes cfg bytes.length bytes = packBytes bytes := by
  rw [fromBytes, List.take_length]
  refine (and_ones_eq_self_iff ..).2 fun j hj => ?_
  rw [packBytes_getLsbD, h j hj, Bool.and_false]

/-- TO_BYTES undoes FROM_BYTES on bytes that the vector can hold (R102). -/
theorem toBytes_fromBytes {cfg : Config} (hcfg : cfg.nOut ≤ 104) {bytes : List Byte} (hlen : bytes.length = packLen cfg)
    (h : ∀ i, cfg.nOut ≤ i → (bytes.getD (i / 8) 0#8).getLsbD (i % 8) = false) :
    toBytes cfg (fromBytes cfg (packLen cfg) bytes) = bytes := by
  have hle : bytes.length ≤ 13 := by
    rw [hlen, packLen]
    omega
  rw [toBytes, maskVec_fromBytes, ← hlen, fromBytes_eq_packBytes h, map_payloadByte_packBytes hle]

/-! ### The word form of chain B -/

/-- A `w`-bit word shifted down by `k`, with the low bits of the next word folded in above it (R105). -/
theorem foldedWord_getLsbD {w k i : Nat} {lo : Vec} (hi : Vec) (hk : k ≤ w) (hlt : i < 104)
    (hlo : ∀ j, w ≤ j → lo.getLsbD j = false) :
    ((lo >>> k) ||| ((hi &&& ones k) <<< (w - k))).getLsbD i =
      (decide (i < w) && if i + k < w then lo.getLsbD (i + k) else hi.getLsbD (i + k - w)) := by
  rw [BitVec.getLsbD_or, BitVec.getLsbD_ushiftRight, BitVec.getLsbD_shiftLeft, and_ones_getLsbD, Nat.add_comm k i]
  by_cases hin : i + k < w
  · simp [hin, show i < w by omega, show i < w - k by omega]
  · rw [hlo _ (by omega)]
    by_cases hiw : i < w
    · simp [hin, hiw, hlt, show ¬ i < w - k by omega, show i - (w - k) = i + k - w by omega, show i + k - w < k by omega]
    · simp [hiw, show ¬ i - (w - k) < k by omega]

theorem word0_ends (cfg : Config) (v : Vec) (j : Nat) (h : cfg.wordW ≤ j) : (word0 cfg v).getLsbD j = false := by
  rw [word0_getLsbD, decide_eq_false (by omega), Bool.false_and]

theorem word1_ends (cfg : Config) (v : Vec) (j : Nat) (h : cfg.wordW ≤ j) : (word1 cfg v).getLsbD j = false := by
  rw [word1_getLsbD, decide_eq_false (by omega), Bool.false_and]

/-- The first shifted word: `V` from bit `SHIFT_K` on. -/
theorem foldedWord0_getLsbD {cfg : Config} (v : Vec) {i : Nat} (hk : cfg.shiftK ≤ cfg.wordW) (hlt : i < 104) :
    ((word0 cfg v >>> cfg.shiftK) ||| ((word1 cfg v &&& ones cfg.shiftK) <<< (cfg.wordW - cfg.shiftK))).getLsbD i =
      (decide (i < cfg.wordW) && vecBit cfg v (i + cfg.shiftK)) := by
  rw [foldedWord_getLsbD _ hk hlt (word0_ends cfg v), word0_getLsbD, word1_getLsbD]
  by_cases hi : i < cfg.wordW
  · by_cases hin : i + cfg.shiftK < cfg.wordW
    · simp [hi, hin]
    · simp [hi, hin, show i + cfg.shiftK - cfg.wordW < cfg.wordW by omega,
        show cfg.wordW + (i + cfg.shiftK - cfg.wordW) = i + cfg.shiftK by omega]
  · simp [hi]

/-- The second shifted word: `V` from bit `WORD_W + SHIFT_K` on. -/
theorem foldedWord1_getLsbD {cfg : Config} (v : Vec) {i : Nat} (hk : cfg.shiftK ≤ cfg.wordW) (hlt : i < 104) :
    ((word1 cfg v >>> cfg.shiftK) ||| ((word2 cfg v &&& ones cfg.shiftK) <<< (cfg.wordW - cfg.shiftK))).getLsbD i =
      (decide (i < cfg.wordW) && vecBit cfg v (cfg.wordW + i + cfg.shiftK)) := by
  rw [foldedWord_getLsbD _ hk hlt (word1_ends cfg v), word1_getLsbD, word2_getLsbD, Nat.add_assoc]
  by_cases hi : i < cfg.wordW
  · by_cases hin : i + cfg.shiftK < cfg.wordW
    · simp [hi, hin]
    · simp [hi, hin, show 2 * cfg.wordW + (i + cfg.shiftK - cfg.wordW) = cfg.wordW + (i + cfg.shiftK) by omega]
  · simp [hi]

/-! ### The by-32 inverse -/

/-- The streams of a split, read at any position: past `N_OUT` both chains are 0 (R107, R108). -/
theorem split_getD (by32 : Bool) (cfg : Config) (v : Vec) (i : Nat) :
    (split by32 cfg v).getD i (false, false) = splitPair by32 cfg v i := by
  by_cases hi : i < cfg.nOut
  · rw [List.getD_eq_getElem _ _ (by simpa using hi)]
    simp [split]
  · rw [List.getD_eq_default _ _ (by simpa using hi)]
    have hpast : ∀ k, vecBit cfg v (i + k) = false := fun k => by simp [vecBit, show ¬ i + k < cfg.nOut by omega]
    cases by32 with
    | false => simp [splitPair, seqA, seqB, hpast, show vecBit cfg v i = false from hpast 0]
    | true => simp [splitPair, by32A, by32B, Nat.add_comm cfg.by32W i, hpast, show vecBit cfg v i = false from hpast 0]

/-- The by-32 inverse finds bit `j` in chain A below `BY32_W` and in chain B from there on (R106, R107). -/
theorem recon_split_getLsbD (cfg : Config) (v : Vec) {j : Nat} (hj : j < 104) :
    (recon cfg (split true cfg v)).getLsbD j = (decide (j < 2 * cfg.by32W + cfg.by32Tail) && vecBit cfg v j) := by
  rw [recon, BitVec.getLsbD_or, BitVec.getLsbD_shiftLeft, ofBits_getLsbD, ofBits_getLsbD, split_getD, split_getD]
  by_cases ha : j < cfg.by32W
  · simp [splitPair, by32A, hj, ha, show j < 2 * cfg.by32W + cfg.by32Tail by omega]
  · by_cases hb : j < 2 * cfg.by32W + cfg.by32Tail
    · simp [splitPair, by32B, hj, ha, hb, show j - cfg.by32W < cfg.by32W + cfg.by32Tail by omega,
        show j - cfg.by32W < 104 by omega, show cfg.by32W + (j - cfg.by32W) = j by omega]
    · simp [ha, hb, show ¬ j - cfg.by32W < cfg.by32W + cfg.by32Tail by omega]

theorem recon_split (cfg : Config) (v : Vec) :
    recon cfg (split true cfg v) = maskVec cfg v &&& ones (2 * cfg.by32W + cfg.by32Tail) := by
  apply BitVec.eq_of_getLsbD_eq
  intro j hj
  rw [recon_split_getLsbD cfg v hj, and_ones_getLsbD, vecBit_eq]

end Sys2Proof.Machine
end

section
/-! SUPPORT. The statements of the family 40_interleaver.md. -/

namespace Sys2Proof.Machine

open Sys2Proof

/-- Settles O12: MASK is a remainder, and a command that writes VREG writes a masked vector. -/
theorem maskBoundsTheVectorRegister : Obligations.MaskBoundsTheVectorRegister := by
  refine fun cfg hcfg => ⟨maskVec_toNat hcfg, fun i s t hs hbound h => ?_⟩
  subst hs
  obtain hkept | ⟨x, hx⟩ := exec_vreg h
  · rwa [hkept]
  · rw [hx, maskVec_toNat hcfg]
    exact Nat.mod_lt _ (Nat.two_pow_pos _)

/-- Settles O13: FROM_WORDS and the views, word by word and then for the whole vector. -/
theorem wordViewsInvertFromWords : Obligations.WordViewsInvertFromWords := fun _ hcfg =>
  ⟨fun w0 w1 w2 => ⟨word0_fromWords hcfg w0 w1 w2, word1_fromWords hcfg w0 w1 w2, word2_fromWords hcfg w0 w1 w2⟩,
    fromWords_words hcfg⟩

/-- Settles O14: the bits of the packed bytes, cut by MASK. -/
theorem fromBytesIsLittleEndianAndZeroFilled : Obligations.FromBytesIsLittleEndianAndZeroFilled :=
  fun _ n bytes i hcfg => fromBytes_getLsbD hcfg n bytes i

/-- Settles O15: one direction bit by bit, the other byte by byte. -/
theorem packedFormRoundTrips : Obligations.PackedFormRoundTrips := fun _ hcfg =>
  ⟨fun v hv => (fromBytes_toBytes hcfg v).trans hv, fun _ hlen h => toBytes_fromBytes hcfg hlen h⟩

/-- Settles O16: whichever of the three words a position falls in, its bit there is the one `SHIFT_K` places up in the vector. -/
theorem chainBHasTheWordForm : Obligations.ChainBHasTheWordForm := by
  intro cfg v i hcfg hk hi
  have hlt : i < 104 := by omega
  rw [concatWords_getLsbD _ _ hlt fun h => by rw [foldedWord0_getLsbD v hk hlt, decide_eq_false (by omega), Bool.false_and],
    foldedWord0_getLsbD v hk hlt, foldedWord1_getLsbD v hk (by omega), BitVec.getLsbD_ushiftRight, word2_getLsbD, seqB]
  by_cases h0 : i < cfg.wordW
  · simp [h0]
  · by_cases h1 : i < 2 * cfg.wordW
    · simp [h0, h1, show i - cfg.wordW < cfg.wordW by omega, show cfg.wordW + (i - cfg.wordW) = i by omega]
    · simp [h0, h1, show 2 * cfg.wordW + (cfg.shiftK + (i - 2 * cfg.wordW)) = i + cfg.shiftK by omega]

/-- Settles O17: the inverse is the vector under `mask(2*BY32_W + BY32_TAIL)`, which is the vector where it drops no bit. -/
theorem by32InverseRecoversTheCarriedBits : Obligations.By32InverseRecoversTheCarriedBits := by
  refine fun cfg v _ => ⟨recon_split cfg v, ?_⟩
  simp only [recon_split, and_ones_eq_self_iff, vecBit_eq]

end Sys2Proof.Machine
end

section
/-! SUPPORT. What the engine writes keeps the bits of others (R128), and what the snapshot of a fast frame leaves in SNAP and LUT
(R124, R125). A PinWrite puts back the byte that was read from its own line's register, and a table entry is made from the snapshot of
its register, so both carry the foreign bits of the register they go to. -/

namespace Sys2Proof.Machine

open Sys2Proof

/-! ### The bytes the engine writes -/

/-- Bit `i` of register `r` is none of the lines (R121). -/
def foreignBit (pins : Pins) (r : RegId) (i : Nat) : Prop := ∀ x, regOf pins x = r → i ≠ (pinOf pins x).bit.val

theorem maskOn_foreignBit {pins : Pins} {r : RegId} {i : Nat} (h : foreignBit pins r i) (x : Line) :
    (maskOn pins x r).getLsbD i = false := by
  rw [maskOn_getLsbD, Bool.and_eq_false_iff, decide_eq_false_iff_not, decide_eq_false_iff_not, ← not_and_or]
  exact fun ⟨hreg, hbit⟩ => h x hreg hbit

theorem foreignBit_of_keepMask {pins : Pins} {r : RegId} {i : Nat} (h : (keepMask pins r).getLsbD i = true) :
    foreignBit pins r i := by
  rw [keepMask_getLsbD] at h
  intro x hreg hbit
  have hx : (maskOn pins x r).getLsbD i = true := by simp [maskOn_getLsbD, hreg, hbit]
  cases x <;> simp [hx] at h

/-- Bytes that agree on the foreign bits of a register agree under its `KEEP`. -/
theorem and_keepMask_eq {pins : Pins} {r : RegId} {x y : Byte} (h : ∀ i, foreignBit pins r i → x.getLsbD i = y.getLsbD i) :
    x &&& keepMask pins r = y &&& keepMask pins r := by
  apply BitVec.eq_of_getLsbD_eq
  intro i _
  rw [BitVec.getLsbD_and, BitVec.getLsbD_and]
  cases hkeep : (keepMask pins r).getLsbD i with
  | false => rw [Bool.and_false, Bool.and_false]
  | true => rw [h i (foreignBit_of_keepMask hkeep)]

/-- A PinWrite's byte has the foreign bits of the byte read (R123). -/
theorem pinByte_and_keepMask (pins : Pins) (x : Line) (v : Bool) (t : Byte) :
    pinByte pins x v t &&& keepMask pins (regOf pins x) = t &&& keepMask pins (regOf pins x) :=
  and_keepMask_eq fun i hi => by rw [pinByte_getLsbD, if_neg (hi x rfl)]

/-- A table entry has the foreign bits of the snapshot (R125). -/
theorem lutByte_and_keepMask (pins : Pins) (r : RegId) (t : Byte) (a b : Bool) :
    lutByte pins r t a b &&& keepMask pins r = t &&& keepMask pins r := by
  have hdata : ∀ (w : Bool) (x : Line) {i : Nat}, foreignBit pins r i →
      (if w then maskOn pins x r else 0#8).getLsbD i = false := fun w x i hi => by
    cases w
    · exact BitVec.getLsbD_zero
    · exact maskOn_foreignBit hi x
  have hkept : (t &&& keepMask pins r) &&& keepMask pins r = t &&& keepMask pins r := by
    rw [BitVec.and_assoc, BitVec.and_self]
  rw [← hkept]
  refine and_keepMask_eq fun i hi => ?_
  rw [lutByte, BitVec.getLsbD_or, BitVec.getLsbD_or, hdata a .a hi, hdata b .b hi, Bool.or_false, Bool.or_false]

/-- Setting the clock's bit leaves the foreign bits (R127). -/
theorem or_lineMask_and_keepMask (pins : Pins) (x : Line) (t : Byte) :
    (t ||| lineMask pins x) &&& keepMask pins (regOf pins x) = t &&& keepMask pins (regOf pins x) :=
  and_keepMask_eq fun i hi => by rw [BitVec.getLsbD_or, lineMask_getLsbD, decide_eq_false (hi x rfl), Bool.or_false]

/-! ### The byte of a PinWrite comes from its own line -/

/-- The line read last, after the operation. -/
def lineAfter (line : Option Line) : Op → Option Line
  | .pinRead x => some x
  | .pinWrite _ _ => line
  | .delay => line
  | .snapshot _ => line
  | .table _ _ _ => line
  | .clkHigh _ _ => line
  | .pwm _ => line
  | .hold _ => line
  | .advance => line

/-- A `WR` of a PinWrite follows the `RD` of the same line. -/
def lineMatches (line : Option Line) : Op → Prop
  | .pinWrite x _ => line = some x
  | .pinRead _ => True
  | .delay => True
  | .snapshot _ => True
  | .table _ _ _ => True
  | .clkHigh _ _ => True
  | .pwm _ => True
  | .hold _ => True
  | .advance => True

/-- After the line `line` was read last, each `WR` of a PinWrite has the `RD` of its own line before it (R123). -/
def PairedAfter : Option Line → List Op → Prop
  | _, [] => True
  | line, op :: ops => lineMatches line op ∧ PairedAfter (lineAfter line op) ops

/-- Operations that bring the `RD` of every PinWrite with them. -/
structure Paired (ops : List Op) : Prop where
  after : ∀ line, PairedAfter line ops

theorem paired_nil : Paired [] := ⟨fun _ => trivial⟩

theorem pairedAfter_append {line : Option Line} {ops ops' : List Op} (h : PairedAfter line ops) (h' : Paired ops') :
    PairedAfter line (ops ++ ops') := by
  induction ops generalizing line with
  | nil => exact h'.after line
  | cons op ops ih =>
    obtain ⟨hop, hops⟩ := h
    exact ⟨hop, ih hops⟩

theorem paired_append {ops ops' : List Op} (h : Paired ops) (h' : Paired ops') : Paired (ops ++ ops') :=
  ⟨fun line => pairedAfter_append (h.after line) h'⟩

theorem paired_flatMap {α : Type} {l : List α} {f : α → List Op} (h : ∀ x, Paired (f x)) : Paired (l.flatMap f) := by
  induction l with
  | nil => exact paired_nil
  | cons x l ih => exact paired_append (h x) ih

/-- Operations without a PinWrite. -/
theorem paired_of_lineMatches {ops : List Op} (h : ∀ op ∈ ops, ∀ line, lineMatches line op) : Paired ops := by
  induction ops with
  | nil => exact paired_nil
  | cons op ops ih =>
    obtain ⟨hop, hops⟩ := List.forall_mem_cons.1 h
    exact ⟨fun line => ⟨hop line, (ih hops).after _⟩⟩

theorem paired_pinWriteOps (x : Line) (v : Bool) : Paired (pinWriteOps x v) := ⟨fun _ => ⟨trivial, rfl, trivial⟩⟩

theorem paired_delay : Paired [.delay] := ⟨fun _ => ⟨trivial, trivial⟩⟩

theorem paired_safePulse : Paired safePulse := by
  unfold safePulse
  apply_rules [paired_append, paired_pinWriteOps, paired_delay]

theorem paired_safePosition (pair : Bool × Bool) : Paired (safePosition pair) := by
  unfold safePosition
  apply_rules [paired_append, paired_pinWriteOps, paired_delay]

/-- The safe frame is PinWrites and delays. -/
theorem paired_txSafe (cfg : Config) (v : Vec) : Paired ((txSafe cfg v).map Act.op) := by
  simp only [txSafe, endFrame_map_op, List.map_append, List.map_flatMap, actsAt_map_op]
  apply_rules [paired_append, paired_pinWriteOps, paired_delay, paired_safePulse, paired_flatMap]
  exact fun i => paired_safePosition _

theorem paired_snapshotOps (pins : Pins) : Paired (snapshotOps pins) :=
  paired_of_lineMatches (by simp [snapshotOps, lineMatches])

theorem paired_presentOps (pins : Pins) (a b : Bool) : Paired (presentOps pins a b) :=
  paired_of_lineMatches (by simp [presentOps, lineMatches])

theorem paired_clkHighOps (a b : Bool) : Paired (clkHighOps a b) :=
  paired_of_lineMatches (by simp [clkHighOps, lineMatches])

theorem paired_fastPosition (pins : Pins) (withheld : Bool) (pair : Bool × Bool) : Paired (fastPosition pins withheld pair) := by
  cases withheld with
  | true => exact paired_append (paired_presentOps ..) paired_nil
  | false => exact paired_append (paired_presentOps ..) (paired_clkHighOps ..)

/-- The fast frame has no PinWrite. -/
theorem paired_txFast (cfg : Config) (pins : Pins) (v : Vec) (by32 defer : Bool) :
    Paired ((txFast cfg pins v by32 defer).map Act.op) := by
  simp only [txFast, endFrame_map_op, List.map_append, List.map_flatMap, actsAt_map_op]
  apply_rules [paired_append, paired_snapshotOps, paired_presentOps, paired_clkHighOps, paired_flatMap]
  exact fun i => paired_fastPosition ..

theorem paired_dispatchActs (s : State) : Paired ((dispatchActs s).map Act.op) := by
  unfold dispatchActs
  split
  · exact paired_txFast ..
  · exact paired_txSafe ..

theorem paired_holdActs (d : BitVec 16) : Paired ((holdActs d).map Act.op) := ⟨fun _ => ⟨trivial, trivial, trivial⟩⟩

/-! ### The turns of a command -/

/-- The turns of a command write before they read, each PinWrite with the byte of its own line. -/
structure Sequenced (pins : Pins) (acts : List Act) : Prop where
  writtenFirst : WrittenFirst pins ⟨false, []⟩ (acts.map Act.op)
  paired : Paired (acts.map Act.op)

theorem sequenced_dispatchActs (s : State) : Sequenced s.pins (dispatchActs s) where
  writtenFirst := by simpa using writtenFirst_dispatchActs s ⟨false, []⟩ (ops := []) (by simp)
  paired := paired_dispatchActs s

theorem sequenced_playFrame (s : State) (d : BitVec 16) : Sequenced s.pins (dispatchActs s ++ holdActs d) where
  writtenFirst := by
    rw [List.map_append]
    exact writtenFirst_dispatchActs s _ fun k => covers_holdActs s.pins k d
  paired := by
    rw [List.map_append]
    exact paired_append (paired_dispatchActs s) (paired_holdActs d)

/-- A command leaves PORT alone, or runs such turns after it has loaded VREG or left it. -/
theorem exec_is_sequenced_run {i : Instr} {s t : State} (h : exec i s = .next t) :
    t.port = s.port ∨ ∃ x acts, Sequenced s.pins acts ∧ t = { s with vreg := x }.runCommand acts := by
  obtain ⟨v, -, rfl⟩ | ⟨v, -, rfl⟩ | ⟨v, -, rfl⟩ | ⟨-, rfl⟩ | ⟨l, -, -, rfl⟩ | ⟨l, p, -, -, rfl⟩ | ⟨x, -, rfl⟩ | ⟨bs, -, rfl⟩ |
    ⟨-, -, rfl⟩ | ⟨-, -, bytes, d, -, -, rfl⟩ := exec_cases h
  · exact .inl rfl
  · exact .inl rfl
  · exact .inl rfl
  · exact .inr ⟨s.vreg, doFinish, ⟨writtenFirst_doFinish s.pins _, paired_pinWriteOps ..⟩, rfl⟩
  · exact .inl rfl
  · exact .inr ⟨s.vreg, actsAt .idle none [.pwm l], ⟨.cons trivial (.nil _), ⟨fun _ => ⟨trivial, trivial⟩⟩⟩, rfl⟩
  · exact .inr ⟨_, _, sequenced_dispatchActs (s.loadVreg x), rfl⟩
  · exact .inr ⟨_, _, sequenced_dispatchActs (s.loadVreg (fromBytes s.cfg bs.length bs)), rfl⟩
  · exact .inl rfl
  · exact .inr ⟨_, _, sequenced_playFrame (s.loadVreg (fromBytes s.cfg s.cfg.frameBytes bytes)) d, rfl⟩

/-! ### The foreign bits along a run -/

/-- `x` has the bits of register `r` that are none of the lines as `m` has them. -/
def hasForeignBits (pins : Pins) (m : Memory) (r : RegId) (x : Byte) : Prop :=
  x &&& keepMask pins r = m.read r &&& keepMask pins r

/-- PORT, the byte last read from a line, and the table entries written so far have the foreign bits of `m`. -/
structure ForeignKept (m : Memory) (k : Written) (line : Option Line) (u : State) : Prop where
  port : ∀ r, hasForeignBits u.pins m r (u.port.read r)
  table : ∀ r ∈ k.regs, ∀ a b, hasForeignBits u.pins m r (u.lut.read (lutKey r a b))
  tmp : ∀ x, line = some x → hasForeignBits u.pins m (regOf u.pins x) u.tmp
  portWf : u.port.wf = true
  lutWf : u.lut.wf = true

section
variable {m : Memory} {k : Written} {line : Option Line} {u : State}

/-- What the engine writes to a register has the foreign bits it had (R128). -/
theorem ForeignKept.write {op : Op} {r : RegId} {b : Byte} (h : ForeignKept m k line u) (hcovers : k.covers u.pins op)
    (hline : lineMatches line op) (hev : opEvent u op = some (.wr r b)) : hasForeignBits u.pins m r b := by
  cases op with
  | pinWrite x v =>
    cases hev
    exact (pinByte_and_keepMask ..).trans (h.tmp x hline)
  | table r a b =>
    cases hev
    exact h.table r hcovers a b
  | clkHigh a b =>
    cases hev
    exact (or_lineMask_and_keepMask ..).trans (h.table _ hcovers a b)
  | pinRead x => cases hev
  | snapshot r => cases hev
  | delay => cases hev
  | pwm level => cases hev
  | hold n => cases hev
  | advance => cases hev

theorem ForeignKept.perform_port {act : Act} (h : ForeignKept m k line u) (hcovers : k.covers u.pins act.op)
    (hline : lineMatches line act.op) (r : RegId) : hasForeignBits u.pins m r ((u.perform act).port.read r) := by
  rw [Machine.perform_port]
  cases hev : opEvent u act.op with
  | none => exact h.port r
  | some e =>
    cases e with
    | wr r' b =>
      change hasForeignBits u.pins m r ((u.port.write r' b).read r)
      rw [Memory.read_write h.portWf]
      split_ifs with hr
      · exact hr ▸ h.write hcovers hline hev
      · exact h.port r
    | rd => exact h.port r
    | dly => exact h.port r
    | waitMs => exact h.port r
    | pwm => exact h.port r

/-- A turn that writes before it reads, and a PinWrite of the line read last, keeps all of it. -/
theorem ForeignKept.perform {act : Act} (h : ForeignKept m k line u) (hcovers : k.covers u.pins act.op)
    (hline : lineMatches line act.op) : ForeignKept m (k.after act.op) (lineAfter line act.op) (u.perform act) where
  port := by
    rw [perform_pins]
    exact h.perform_port hcovers hline
  table := by
    rw [perform_pins]
    obtain ⟨phase, pos, op, frameEnd⟩ := act
    cases op with
    | snapshot r =>
      intro r' hr' a b
      change hasForeignBits u.pins m r' (((u.rd r).capture r (u.port.read r)).lut.read _)
      rw [capture_lut_read (u.rd r) _ _ h.lutWf, rd_pins]
      split_ifs with hr
      · subst hr
        exact (lutByte_and_keepMask ..).trans (h.port r')
      · exact h.table r' (List.mem_of_ne_of_mem hr hr') a b
    | _ => exact h.table
  tmp := by
    rw [perform_pins]
    obtain ⟨phase, pos, op, frameEnd⟩ := act
    cases op with
    | pinRead x =>
      intro y hy
      cases hy
      exact h.port _
    | _ => exact h.tmp
  portWf := foldl_perform_port_wf [act] h.portWf
  lutWf := doOp_lut_wf act.op h.lutWf

/-- A run of such turns keeps the foreign bits of PORT, to its end or up to the environment's turn. -/
theorem ForeignKept.engineRun {acts : List Act} (h : ForeignKept m k line u) (hwritten : WrittenFirst u.pins k (acts.map Act.op))
    (hpaired : PairedAfter line (acts.map Act.op)) (r : RegId) :
    hasForeignBits u.pins m r ((engineRun acts u).port.read r) := by
  induction acts generalizing k line u with
  | nil => exact h.port r
  | cons act acts ih =>
    obtain - | ⟨hcovers, hrest⟩ := hwritten
    obtain ⟨hline, hpairs⟩ := hpaired
    rw [Machine.engineRun]
    split
    · exact h.port r
    · have hrun := ih (h.perform hcovers hline)
      rw [perform_pins] at hrun
      exact hrun hrest hpairs

end

/-- R128 for one command, complete or interrupted. -/
theorem exec_foreign_bits {i : Instr} {s t : State} (hp : s.port.wf = true) (hl : s.lut.wf = true) (h : exec i s = .next t)
    (r : RegId) : hasForeignBits s.pins s.port r (t.port.read r) := by
  obtain hport | ⟨x, acts, hacts, rfl⟩ := exec_is_sequenced_run h
  · rw [hport]
    rfl
  · have hstart : ForeignKept s.port ⟨false, []⟩ none { s with vreg := x, busy := true } := ⟨fun _ => rfl, nofun, nofun, hp, hl⟩
    exact hstart.engineRun hacts.writtenFirst (hacts.paired.after none) r

/-! ### The snapshot of a fast frame -/

/-- SNAP and LUT hold for register `r` what R124 and R125 make of the byte it has in `m`. -/
def captured (pins : Pins) (m : Memory) (r : RegId) (u : State) : Prop :=
  u.snap.read r = m.read r ∧ ∀ a b, u.lut.read (lutKey r a b) = lutByte pins r (m.read r) a b

theorem captured_snapshot {s : State} {r r' : RegId} (hs : s.snap.wf = true) (hl : s.lut.wf = true)
    (h : r = r' ∨ captured s.pins s.port r s) : captured s.pins s.port r (s.doOp (.snapshot r')) := by
  refine ⟨(Memory.read_write hs ..).trans ?_, fun a b => (capture_lut_read (s.rd r') _ _ hl ..).trans ?_⟩
  · split_ifs with hr
    · rw [hr]
    · exact (h.resolve_left (Ne.symm hr)).1
  · split_ifs with hr
    · rw [hr]
      rfl
    · exact (h.resolve_left hr).2 a b

/-- The snapshots of some registers capture each of them. -/
theorem captured_snapshots {s : State} {r : RegId} (regs : List RegId) (hs : s.snap.wf = true) (hl : s.lut.wf = true)
    (h : r ∈ regs ∨ captured s.pins s.port r s) :
    captured s.pins s.port r ((regs.map Op.snapshot).foldl State.doOp s) := by
  induction regs generalizing s with
  | nil => exact h.resolve_left List.not_mem_nil
  | cons r' regs ih =>
    rw [List.mem_cons, or_right_comm] at h
    exact ih (s := s.doOp (.snapshot r')) (Memory.write_wf hs ..) (doOp_lut_wf _ hl) (h.symm.imp_right (captured_snapshot hs hl))

/-- Only snapshots write SNAP. -/
theorem foldl_doOp_snap {ops : List Op} (s : State) (h : ∀ op ∈ ops, ∀ r, op ≠ .snapshot r) :
    (ops.foldl State.doOp s).snap = s.snap :=
  List.foldlRecOn (motive := fun u : State => u.snap = s.snap) ops _ rfl fun u hu op hop => (doOp_tables u op (h op hop)).1.trans hu

/-- What the snapshots of ORDER capture, operations without a snapshot leave. -/
theorem captured_after_snapshots {s : State} {r : RegId} {rest : List Op} (hs : s.snap.wf = true) (hl : s.lut.wf = true)
    (hr : r ∈ order s.pins) (hrest : ∀ op ∈ rest, ∀ r, op ≠ .snapshot r) :
    captured s.pins s.port r ((snapshotOps s.pins ++ rest).foldl State.doOp s) := by
  rw [List.foldl_append, captured, foldl_doOp_snap _ hrest, foldl_doOp_lut _ hrest]
  exact captured_snapshots (order s.pins) hs hl (.inl hr)

/-- R124, R125: a fast frame leaves the registers of ORDER captured as they were before it. -/
theorem captured_txFast {cfg : Config} {s : State} {r : RegId} (hn : 1 ≤ cfg.nOut) (hs : s.snap.wf = true)
    (hl : s.lut.wf = true) (hr : r ∈ order s.pins) (v : Vec) (by32 defer : Bool) :
    captured s.pins s.port r (((txFast cfg s.pins v by32 defer).map Act.op).foldl State.doOp s) := by
  obtain ⟨n, hn⟩ := Nat.exists_eq_add_of_le' hn
  rw [txFast_ops hn, List.append_assoc]
  refine captured_after_snapshots hs hl hr ?_
  simp only [List.forall_mem_append, List.forall_mem_flatMap]
  exact ⟨⟨⟨⟨presentOps_not_snapshot, fastPosition_not_snapshot⟩, fastPosition_not_snapshot⟩,
    fun _ _ => fastPosition_not_snapshot⟩, fastPosition_not_snapshot⟩

/-- An undisturbed SET on the fast path is the operations of TX_FAST, one after the other, and the engine is idle again (R172, R143). -/
theorem exec_set_fast {s : State} (vec : Vec) (hinv : s.Inv) (hfast : s.fast = true)
    (hund : s.undisturbed (frameEvents s (maskVec s.cfg vec)).length = true) :
    ∃ pos env, exec (.set vec) s = .next
      { ((txFast s.cfg s.pins (maskVec s.cfg vec) s.by32 s.defer).map Act.op).foldl State.doOp (s.loadVreg vec) with
        busy := false, phase := .idle, pos := pos, pending := [], env := env } := by
  have hacts : dispatchActs (s.loadVreg vec) = txFast s.cfg s.pins (maskVec s.cfg vec) s.by32 s.defer := if_pos hfast
  rw [frameEvents, if_pos hfast, ← length_txFast hinv.one_le_nOut, ← hacts] at hund
  obtain ⟨pos, hrun⟩ := runCommand_undisturbed (s := s.loadVreg vec) hund
  rw [← hacts]
  exact ⟨pos, _, congrArg Host.Outcome.next hrun⟩

end Sys2Proof.Machine
end

section
/-! SUPPORT. The statements of the family 41_gpio_mux_maskgen.md. -/

namespace Sys2Proof.Machine

open Sys2Proof

/-- Settles O44: an idle engine's step changes PORT only by a command, and a command writes each register with the foreign bits that
it read from it. -/
theorem noCommandChangesForeignBits : Obligations.NoCommandChangesForeignBits := by
  intro s t hinv hidle hdue hstep r
  obtain ⟨act, rest, henv, -⟩ | ⟨-, -, hbusy, -⟩ | ⟨-, -, -, -, rfl⟩ | ⟨-, -, -, w, rest, e, -, -, rfl⟩ |
    ⟨-, -, -, w, rest, i, -, -, hexec⟩ := step_cases hstep
  · simp [dueAct, henv] at hdue
  · exact absurd hbusy (Bool.eq_false_iff.1 hidle)
  · rfl
  · rfl
  · exact exec_foreign_bits (s := { s with offers := rest, env := elapse 1 s.env }) hinv.portWf hinv.lutWf hexec r

/-- Settles O22: the snapshots come first and capture every register of ORDER, and nothing after them writes SNAP or LUT. -/
theorem fastFrameBuildsSnapshotAndTable : Obligations.FastFrameBuildsSnapshotAndTable := by
  intro vec s hinv _ hfast hund
  obtain ⟨pos, env, hexec⟩ := exec_set_fast vec hinv hfast hund
  exact ⟨_, hexec, fun r hr => captured_txFast (s := s.loadVreg vec) hinv.one_le_nOut hinv.snapWf hinv.lutWf hr ..⟩

end Sys2Proof.Machine
end

section
/-! SUPPORT. The levels of the lines under the writes of a frame: a byte with the lines at given levels, what writing it does to the
lines, and what the chips sample on the way (R52, R150). -/

namespace Sys2Proof.Machine

open Sys2Proof

/-! ### The byte of a register with the lines at given levels -/

/-- The level of one line. -/
def Levels.get (l : Levels) : Line → Bool
  | .c => l.c
  | .a => l.a
  | .b => l.b

theorem Levels.get_put (l : Levels) (x : Line) (v : Bool) (y : Line) : (l.put x v).get y = if y = x then v else l.get y := by
  cases x <;> cases y <;> rfl

theorem get_levelsOf (pins : Pins) (m : Memory) (x : Line) : (levelsOf pins m).get x = lineLevel pins m x := by
  cases x <;> rfl

theorem levelsOf_eq {pins : Pins} {m : Memory} {l : Levels} (h : ∀ x, lineLevel pins m x = l.get x) : levelsOf pins m = l := by
  rw [levelsOf, h, h, h]
  rfl

/-- No two lines share a bit of a register (R5, R25). -/
theorem maskOn_line_bit {pins : Pins} (h : Function.Injective (pinOf pins)) (x y : Line) :
    (maskOn pins y (regOf pins x)).getLsbD (pinOf pins x).bit.val = decide (y = x) := by
  rw [maskOn_getLsbD, ← Bool.decide_and, decide_eq_decide]
  refine ⟨fun ⟨hreg, hbit⟩ => h (pin_eq hreg (Fin.ext hbit.symm)), ?_⟩
  rintro rfl
  exact ⟨rfl, rfl⟩

theorem lineByte_getLsbD (pins : Pins) (port : Memory) (l : Levels) (r : RegId) (i : Nat) :
    (lineByte pins port l r).getLsbD i = (((port.read r).getLsbD i && (keepMask pins r).getLsbD i) ||
      (l.c && (maskOn pins .c r).getLsbD i) || (l.a && (maskOn pins .a r).getLsbD i) ||
      (l.b && (maskOn pins .b r).getLsbD i)) := by
  have hif : ∀ (w : Bool) (x : Line), (if w then maskOn pins x r else 0#8).getLsbD i = (w && (maskOn pins x r).getLsbD i) :=
    fun w x => by cases w <;> simp
  rw [lineByte, BitVec.getLsbD_or, BitVec.getLsbD_or, BitVec.getLsbD_or, BitVec.getLsbD_and, hif, hif, hif]

/-- A line's bit of its register is the line's level. -/
theorem lineByte_line_bit {pins : Pins} (h : Function.Injective (pinOf pins)) (port : Memory) (l : Levels) (x : Line) :
    (lineByte pins port l (regOf pins x)).getLsbD (pinOf pins x).bit.val = l.get x := by
  rw [lineByte_getLsbD, keepMask_getLsbD, maskOn_line_bit h, maskOn_line_bit h, maskOn_line_bit h]
  cases x <;> simp [Levels.get]

/-- Every other bit is as in `port`. -/
theorem lineByte_foreignBit {pins : Pins} {r : RegId} {i : Nat} (h : foreignBit pins r i) (port : Memory) (l : Levels) :
    (lineByte pins port l r).getLsbD i = (port.read r).getLsbD i := by
  rw [lineByte_getLsbD, keepMask_getLsbD, maskOn_foreignBit h, maskOn_foreignBit h, maskOn_foreignBit h]
  by_cases hi : i < 8
  · simp [hi]
  · rw [BitVec.getLsbD_of_ge _ _ (not_lt.1 hi)]
    simp

/-- A byte with the lines' bits at the levels and the others as in `port` is that byte. -/
theorem eq_lineByte {pins : Pins} (hinj : Function.Injective (pinOf pins)) {port : Memory} {l : Levels} {r : RegId} {byte : Byte}
    (hline : ∀ x, regOf pins x = r → byte.getLsbD (pinOf pins x).bit.val = l.get x)
    (hforeign : ∀ i, foreignBit pins r i → byte.getLsbD i = (port.read r).getLsbD i) : byte = lineByte pins port l r := by
  refine BitVec.eq_of_getLsbD_eq fun i hi => ?_
  by_cases hbit : foreignBit pins r i
  · rw [hforeign i hbit, lineByte_foreignBit hbit]
  · simp only [foreignBit, not_forall, not_not] at hbit
    obtain ⟨x, rfl, rfl⟩ := hbit
    rw [hline x rfl, lineByte_line_bit hinj]

/-- What PORT holds is the byte with the lines at the levels of PORT. -/
theorem read_eq_lineByte {pins : Pins} (h : Function.Injective (pinOf pins)) (port : Memory) (r : RegId) :
    port.read r = lineByte pins port (levelsOf pins port) r := by
  refine eq_lineByte h (fun x hx => ?_) fun _ _ => rfl
  rw [get_levelsOf, lineLevel, hx]

/-- The byte that a PinWrite makes of such a byte (R123). -/
theorem pinByte_lineByte {pins : Pins} (h : Function.Injective (pinOf pins)) (port : Memory) (l : Levels) (x : Line) (v : Bool) :
    pinByte pins x v (lineByte pins port l (regOf pins x)) = lineByte pins port (l.put x v) (regOf pins x) := by
  refine eq_lineByte h (fun y hy => ?_) fun i hi => ?_
  · rw [pinByte_getLsbD, Levels.get_put]
    by_cases hyx : y = x
    · rw [hyx, if_pos rfl, if_pos rfl]
    · rw [if_neg hyx, if_neg fun hbit => hyx (h (pin_eq hy (Fin.ext hbit))), ← hy, lineByte_line_bit h]
  · rw [pinByte_getLsbD, if_neg (hi x rfl), lineByte_foreignBit hi]

/-- Another register's byte does not depend on the line. -/
theorem lineByte_put_of_ne {pins : Pins} (h : Function.Injective (pinOf pins)) {x : Line} {r : RegId} (hr : regOf pins x ≠ r)
    (port : Memory) (l : Levels) (v : Bool) : lineByte pins port (l.put x v) r = lineByte pins port l r := by
  refine eq_lineByte h (fun y hy => ?_) fun i hi => lineByte_foreignBit hi ..
  have hyx : y ≠ x := fun hyx => hr (hyx ▸ hy)
  rw [← hy, lineByte_line_bit h, Levels.get_put, if_neg hyx]

/-- CLKHIGH's byte is the table's with the clock's bit set (R127). -/
theorem lineByte_or_clock (pins : Pins) (port : Memory) (a b : Bool) :
    lineByte pins port ⟨false, a, b⟩ (regOf pins .c) ||| lineMask pins .c =
      lineByte pins port ⟨true, a, b⟩ (regOf pins .c) := by
  have hmask : maskOn pins .c (regOf pins .c) = lineMask pins .c := if_pos rfl
  simp only [lineByte, hmask, if_true, Bool.false_eq_true, if_false, BitVec.or_zero]
  ac_rfl

/-! ### What a write does to the lines -/

/-- Writing such a byte puts the lines of its register at the levels and leaves the others. -/
theorem lineLevel_write {pins : Pins} (h : Function.Injective (pinOf pins)) {m : Memory} (hm : m.wf = true) (port : Memory)
    (l : Levels) (r : RegId) (x : Line) :
    lineLevel pins (m.write r (lineByte pins port l r)) x = if r = regOf pins x then l.get x else lineLevel pins m x := by
  rw [lineLevel, Memory.read_write hm]
  split_ifs with hr
  · rw [hr, lineByte_line_bit h]
  · rfl

/-- Writing the byte that puts one line at a level moves that line and no other. -/
theorem levelsOf_write_put {pins : Pins} (hinj : Function.Injective (pinOf pins)) {m : Memory} (hm : m.wf = true) (port : Memory)
    {l : Levels} (h : levelsOf pins m = l) (x : Line) (v : Bool) :
    levelsOf pins (m.write (regOf pins x) (lineByte pins port (l.put x v) (regOf pins x))) = l.put x v :=
  levelsOf_eq fun y => by
    rw [lineLevel_write hinj hm]
    split_ifs with hy
    · rfl
    · rw [Levels.get_put, if_neg fun hyx : y = x => hy (by rw [hyx]), ← get_levelsOf, h]

/-- The pair that the chips sample where the lines go from one set of levels to another (R150). -/
def sampleBetween (l l' : Levels) : List (Bool × Bool) := if !l.c && l'.c then [(l'.a, l'.b)] else []

theorem sampleOf_eq (pins : Pins) (m m' : Memory) :
    sampleOf pins m m' = sampleBetween (levelsOf pins m) (levelsOf pins m') := rfl

theorem replay_wf {m : Memory} (h : m.wf = true) (es : List Event) : (replay m es).wf = true := by
  induction es generalizing m with
  | nil => exact h
  | cons e es ih =>
    rw [replay_cons]
    exact ih (portAfter_wf h e)

/-! ### Line programs -/

/-- The levels after one step of a line program. -/
def LineOp.apply (l : Levels) : LineOp → Levels
  | .put x v => l.put x v
  | .delay => l

/-- What the chips sample in a line program. -/
def programTrace : Levels → List LineOp → List (Bool × Bool)
  | _, [] => []
  | l, op :: ops => sampleBetween l (op.apply l) ++ programTrace (op.apply l) ops

/-- R142 read off a line program (see `paced`). -/
def programPaced : Bool → Levels → List LineOp → Bool
  | _, _, [] => true
  | _, l, .delay :: ops => programPaced true l ops
  | settled, l, .put x v :: ops =>
    let l' := l.put x v
    let clockStays := l.c == l'.c
    let dataStays := l.a == l'.a && l.b == l'.b
    (clockStays || settled) && (dataStays || !l'.c) && programPaced (settled && clockStays && dataStays) l' ops

/-- On any PORT with the lines at the levels `l`, the events of a line program do on the lines what the program says. -/
theorem lineEvents_on_lines {pins : Pins} (hinj : Function.Injective (pinOf pins)) (port : Memory) (ops : List LineOp)
    {m : Memory} {l : Levels} (hm : m.wf = true) (h : levelsOf pins m = l) :
    lineTrace pins m (lineEvents pins port l ops) = programTrace l ops ∧
      levelsOf pins (replay m (lineEvents pins port l ops)) = ops.foldl LineOp.apply l ∧
      ∀ settled, paced pins settled m (lineEvents pins port l ops) = programPaced settled l ops := by
  induction ops generalizing m l with
  | nil => exact ⟨rfl, h, fun _ => rfl⟩
  | cons op ops ih =>
    cases op with
    | delay =>
      obtain ⟨htrace, hlevels, hpaced⟩ := ih hm h
      have hsample : sampleBetween l l = [] := by simp [sampleBetween]
      exact ⟨by rw [programTrace, LineOp.apply, hsample]; exact htrace, hlevels, fun _ => hpaced true⟩
    | put x v =>
      have hput := levelsOf_write_put hinj hm port h x v
      obtain ⟨htrace, hlevels, hpaced⟩ := ih (Memory.write_wf hm ..) hput
      refine ⟨?_, hlevels, fun settled => ?_⟩
      · rw [lineEvents, lineTrace, lineTrace, htrace, sampleOf_eq, h, hput]
        rfl
      · have hbefore : ∀ y, lineLevel pins m y = l.get y := fun y => by rw [← get_levelsOf, h]
        have hafter : ∀ y, lineLevel pins (m.write (regOf pins x) (lineByte pins port (l.put x v) (regOf pins x))) y =
            (l.put x v).get y := fun y => by rw [← get_levelsOf, hput]
        rw [lineEvents, paced, paced, hpaced]
        simp only [hbefore, hafter]
        rfl

theorem programTrace_append (l : Levels) (ops ops' : List LineOp) :
    programTrace l (ops ++ ops') = programTrace l ops ++ programTrace (ops.foldl LineOp.apply l) ops' := by
  induction ops generalizing l with
  | nil => rfl
  | cons op ops ih => rw [List.cons_append, programTrace, programTrace, ih, List.append_assoc, List.foldl_cons]

/-! ### The program of the safe path -/

/-- The baseline and the start signature (R141 parts 1 and 2). -/
def safeLeadIn : List LineOp :=
  [.put .c false, .put .a false, .put .b false, .delay, .put .a true, .put .b true, .delay,
    .put .c true, .delay, .put .c false, .delay, .put .c true, .delay, .put .c false, .delay]

/-- One data position (R141 part 3). -/
def positionProgram (p : Bool × Bool) : List LineOp :=
  [.put .a p.1, .put .b p.2, .delay, .put .c true, .delay, .put .c false, .delay]

theorem safeProgram_eq (cfg : Config) (v : Vec) :
    safeProgram cfg v = safeLeadIn ++ (split false cfg v).flatMap positionProgram := rfl

theorem programTrace_positions (pairs : List (Bool × Bool)) (p : Bool × Bool) :
    programTrace ⟨false, p.1, p.2⟩ (pairs.flatMap positionProgram) = pairs := by
  induction pairs generalizing p with
  | nil => rfl
  | cons q pairs ih =>
    rw [List.flatMap_cons, programTrace_append]
    exact congrArg (q :: ·) (ih q)

theorem foldl_positions (pairs : List (Bool × Bool)) (p : Bool × Bool) :
    (pairs.flatMap positionProgram).foldl LineOp.apply ⟨false, p.1, p.2⟩ =
      ⟨false, (pairs.getLastD p).1, (pairs.getLastD p).2⟩ := by
  induction pairs generalizing p with
  | nil => rfl
  | cons q pairs ih =>
    rw [List.flatMap_cons, List.foldl_append, List.getLastD_cons]
    exact ih q

theorem programPaced_positions (pairs : List (Bool × Bool)) (p : Bool × Bool) :
    programPaced true ⟨false, p.1, p.2⟩ (pairs.flatMap positionProgram) = true := by
  induction pairs generalizing p with
  | nil => rfl
  | cons q pairs ih =>
    rw [List.flatMap_cons, ← ih q]
    simp [positionProgram, programPaced, Levels.put]

/-- R151 on the safe path. -/
theorem programTrace_safeProgram (cfg : Config) (v : Vec) (l : Levels) :
    programTrace l (safeProgram cfg v) = [(true, true), (true, true)] ++ split false cfg v := by
  have hlead : programTrace l safeLeadIn = [(true, true), (true, true)] := by
    simp [safeLeadIn, programTrace, sampleBetween, LineOp.apply, Levels.put]
  rw [safeProgram_eq, programTrace_append, hlead]
  exact congrArg _ (programTrace_positions _ (true, true))

/-- R148 on the safe path. -/
theorem foldl_safeProgram (cfg : Config) (v : Vec) (l : Levels) :
    (safeProgram cfg v).foldl LineOp.apply l =
      ⟨false, ((split false cfg v).getLastD (true, true)).1, ((split false cfg v).getLastD (true, true)).2⟩ := by
  rw [safeProgram_eq, List.foldl_append]
  exact foldl_positions _ (true, true)

/-- R142. -/
theorem programPaced_safeProgram (cfg : Config) (v : Vec) (l : Levels) : programPaced true l (safeProgram cfg v) = true := by
  have hpositions := programPaced_positions (split false cfg v) (true, true)
  simp [safeProgram_eq, safeLeadIn, programPaced, Levels.put, hpositions]

/-! ### The split and its last pair -/

theorem split_of_succ {cfg : Config} {n : Nat} (hn : cfg.nOut = n + 1) (by32 : Bool) (v : Vec) :
    split by32 cfg v = (List.range n).map (splitPair by32 cfg v) ++ [splitPair by32 cfg v n] := by
  simp [split, hn, List.range_succ]

theorem split_eq_dropLast {cfg : Config} (h : 1 ≤ cfg.nOut) (by32 : Bool) (v : Vec) :
    split by32 cfg v = (split by32 cfg v).dropLast ++ [lastPair by32 cfg v] := by
  obtain ⟨n, hn⟩ := Nat.exists_eq_add_of_le' h
  simp [split_of_succ hn, lastPair, hn]

/-- The splits read the bits below `N_OUT` only (R103, R106). -/
theorem splitPair_maskVec (by32 : Bool) (cfg : Config) (v : Vec) (i : Nat) :
    splitPair by32 cfg (maskVec cfg v) i = splitPair by32 cfg v i := by
  simp only [splitPair, seqA, seqB, by32A, by32B, vecBit_maskVec]

/-! ### The events of the fast path -/

section
variable {pins : Pins}

/-- The chips sample these pairs in these events, whatever PORT was before them. -/
def Samples (pins : Pins) (es : List Event) (pairs : List (Bool × Bool)) : Prop :=
  ∀ m : Memory, m.wf = true → lineTrace pins m es = pairs

/-- These events leave the lines at these levels, whatever PORT was before them. -/
def Leaves (pins : Pins) (es : List Event) (l : Levels) : Prop :=
  ∀ m : Memory, m.wf = true → levelsOf pins (replay m es) = l

theorem Samples.append {es es' : List Event} {pairs pairs' : List (Bool × Bool)} (h : Samples pins es pairs)
    (h' : Samples pins es' pairs') : Samples pins (es ++ es') (pairs ++ pairs') := fun m hm => by
  rw [lineTrace_append, h m hm, h' _ (replay_wf hm es)]

theorem Leaves.after (es : List Event) {es' : List Event} {l : Levels} (h : Leaves pins es' l) : Leaves pins (es ++ es') l :=
  fun m hm => by rw [replay_append, h _ (replay_wf hm es)]

theorem samples_reads (port : Memory) (regs : List RegId) : Samples pins (regs.map fun r => .rd r (port.read r)) [] := by
  intro m hm
  induction regs with
  | nil => rfl
  | cons r regs ih => exact ih

/-- The lines of the registers written are at the levels, the others as before. -/
theorem lineLevel_writes (hinj : Function.Injective (pinOf pins)) (port : Memory) (l : Levels) (regs : List RegId) {m : Memory}
    (hm : m.wf = true) (x : Line) : lineLevel pins (replay m (regs.map fun r => .wr r (lineByte pins port l r))) x =
      if regOf pins x ∈ regs then l.get x else lineLevel pins m x := by
  induction regs generalizing m with
  | nil => rfl
  | cons r regs ih =>
    rw [List.map_cons, replay, ih (Memory.write_wf hm ..), lineLevel_write hinj hm]
    by_cases hmem : regOf pins x ∈ regs <;> simp [hmem, eq_comm]

/-- Writes of bytes with the clock low make no rising edge. -/
theorem samples_low_writes (hinj : Function.Injective (pinOf pins)) (port : Memory) {l : Levels} (hl : l.c = false)
    (regs : List RegId) : Samples pins (regs.map fun r => .wr r (lineByte pins port l r)) [] := by
  intro m hm
  induction regs generalizing m with
  | nil => rfl
  | cons r regs ih =>
    have hsample : sampleOf pins m (m.write r (lineByte pins port l r)) = [] := by
      by_cases hr : r = regOf pins .c <;> simp [sampleOf, lineLevel_write hinj hm, hr, Levels.get, hl]
    rw [List.map_cons, lineTrace, hsample, ih _ (Memory.write_wf hm ..), List.append_nil]

theorem samples_present (hinj : Function.Injective (pinOf pins)) (port : Memory) (p : Bool × Bool) :
    Samples pins (presentEvents pins port p) [] :=
  samples_low_writes hinj port rfl (order pins)

theorem leaves_present (hinj : Function.Injective (pinOf pins)) (port : Memory) (p : Bool × Bool) :
    Leaves pins (presentEvents pins port p) ⟨false, p.1, p.2⟩ := fun m hm =>
  levelsOf_eq fun x => by rw [presentEvents, lineLevel_writes hinj port _ _ hm, if_pos (regOf_mem_order pins x)]

/-- After PRESENT, CLKHIGH raises the clock and leaves the data lines (R127). -/
theorem levelsOf_clkHigh (hinj : Function.Injective (pinOf pins)) (port : Memory) {p : Bool × Bool} {m : Memory} (hm : m.wf = true)
    (h : levelsOf pins m = ⟨false, p.1, p.2⟩) : levelsOf pins (replay m [clkHighEvent pins port p]) = ⟨true, p.1, p.2⟩ :=
  levelsOf_eq fun x => by
    rw [clkHighEvent, replay, replay, lineLevel_write hinj hm]
    split_ifs with hx
    · rfl
    · rw [← get_levelsOf, h]
      cases x with
      | c => exact absurd rfl hx
      | a => rfl
      | b => rfl

theorem leaves_pulse (hinj : Function.Injective (pinOf pins)) (port : Memory) (p : Bool × Bool) :
    Leaves pins (pulseEvents pins port p) ⟨true, p.1, p.2⟩ := fun m hm => by
  rw [pulseEvents, replay_append]
  exact levelsOf_clkHigh hinj port (replay_wf hm _) (leaves_present hinj port p m hm)

theorem samples_pulse (hinj : Function.Injective (pinOf pins)) (port : Memory) (p : Bool × Bool) :
    Samples pins (pulseEvents pins port p) [p] := fun m hm => by
  have hlow := leaves_present hinj port p m hm
  have hhigh := levelsOf_clkHigh hinj port (replay_wf hm _) hlow
  rw [clkHighEvent, replay, replay] at hhigh
  rw [pulseEvents, lineTrace_append, samples_present hinj port p m hm, clkHighEvent, lineTrace, sampleOf_eq, hlow, hhigh]
  rfl

theorem samples_pulses (hinj : Function.Injective (pinOf pins)) (port : Memory) (pairs : List (Bool × Bool)) :
    Samples pins (pairs.flatMap (pulseEvents pins port)) pairs := by
  induction pairs with
  | nil => exact fun _ _ => rfl
  | cons p pairs ih => exact (samples_pulse hinj port p).append ih

/-- What comes before the last data position. -/
def fastLead (cfg : Config) (pins : Pins) (port : Memory) (v : Vec) (by32 : Bool) : List Event :=
  (order pins).map (fun r => Event.rd r (port.read r)) ++ presentEvents pins port (false, false) ++
    pulseEvents pins port (true, true) ++ pulseEvents pins port (true, true) ++
    (split by32 cfg v).dropLast.flatMap (pulseEvents pins port)

theorem fastEvents_eq {cfg : Config} (h : 1 ≤ cfg.nOut) (port : Memory) (v : Vec) (by32 defer : Bool) :
    fastEvents cfg pins port v by32 defer = fastLead cfg pins port v by32 ++
      if defer then presentEvents pins port (lastPair by32 cfg v) else pulseEvents pins port (lastPair by32 cfg v) := by
  have hlast : (split by32 cfg v).getLast? = some (lastPair by32 cfg v) := by
    rw [split_eq_dropLast h, List.getLast?_concat]
  rw [fastEvents, hlast]
  simp [fastLead]

theorem samples_fastLead (hinj : Function.Injective (pinOf pins)) (cfg : Config) (port : Memory) (v : Vec) (by32 : Bool) :
    Samples pins (fastLead cfg pins port v by32) ([(true, true), (true, true)] ++ (split by32 cfg v).dropLast) :=
  ((((samples_reads port (order pins)).append (samples_present hinj port _)).append (samples_pulse hinj port _)).append
    (samples_pulse hinj port _)).append (samples_pulses hinj port _)

/-- R151 on the fast path. -/
theorem samples_fastEvents (hinj : Function.Injective (pinOf pins)) {cfg : Config} (h : 1 ≤ cfg.nOut) (port : Memory) (v : Vec)
    (by32 defer : Bool) : Samples pins (fastEvents cfg pins port v by32 defer)
      ([(true, true), (true, true)] ++ if defer then (split by32 cfg v).dropLast else split by32 cfg v) := by
  have hlead := samples_fastLead hinj cfg port v by32
  rw [fastEvents_eq h]
  cases defer with
  | true => simpa using hlead.append (samples_present hinj port _)
  | false =>
    have hall := hlead.append (samples_pulse hinj port (lastPair by32 cfg v))
    rw [List.append_assoc, ← split_eq_dropLast h] at hall
    exact hall

/-- R148 on the fast path. -/
theorem leaves_fastEvents (hinj : Function.Injective (pinOf pins)) {cfg : Config} (h : 1 ≤ cfg.nOut) (port : Memory) (v : Vec)
    (by32 defer : Bool) : Leaves pins (fastEvents cfg pins port v by32 defer)
      ⟨!defer, (lastPair by32 cfg v).1, (lastPair by32 cfg v).2⟩ := by
  rw [fastEvents_eq h]
  cases defer with
  | true => exact (leaves_present hinj port _).after _
  | false => exact (leaves_pulse hinj port _).after _

end

/-! ### The numbers of events -/

def LineOp.isPut : LineOp → Bool
  | .put _ _ => true
  | .delay => false

/-- A `put` is a `RD` and a `WR` (R123). -/
theorem countP_lineEvents (pins : Pins) (port : Memory) (l : Levels) (ops : List LineOp) :
    (lineEvents pins port l ops).countP Event.isRd = ops.countP LineOp.isPut ∧
      (lineEvents pins port l ops).countP Event.isWr = ops.countP LineOp.isPut ∧
      (lineEvents pins port l ops).countP Event.isDly = ops.countP (!·.isPut) := by
  induction ops generalizing l with
  | nil => exact ⟨rfl, rfl, rfl⟩
  | cons op ops ih =>
    obtain ⟨hrd, hwr, hdly⟩ := ih (op.apply l)
    cases op <;> simp_all [lineEvents, LineOp.apply, Event.isRd, Event.isWr, Event.isDly, LineOp.isPut, List.countP_cons]

/-- R152 on the safe path: 9 and 6 before the data, 4 and 3 for each position. -/
theorem countP_safeProgram (cfg : Config) (v : Vec) :
    (safeProgram cfg v).countP LineOp.isPut = 4 * cfg.nOut + 9 ∧
      (safeProgram cfg v).countP (!·.isPut) = 3 * cfg.nOut + 6 := by
  have hput : ∀ p, (positionProgram p).countP LineOp.isPut = 4 := fun _ => rfl
  have hdelay : ∀ p, (positionProgram p).countP (!·.isPut) = 3 := fun _ => rfl
  have hleadPut : safeLeadIn.countP LineOp.isPut = 9 := rfl
  have hleadDelay : safeLeadIn.countP (!·.isPut) = 6 := rfl
  rw [safeProgram_eq, List.countP_append, List.countP_append, List.countP_flatMap, List.countP_flatMap, hleadPut, hleadDelay]
  simp only [Function.comp_def, hput, hdelay, List.map_const', List.sum_replicate, split_length, smul_eq_mul]
  omega

theorem countP_presentEvents (pins : Pins) (port : Memory) (p : Bool × Bool) :
    (presentEvents pins port p).countP Event.isRd = 0 ∧
      (presentEvents pins port p).countP Event.isWr = (order pins).length ∧
      (presentEvents pins port p).countP Event.isDly = 0 := by
  simp [presentEvents, List.countP_map, Function.comp_def, Event.isRd, Event.isWr, Event.isDly]

theorem countP_pulseEvents (pins : Pins) (port : Memory) (p : Bool × Bool) :
    (pulseEvents pins port p).countP Event.isRd = 0 ∧
      (pulseEvents pins port p).countP Event.isWr = (order pins).length + 1 ∧
      (pulseEvents pins port p).countP Event.isDly = 0 := by
  obtain ⟨hrd, hwr, hdly⟩ := countP_presentEvents pins port p
  simp only [pulseEvents, List.countP_append, hrd, hwr, hdly]
  exact ⟨rfl, rfl, rfl⟩

theorem countP_fastLead {cfg : Config} (h : 1 ≤ cfg.nOut) (pins : Pins) (port : Memory) (v : Vec) (by32 : Bool) :
    (fastLead cfg pins port v by32).countP Event.isRd = (order pins).length ∧
      (fastLead cfg pins port v by32).countP Event.isWr =
        (order pins).length + (cfg.nOut + 1) * ((order pins).length + 1) ∧
      (fastLead cfg pins port v by32).countP Event.isDly = 0 := by
  obtain ⟨n, hn⟩ := Nat.exists_eq_add_of_le' h
  have hreads : ((order pins).map fun r => Event.rd r (port.read r)).countP Event.isRd = (order pins).length ∧
      ((order pins).map fun r => Event.rd r (port.read r)).countP Event.isWr = 0 ∧
      ((order pins).map fun r => Event.rd r (port.read r)).countP Event.isDly = 0 := by
    simp [List.countP_map, Function.comp_def, Event.isRd, Event.isWr, Event.isDly]
  simp [fastLead, List.countP_append, List.countP_flatMap, Function.comp_def, hreads, countP_presentEvents, countP_pulseEvents, hn]
  ring

/-- R152 on the fast path. -/
theorem countP_fastEvents {cfg : Config} (h : 1 ≤ cfg.nOut) (pins : Pins) (port : Memory) (v : Vec) (by32 defer : Bool) :
    (fastEvents cfg pins port v by32 defer).countP Event.isRd = (order pins).length ∧
      (fastEvents cfg pins port v by32 defer).countP Event.isWr + defer.toNat =
        (cfg.nOut + 3) * (order pins).length + cfg.nOut + 2 ∧
      (fastEvents cfg pins port v by32 defer).countP Event.isDly = 0 := by
  have hwr : (order pins).length + (cfg.nOut + 1) * ((order pins).length + 1) + (order pins).length + 1 =
      (cfg.nOut + 3) * (order pins).length + cfg.nOut + 2 := by ring
  rw [fastEvents_eq h, ← hwr]
  cases defer with
  | true => simp [countP_fastLead h, countP_presentEvents]
  | false => simp [countP_fastLead h, countP_pulseEvents, Nat.add_assoc]

end Sys2Proof.Machine
end

section
/-! SUPPORT. The turns of a command emit the frames in closed form: the safe path and FINISH event by event as their line programs,
the fast path from the table that its snapshots make (R123, R126, R127). -/

namespace Sys2Proof.Machine

open Sys2Proof

/-! ### The events of some operations -/

/-- The operations, one after the other from `s`, emit one event each, and these are the events. -/
inductive Emits : State → List Op → List Event → Prop where
  | nil (s : State) : Emits s [] []
  | cons {s : State} {op : Op} {e : Event} {ops : List Op} {es : List Event} (hop : opEvent s op = some e)
      (hops : Emits (s.doOp op) ops es) : Emits s (op :: ops) (e :: es)

section
variable {s : State} {ops ops' : List Op} {es es' : List Event}

theorem Emits.append (h : Emits s ops es) (h' : Emits (ops.foldl State.doOp s) ops' es') : Emits s (ops ++ ops') (es ++ es') := by
  induction h with
  | nil s => exact h'
  | cons hop _ ih => exact .cons hop (ih h')

theorem Emits.take (h : Emits s ops es) (k : Nat) : Emits s (ops.take k) (es.take k) := by
  induction h generalizing k with
  | nil s => simpa using Emits.nil s
  | cons hop _ ih =>
    cases k with
    | zero => exact .nil _
    | succ k => exact .cons hop (ih k)

theorem Emits.length (h : Emits s ops es) : ops.length = es.length := by
  induction h with
  | nil s => rfl
  | cons _ _ ih => exact congrArg (· + 1) ih

theorem record_append (es es' : List Event) (h : List (Agent × Event)) : record (es ++ es') h = record es' (record es h) := by
  simp [record]

/-- PORT and the history are what the events make of them (R51, R61). -/
theorem Emits.hist_port (h : Emits s ops es) :
    (ops.foldl State.doOp s).hist = record es s.hist ∧ (ops.foldl State.doOp s).port = replay s.port es := by
  induction h with
  | nil s => exact ⟨rfl, rfl⟩
  | @cons s op e ops es hop _ ih =>
    have hhist : (s.doOp op).hist = record [e] s.hist := by
      rw [doOp_hist, hop]
      rfl
    have hport : (s.doOp op).port = portAfter s.port e := by
      rw [doOp_port, hop]
      rfl
    rw [List.foldl_cons, ih.1, ih.2, hhist, hport, replay_cons, ← record_append]
    exact ⟨rfl, rfl⟩

end

/-! ### The state that a frame needs -/

/-- There is something to send, the lines have pins of their own, and the byte registers are in canonical form. -/
structure State.Ready (s : State) : Prop where
  nOut : 1 ≤ s.cfg.nOut
  pins : Function.Injective (pinOf s.pins)
  portWf : s.port.wf = true
  snapWf : s.snap.wf = true
  lutWf : s.lut.wf = true

theorem State.Inv.ready {s : State} (h : s.Inv) : s.Ready :=
  ⟨h.one_le_nOut, h.pinOf_injective, h.portWf, h.snapWf, h.lutWf⟩

theorem State.Ready.doOp {s : State} (h : s.Ready) (op : Op) : (s.doOp op).Ready := by
  obtain ⟨hport, hsnap, hlut⟩ := doOp_wf s op h.portWf h.snapWf h.lutWf
  exact ⟨(doOp_cfg s op).symm ▸ h.nOut, (doOp_pins s op).symm ▸ h.pins, hport, hsnap, hlut⟩

theorem State.Ready.foldl_doOp {s : State} (h : s.Ready) (ops : List Op) : (ops.foldl State.doOp s).Ready :=
  List.foldlRecOn (motive := State.Ready) ops _ h fun _ hu op _ => hu.doOp op

/-! ### The safe path -/

/-- The operations of a step of a line program. -/
def LineOp.ops : LineOp → List Op
  | .put x v => pinWriteOps x v
  | .delay => [.delay]

/-- PORT has the lines at the levels `l` and every other bit as in `port`. -/
def Shows (port : Memory) (l : Levels) (s : State) : Prop := ∀ r, s.port.read r = lineByte s.pins port l r

/-- A PinWrite is its `RD` and its `WR`, and moves the one line (R123). -/
theorem emits_pinWrite {s : State} {port : Memory} {l : Levels} (h : s.Ready) (hs : Shows port l s) (x : Line) (v : Bool) :
    Emits s (pinWriteOps x v) [.rd (regOf s.pins x) (lineByte s.pins port l (regOf s.pins x)),
        .wr (regOf s.pins x) (lineByte s.pins port (l.put x v) (regOf s.pins x))] ∧
      Shows port (l.put x v) ((pinWriteOps x v).foldl State.doOp s) := by
  have hbyte : pinByte s.pins x v (s.port.read (regOf s.pins x)) = lineByte s.pins port (l.put x v) (regOf s.pins x) := by
    rw [hs, pinByte_lineByte h.pins]
  refine ⟨.cons (congrArg (fun b => some (Event.rd _ b)) (hs _)) (.cons (congrArg (fun b => some (Event.wr _ b)) hbyte) (.nil _)),
    fun r => ?_⟩
  change (s.port.write (regOf s.pins x) (pinByte s.pins x v (s.port.read (regOf s.pins x)))).read r =
    lineByte s.pins port (l.put x v) r
  rw [hbyte, Memory.read_write h.portWf]
  split_ifs with hr
  · rw [hr]
  · rw [lineByte_put_of_ne h.pins hr, hs]

/-- The operations of a line program emit its events. -/
theorem emits_program {s : State} {port : Memory} {l : Levels} (h : s.Ready) (hs : Shows port l s) (prog : List LineOp) :
    Emits s (prog.flatMap LineOp.ops) (lineEvents s.pins port l prog) := by
  induction prog generalizing s l with
  | nil => exact .nil s
  | cons op prog ih =>
    cases op with
    | delay => exact .cons rfl (ih (h.doOp .delay) hs)
    | put x v =>
      obtain ⟨hemits, hshows⟩ := emits_pinWrite h hs x v
      exact hemits.append (ih (h.foldl_doOp _) hshows)

theorem shows_levelsOf {s : State} (h : s.Ready) : Shows s.port (levelsOf s.pins s.port) s := read_eq_lineByte h.pins s.port

theorem txSafe_ops (cfg : Config) (v : Vec) : (txSafe cfg v).map Act.op = (safeProgram cfg v).flatMap LineOp.ops := by
  have hposition : ∀ p, (positionProgram p).flatMap LineOp.ops = safePosition p := fun _ => rfl
  rw [safeProgram_eq, List.flatMap_append, List.flatMap_assoc]
  simp only [hposition, split, List.flatMap_map, txSafe, endFrame_map_op, List.map_append, List.map_flatMap, actsAt_map_op]
  rfl

/-! ### The fast path -/

/-- The table is the one that the snapshots of `port` make (R125). -/
structure Tabled (pins : Pins) (port : Memory) (s : State) : Prop where
  pins_eq : s.pins = pins
  table : ∀ r ∈ order pins, ∀ a b, s.lut.read (lutKey r a b) = lineByte pins port ⟨false, a, b⟩ r

theorem tabled_snapshots {s : State} (h : s.Ready) :
    Tabled s.pins s.port ((snapshotOps s.pins).foldl State.doOp s) where
  pins_eq := foldl_doOp_pins _ s
  table r hr a b := by
    rw [← lutByte_eq_lineByte]
    exact (captured_snapshots (order s.pins) h.snapWf h.lutWf (.inl hr)).2 a b

theorem emits_snapshots (s : State) (regs : List RegId) :
    Emits s (regs.map .snapshot) (regs.map fun r => .rd r (s.port.read r)) := by
  induction regs generalizing s with
  | nil => exact .nil s
  | cons r regs ih => exact .cons rfl (ih (s.doOp (.snapshot r)))

/-- The operations leave the table alone, and emit these events wherever it is the one of `port`. -/
structure TableEmits (pins : Pins) (port : Memory) (ops : List Op) (es : List Event) : Prop where
  noSnapshot : ∀ op ∈ ops, ∀ r, op ≠ .snapshot r
  emits : ∀ s, Tabled pins port s → Emits s ops es

section
variable {pins : Pins} {port : Memory}

theorem TableEmits.append {ops ops' : List Op} {es es' : List Event} (h : TableEmits pins port ops es)
    (h' : TableEmits pins port ops' es') : TableEmits pins port (ops ++ ops') (es ++ es') where
  noSnapshot := List.forall_mem_append.2 ⟨h.noSnapshot, h'.noSnapshot⟩
  emits s hs := by
    have hafter : Tabled pins port (ops.foldl State.doOp s) :=
      ⟨(foldl_doOp_pins ops s).trans hs.pins_eq, by rw [foldl_doOp_lut s h.noSnapshot]; exact hs.table⟩
    exact (h.emits s hs).append (h'.emits _ hafter)

theorem TableEmits.flatMap {α : Type} {f : α → List Op} {g : α → List Event} (h : ∀ x, TableEmits pins port (f x) (g x))
    (l : List α) : TableEmits pins port (l.flatMap f) (l.flatMap g) := by
  induction l with
  | nil => exact ⟨nofun, fun s _ => .nil s⟩
  | cons x l ih => exact (h x).append ih

theorem tableEmits_one {op : Op} {e : Event} (hop : ∀ r, op ≠ .snapshot r)
    (h : ∀ s, Tabled pins port s → opEvent s op = some e) : TableEmits pins port [op] [e] where
  noSnapshot := by simpa using hop
  emits s hs := .cons (h s hs) (.nil _)

theorem tableEmits_present (p : Bool × Bool) : TableEmits pins port (presentOps pins p.1 p.2) (presentEvents pins port p) := by
  have hregs (regs : List RegId) (hmem : ∀ r ∈ regs, r ∈ order pins) : TableEmits pins port (regs.map (.table · p.1 p.2))
      (regs.map fun r => .wr r (lineByte pins port ⟨false, p.1, p.2⟩ r)) := by
    induction regs with
    | nil => exact ⟨nofun, fun s _ => .nil s⟩
    | cons r regs ih =>
      obtain ⟨hr, hrest⟩ := List.forall_mem_cons.1 hmem
      have hone : TableEmits pins port [.table r p.1 p.2] [.wr r (lineByte pins port ⟨false, p.1, p.2⟩ r)] :=
        tableEmits_one (by simp) fun s hs => congrArg (fun b => some (Event.wr r b)) (hs.table r hr p.1 p.2)
      exact hone.append (ih hrest)
  exact hregs (order pins) fun _ hr => hr

/-- A data position: the pair presented, and clocked where the pulse is not withheld (R143, R146). -/
theorem tableEmits_fastPosition (withheld : Bool) (p : Bool × Bool) : TableEmits pins port (fastPosition pins withheld p)
    (if withheld then presentEvents pins port p else pulseEvents pins port p) := by
  cases withheld with
  | true => simpa [fastPosition] using tableEmits_present p
  | false =>
    refine (tableEmits_present p).append (tableEmits_one (by simp) fun s hs => congrArg some ?_)
    rw [hs.pins_eq, hs.table _ (regOf_mem_order pins .c), lineByte_or_clock]
    rfl

end

/-- The operations of TX_FAST emit its closed form. -/
theorem emits_txFast {s : State} {cfg : Config} (h : s.Ready) (hn : 1 ≤ cfg.nOut) (v : Vec) (by32 defer : Bool) :
    Emits s ((txFast cfg s.pins v by32 defer).map Act.op) (fastEvents cfg s.pins s.port v by32 defer) := by
  obtain ⟨n, hn'⟩ := Nat.exists_eq_add_of_le' hn
  have hdrop : (split by32 cfg v).dropLast = (List.range n).map (splitPair by32 cfg v) := by
    rw [split_of_succ hn', List.dropLast_concat]
  have hlast : lastPair by32 cfg v = splitPair by32 cfg v n := by rw [lastPair, hn', Nat.add_sub_cancel]
  have hpulse (p) : TableEmits s.pins s.port (fastPosition s.pins false p) (pulseEvents s.pins s.port p) :=
    tableEmits_fastPosition false p
  have htable := ((((tableEmits_present (false, false)).append (hpulse (true, true))).append (hpulse (true, true))).append
    (.flatMap (fun i => hpulse (splitPair by32 cfg v i)) (List.range n))).append
    (tableEmits_fastPosition defer (splitPair by32 cfg v n))
  rw [txFast_ops hn', fastEvents_eq hn, fastLead, hdrop, hlast, List.flatMap_map]
  simpa only [snapshotOps, List.append_assoc] using (emits_snapshots s (order s.pins)).append (htable.emits _ (tabled_snapshots h))

/-- The turns of DISPATCH emit the frame that the flags select (R172). -/
theorem emits_dispatchActs {s : State} (h : s.Ready) : Emits s ((dispatchActs s).map Act.op) (frameEvents s s.vreg) := by
  unfold dispatchActs frameEvents
  split
  · exact emits_txFast h h.nOut ..
  · rw [txSafe_ops]
    exact emits_program h (shows_levelsOf h) _

/-! ### A command that the environment leaves alone -/

/-- A command with these events has run from `s` to `t`: PORT and the history are what they make of them, the script is that many
turns on, nothing is left to do, and the configuration and the flags are as before. -/
structure Ran (s t : State) (es : List Event) : Prop where
  hist : t.hist = record es s.hist
  port : t.port = replay s.port es
  env : t.env = elapse es.length s.env
  pending : t.pending = []
  cfg : t.cfg = s.cfg
  pins : t.pins = s.pins
  fast : t.fast = s.fast
  by32 : t.by32 = s.by32
  defer : t.defer = s.defer
  ready : t.Ready

theorem foldl_doOp_flags (ops : List Op) (s : State) : (ops.foldl State.doOp s).fast = s.fast ∧
    (ops.foldl State.doOp s).by32 = s.by32 ∧ (ops.foldl State.doOp s).defer = s.defer :=
  List.foldlRecOn (motive := fun u : State => u.fast = s.fast ∧ u.by32 = s.by32 ∧ u.defer = s.defer) ops _ ⟨rfl, rfl, rfl⟩
    fun u hu op _ => by rwa [doOp_fast, doOp_by32, doOp_defer]

theorem ran_runCommand {s : State} {acts : List Act} {es : List Event} (h : s.Ready) (hes : Emits s (acts.map Act.op) es)
    (hund : s.undisturbed es.length = true) : Ran s (s.runCommand acts) es := by
  have hlen : acts.length = es.length := by rw [← hes.length, List.length_map]
  obtain ⟨pos, hrun⟩ := runCommand_undisturbed (hlen ▸ hund)
  obtain ⟨hhist, hport⟩ := hes.hist_port
  obtain ⟨hfast, hby32, hdefer⟩ := foldl_doOp_flags (acts.map Act.op) s
  obtain ⟨hnOut, hpins, hportWf, hsnapWf, hlutWf⟩ := h.foldl_doOp (acts.map Act.op)
  rw [hrun]
  exact ⟨hhist, hport, hlen ▸ rfl, rfl, foldl_doOp_cfg .., foldl_doOp_pins .., hfast, hby32, hdefer,
    ⟨hnOut, hpins, hportWf, hsnapWf, hlutWf⟩⟩

/-- An undisturbed SET sends its frame (R173). -/
theorem exec_set_ran {s : State} (vec : Vec) (h : s.Ready)
    (hund : s.undisturbed (frameEvents s (maskVec s.cfg vec)).length = true) :
    ∃ t, exec (.set vec) s = .next t ∧ Ran s t (frameEvents s (maskVec s.cfg vec)) := by
  have hready : (s.loadVreg vec).Ready := ⟨h.nOut, h.pins, h.portWf, h.snapWf, h.lutWf⟩
  obtain ⟨hhist, hport, henv, hpending, hcfg, hpins, hfast, hby32, hdefer, ht⟩ :=
    ran_runCommand hready (emits_dispatchActs hready) hund
  exact ⟨_, rfl, hhist, hport, henv, hpending, hcfg, hpins, hfast, hby32, hdefer, ht⟩

/-- An undisturbed FINISH is the line program that raises the clock (R147). -/
theorem exec_finish_ran {s : State} (h : s.Ready) (hund : s.undisturbed 2 = true) : ∃ t, exec .finish s = .next t ∧
    Ran s t (lineEvents s.pins s.port (levelsOf s.pins s.port) [.put .c true]) :=
  ⟨_, rfl, ran_runCommand h (emits_program h (shows_levelsOf h) [.put .c true]) hund⟩

theorem eventsSince_of_record {s t : State} {es : List Event} (h : t.hist = record es s.hist) : eventsSince s t = es := by
  rw [eventsSince_of_hist h]
  simp

end Sys2Proof.Machine
end

section
/-! SUPPORT. What a frame and FINISH do on the lines (R148, R151), put together from command to command. -/

namespace Sys2Proof.Machine

open Sys2Proof

/-! ### One frame, one FINISH -/

theorem frameEvents_of_fast {s : State} (h : s.fast = true) (v : Vec) :
    frameEvents s v = fastEvents s.cfg s.pins s.port v s.by32 s.defer := if_pos h

theorem frameEvents_of_safe {s : State} (h : s.fast = false) (v : Vec) :
    frameEvents s v = lineEvents s.pins s.port (levelsOf s.pins s.port) (safeProgram s.cfg v) := if_neg (by simp [h])

/-- R151: the LineTrace of a frame. -/
theorem lineTrace_frameEvents {s : State} (h : s.Ready) (v : Vec) :
    lineTrace s.pins s.port (frameEvents s v) = frameTrace s v := by
  unfold frameEvents frameTrace
  split
  · exact samples_fastEvents h.pins h.nOut s.port v s.by32 s.defer s.port h.portWf
  · exact (lineEvents_on_lines h.pins s.port _ h.portWf rfl).1.trans (programTrace_safeProgram ..)

/-- R148: the levels that a frame leaves. -/
theorem levelsOf_frameEvents {s : State} (h : s.Ready) (v : Vec) :
    levelsOf s.pins (replay s.port (frameEvents s v)) = endLevels s v := by
  unfold frameEvents endLevels
  split
  · exact leaves_fastEvents h.pins h.nOut s.port v s.by32 s.defer s.port h.portWf
  · have hlast : (split false s.cfg v).getLastD (true, true) = lastPair false s.cfg v := by
      rw [split_eq_dropLast h.nOut, List.getLastD_concat]
    rw [← hlast, ← foldl_safeProgram]
    exact (lineEvents_on_lines h.pins s.port _ h.portWf rfl).2.1

theorem endLevels_maskVec (s : State) (vec : Vec) : endLevels s (maskVec s.cfg vec) =
    ⟨s.fast && !s.defer, (splitPair (s.fast && s.by32) s.cfg vec (s.cfg.nOut - 1)).1,
      (splitPair (s.fast && s.by32) s.cfg vec (s.cfg.nOut - 1)).2⟩ := by
  cases hfast : s.fast <;> simp [endLevels, lastPair, splitPair_maskVec, hfast]

/-- A frame has `N_OUT + 2` rising edges, one fewer under deferred finish (R152). -/
theorem length_frameTrace {s : State} (h : 1 ≤ s.cfg.nOut) (v : Vec) :
    (frameTrace s v).length + (s.fast && s.defer).toNat = s.cfg.nOut + 2 := by
  cases hfast : s.fast <;> cases hdefer : s.defer <;> simp [frameTrace, hfast, hdefer]
  omega

/-- R147: FINISH raises the clock and leaves the data lines; the chips sample where it was low. -/
theorem finishEvents_on_lines {s : State} (h : s.Ready) {l : Levels} (hl : levelsOf s.pins s.port = l) :
    lineTrace s.pins s.port (lineEvents s.pins s.port l [.put .c true]) = sampleBetween l (l.put .c true) ∧
      levelsOf s.pins (replay s.port (lineEvents s.pins s.port l [.put .c true])) = l.put .c true := by
  obtain ⟨htrace, hlevels, -⟩ := lineEvents_on_lines h.pins s.port [.put .c true] h.portWf hl
  exact ⟨htrace.trans (List.append_nil _), hlevels⟩

/-- The edge withheld at the end of a deferred frame would sample its last pair (R146). -/
theorem sampleBetween_endLevels {s : State} (hfast : s.fast = true) (hdefer : s.defer = true) (v : Vec) :
    sampleBetween (endLevels s v) ((endLevels s v).put .c true) = [lastPair s.by32 s.cfg v] := by
  rw [endLevels, if_pos hfast, hdefer]
  rfl

/-! ### Commands one after the other -/

/-- From `s` to `t`, the pins being the same, the chips have sampled these pairs. -/
structure Traced (s t : State) (pairs : List (Bool × Bool)) : Prop where
  follows : Follows s t
  pins : t.pins = s.pins
  trace : lineTrace s.pins s.port (eventsSince s t) = pairs

theorem Traced.trans {s t u : State} {pairs pairs' : List (Bool × Bool)} (h : Traced s t pairs) (h' : Traced t u pairs') :
    Traced s u (pairs ++ pairs') where
  follows := h.follows.trans h'.follows
  pins := h'.pins.trans h.pins
  trace := by
    rw [eventsSince_append h.follows.hist h'.follows.hist, lineTrace_append, h.trace, ← h.follows.port, ← h.pins, h'.trace]

theorem traced_setDefer (s : State) (v : Bool) : Traced s (s.setDefer v) [] where
  follows := .of_no_event rfl rfl
  pins := rfl
  trace := by rw [eventsSince_of_hist (s := s) (t := s.setDefer v) (new := []) rfl]; rfl

theorem Ran.traced {s t : State} {es : List Event} (h : Ran s t es) : Traced s t (lineTrace s.pins s.port es) where
  follows := ⟨⟨_, h.hist.symm⟩, by rw [eventsSince_of_record h.hist, h.port]⟩
  pins := h.pins
  trace := by rw [eventsSince_of_record h.hist]

/-- A SET that no act of the environment comes in. -/
theorem exec_set_traced {s : State} (vec : Vec) (h : s.Ready) (henv : s.env = []) :
    ∃ t, exec (.set vec) s = .next t ∧ Ran s t (frameEvents s (maskVec s.cfg vec)) ∧
      Traced s t (frameTrace s (maskVec s.cfg vec)) ∧ t.env = [] ∧
      levelsOf t.pins t.port = endLevels s (maskVec s.cfg vec) := by
  obtain ⟨t, hexec, hran⟩ := exec_set_ran vec h (by simp [State.undisturbed, henv])
  refine ⟨t, hexec, hran, lineTrace_frameEvents h _ ▸ hran.traced, ?_, ?_⟩
  · rw [hran.env, henv, elapse_nil]
  · rw [hran.pins, hran.port, levelsOf_frameEvents h]

/-- A FINISH that no act of the environment comes in. -/
theorem exec_finish_traced {s : State} {l : Levels} (h : s.Ready) (henv : s.env = []) (hl : levelsOf s.pins s.port = l) :
    ∃ t, exec .finish s = .next t ∧ Traced s t (sampleBetween l (l.put .c true)) ∧ t.Ready ∧ t.env = [] ∧
      levelsOf t.pins t.port = l.put .c true := by
  obtain ⟨t, hexec, hran⟩ := exec_finish_ran h (by simp [State.undisturbed, henv])
  obtain ⟨htrace, hlevels⟩ := finishEvents_on_lines h hl
  rw [hl] at hran
  refine ⟨t, hexec, htrace ▸ hran.traced, hran.ready, ?_, ?_⟩
  · rw [hran.env, henv, elapse_nil]
  · rw [hran.pins, hran.port, hlevels]

theorem execAll_cons {i : Instr} {s t : State} (h : exec i s = .next t) (is : List Instr) :
    execAll (i :: is) s = execAll is t := by
  simp only [execAll, h]

theorem State.Ready.setDefer {s : State} (h : s.Ready) (v : Bool) : (s.setDefer v).Ready :=
  ⟨h.nOut, h.pins, h.portWf, h.snapWf, h.lutWf⟩

theorem frameTrace_of_fast {s : State} (h : s.fast = true) (v : Vec) : frameTrace s v =
    [(true, true), (true, true)] ++ if s.defer then (split s.by32 s.cfg v).dropLast else split s.by32 s.cfg v := by
  rw [frameTrace, if_pos h]

end Sys2Proof.Machine
end

section
/-! SUPPORT. Where the turns of a frame put PHASE and POS (R149), and the command that the environment's script stops on the way. -/

namespace Sys2Proof.Machine

open Sys2Proof

/-! ### PHASE and POS, turn by turn -/

/-- PHASE and POS after a turn that ends no frame. -/
def Act.place (p : Phase × Nat) (act : Act) : Phase × Nat := (act.phase, act.pos.getD p.2)

theorem foldl_perform_place {acts : List Act} (h : ∀ act ∈ acts, act.frameEnd = none) (s : State) :
    ((acts.foldl State.perform s).phase, (acts.foldl State.perform s).pos) = acts.foldl Act.place (s.phase, s.pos) := by
  induction acts generalizing s with
  | nil => rfl
  | cons act acts ih =>
    obtain ⟨hact, hacts⟩ := List.forall_mem_cons.1 h
    have hplace : ((s.perform act).phase, (s.perform act).pos) = act.place (s.phase, s.pos) := by
      rw [perform_phase, perform_pos, Act.phaseAfter, hact]
      rfl
    rw [List.foldl_cons, List.foldl_cons, ih hacts, hplace]

/-- The last turn of a frame leaves PHASE = IDLE and POS = `N_OUT`. -/
theorem foldl_perform_endFrame (n : Nat) {acts : List Act} (h : acts ≠ []) (s : State) :
    ((endFrame n acts).foldl State.perform s).phase = .idle ∧ ((endFrame n acts).foldl State.perform s).pos = n := by
  induction acts generalizing s with
  | nil => exact absurd rfl h
  | cons act acts ih =>
    cases acts with
    | nil => exact ⟨rfl, perform_pos ..⟩
    | cons act' acts => exact ih (List.cons_ne_nil _ _) (s.perform act)

theorem take_endFrame (n : Nat) {acts : List Act} {k : Nat} (h : k < acts.length) : (endFrame n acts).take k = acts.take k := by
  induction acts generalizing k with
  | nil => simp at h
  | cons act acts ih =>
    cases k with
    | zero => rfl
    | succ k =>
      cases acts with
      | nil => simp at h
      | cons act' acts => exact congrArg (act :: ·) (ih (Nat.lt_of_succ_lt_succ h))

/-- Some turns at one sequencer position. -/
theorem foldl_place_actsAt (phase : Phase) (pos : Option Nat) {ops : List Op} (h : ops ≠ []) (p : Phase × Nat) :
    (actsAt phase pos ops).foldl Act.place p = (phase, pos.getD p.2) := by
  induction ops generalizing p with
  | nil => exact absurd rfl h
  | cons op ops ih =>
    cases ops with
    | nil => rfl
    | cons op' ops =>
      refine (ih (List.cons_ne_nil _ _) _).trans ?_
      cases pos <;> rfl

theorem foldl_place_take_actsAt (phase : Phase) (pos : Option Nat) {ops : List Op} {k : Nat} (hk : 1 ≤ k) (h : k ≤ ops.length)
    (p : Phase × Nat) : ((actsAt phase pos ops).take k).foldl Act.place p = (phase, pos.getD p.2) := by
  have htake : (actsAt phase pos ops).take k = actsAt phase pos (ops.take k) := (List.map_take ..).symm
  have hne : ops.take k ≠ [] := List.ne_nil_of_length_pos (by rw [List.length_take]; omega)
  rw [htake, foldl_place_actsAt phase pos hne]

/-- The first `k` ≥ 1 turns of those at one position and of others after them. -/
theorem foldl_place_take (phase : Phase) (pos : Option Nat) (ops : List Op) (rest : List Act) {k : Nat} (hk : 1 ≤ k)
    (p : Phase × Nat) : ((actsAt phase pos ops ++ rest).take k).foldl Act.place p =
      if k ≤ ops.length then (phase, pos.getD p.2)
      else (rest.take (k - ops.length)).foldl Act.place ((actsAt phase pos ops).foldl Act.place p) := by
  have hlen : (actsAt phase pos ops).length = ops.length := List.length_map ..
  rw [List.take_append, hlen]
  split_ifs with h
  · rw [Nat.sub_eq_zero_of_le h, List.take_zero, List.append_nil, foldl_place_take_actsAt phase pos hk h]
  · rw [List.take_of_length_le (by omega), List.foldl_append]

theorem length_positions {position : Nat → List Op} {m n : Nat} (hm : ∀ i < n, (position i).length = m) :
    ((List.range n).flatMap fun i => actsAt .shift (some i) (position i)).length = n * m := by
  have hone : ∀ i ∈ List.range n, (actsAt .shift (some i) (position i)).length = m := fun i hi =>
    (List.length_map ..).trans (hm i (List.mem_range.1 hi))
  rw [List.length_flatMap, List.map_congr_left hone, List.map_const', List.sum_replicate, List.length_range, smul_eq_mul]

/-- The first `k` ≥ 1 turns of the data positions, each of `m` turns but the last, which may have fewer. -/
theorem foldl_place_positions {position : Nat → List Op} {m n k : Nat} (hm : ∀ i, i + 1 < n → (position i).length = m)
    (hlast : ∀ i, i < n → (position i).length ≤ m) (hk : 1 ≤ k)
    (hkn : k ≤ ((List.range n).flatMap fun i => actsAt .shift (some i) (position i)).length) (p : Phase × Nat) :
    (((List.range n).flatMap fun i => actsAt .shift (some i) (position i)).take k).foldl Act.place p =
      (.shift, (k - 1) / m) := by
  induction n with
  | zero =>
    simp at hkn
    omega
  | succ n ih =>
    have hlen := length_positions fun i (hi : i < n) => hm i (Nat.succ_lt_succ hi)
    rw [List.range_succ, List.flatMap_append, List.flatMap_singleton] at hkn ⊢
    by_cases hkl : k ≤ n * m
    · rw [List.take_append_of_le_length (by omega)]
      exact ih (fun i hi => hm i (by omega)) (fun i hi => hlast i (by omega)) (by omega)
    · have hle := hlast n (Nat.lt_succ_self n)
      have hlen' : (actsAt .shift (some n) (position n)).length = (position n).length := List.length_map ..
      rw [List.length_append, hlen, hlen'] at hkn
      rw [List.take_append, hlen, List.take_of_length_le (by omega), List.foldl_append,
        foldl_place_take_actsAt .shift _ (by omega) (by omega), Nat.div_eq_of_lt_le (k := n)]
      · rfl
      · omega
      · rw [Nat.succ_mul]
        omega

/-! ### The parts of a frame -/

/-- The turns of a frame in their parts: baseline, the two pulses of the start signature, the data positions (R149). -/
def frameBody (n : Nat) (base first second : List Op) (position : Nat → List Op) : List Act :=
  actsAt .base none base ++ (actsAt .start (some 0) first ++ (actsAt .start (some 1) second ++
    (List.range n).flatMap fun i => actsAt .shift (some i) (position i)))

theorem length_frameBody (n : Nat) (base first second : List Op) (position : Nat → List Op) :
    (frameBody n base first second position).length = base.length + (first.length + (second.length +
      ((List.range n).flatMap fun i => actsAt .shift (some i) (position i)).length)) := by
  simp only [frameBody, List.length_append, actsAt, List.length_map]

theorem frameEnd_of_mem_frameBody {n : Nat} {base first second : List Op} {position : Nat → List Op} {act : Act}
    (h : act ∈ frameBody n base first second position) : act.frameEnd = none := by
  simp only [frameBody, actsAt, List.mem_append, List.mem_flatMap, List.mem_map] at h
  obtain ⟨_, -, rfl⟩ | ⟨_, -, rfl⟩ | ⟨_, -, rfl⟩ | ⟨_, -, _, -, rfl⟩ := h <;> rfl

/-- PHASE and POS after the first `k` ≥ 1 turns of a frame, short of its last. -/
theorem place_frameBody {n m : Nat} {base first second : List Op} {position : Nat → List Op}
    (hm : ∀ i, i + 1 < n → (position i).length = m) (hlast : ∀ i, i < n → (position i).length ≤ m) {k : Nat} (hk : 1 ≤ k)
    (hkn : k < (endFrame n (frameBody n base first second position)).length) (s : State) :
    ((((endFrame n (frameBody n base first second position)).take k).foldl State.perform s).phase,
      (((endFrame n (frameBody n base first second position)).take k).foldl State.perform s).pos) =
      if k ≤ base.length then (.base, s.pos)
      else if k ≤ base.length + first.length then (.start, 0)
      else if k ≤ base.length + first.length + second.length then (.start, 1)
      else (.shift, (k - (base.length + first.length + second.length + 1)) / m) := by
  have hlen : (endFrame n (frameBody n base first second position)).length =
      (frameBody n base first second position).length := by
    rw [← List.length_map (f := Act.op), endFrame_map_op, List.length_map]
  rw [hlen] at hkn
  rw [take_endFrame n hkn, foldl_perform_place fun act h => frameEnd_of_mem_frameBody (List.mem_of_mem_take h)]
  rw [length_frameBody] at hkn
  rw [frameBody, foldl_place_take _ _ _ _ hk]
  split_ifs with h1 h2 h3
  · rfl
  · rw [foldl_place_take _ _ _ _ (by omega), if_pos (by omega)]
    rfl
  · rw [foldl_place_take _ _ _ _ (by omega), if_neg (by omega), foldl_place_take _ _ _ _ (by omega), if_pos (by omega)]
    rfl
  · rw [foldl_place_take _ _ _ _ (by omega), if_neg (by omega), foldl_place_take _ _ _ _ (by omega), if_neg (by omega),
      foldl_place_positions hm hlast (by omega) (by omega)]
    congr 2
    omega

theorem txSafe_eq (cfg : Config) (v : Vec) : txSafe cfg v = endFrame cfg.nOut (frameBody cfg.nOut
    (pinWriteOps .c false ++ pinWriteOps .a false ++ pinWriteOps .b false ++ [.delay])
    (pinWriteOps .a true ++ pinWriteOps .b true ++ [.delay] ++ safePulse) safePulse
    fun i => safePosition (splitPair false cfg v i)) := by
  simp [txSafe, frameBody, actsAt]

theorem txFast_eq (cfg : Config) (pins : Pins) (v : Vec) (by32 defer : Bool) :
    txFast cfg pins v by32 defer = endFrame cfg.nOut (frameBody cfg.nOut (snapshotOps pins ++ presentOps pins false false)
      (presentOps pins true true ++ clkHighOps true true) (presentOps pins true true ++ clkHighOps true true)
      fun i => fastPosition pins (defer && decide (i + 1 = cfg.nOut)) (splitPair by32 cfg v i)) := by
  simp [txFast, frameBody]

/-- R149 over the turns of DISPATCH. -/
theorem place_dispatchActs {s : State} {k : Nat} (hk : 1 ≤ k) (hkn : k < (dispatchActs s).length) (u : State) :
    ((((dispatchActs s).take k).foldl State.perform u).phase, (((dispatchActs s).take k).foldl State.perform u).pos) =
      if s.fast then fastPlace (order s.pins).length u.pos k else safePlace u.pos k := by
  cases hfast : s.fast with
  | true =>
    have hacts : dispatchActs s = txFast s.cfg s.pins s.vreg s.by32 s.defer := if_pos hfast
    rw [hacts, txFast_eq] at hkn ⊢
    rw [place_frameBody (m := (order s.pins).length + 1) (fun i hi => ?_) (fun i hi => ?_) hk hkn]
    · have hbase : (snapshotOps s.pins ++ presentOps s.pins false false).length = 2 * (order s.pins).length := by
        simp [snapshotOps, presentOps]
        omega
      have hpulse : (presentOps s.pins true true ++ clkHighOps true true).length = (order s.pins).length + 1 := by
        simp [presentOps, clkHighOps]
      have hfirst : 2 * (order s.pins).length + ((order s.pins).length + 1) = 3 * (order s.pins).length + 1 := by omega
      have hsecond : 3 * (order s.pins).length + 1 + ((order s.pins).length + 1) = 4 * (order s.pins).length + 2 := by omega
      rw [hbase, hpulse, hfirst, hsecond, if_pos rfl, fastPlace]
    · rw [length_fastPosition, decide_eq_false (by omega), Bool.and_false]
      rfl
    · rw [length_fastPosition]
      exact Nat.add_le_add_left (Bool.toNat_le _) _
  | false =>
    have hacts : dispatchActs s = txSafe s.cfg s.vreg := if_neg (by simp [hfast])
    rw [hacts, txSafe_eq] at hkn ⊢
    exact place_frameBody (m := 11) (fun _ _ => rfl) (fun _ _ => le_of_eq rfl) hk hkn u

/-- The turns of DISPATCH end with the end of a frame. -/
theorem dispatchActs_eq_endFrame (s : State) : ∃ acts, acts ≠ [] ∧ dispatchActs s = endFrame s.cfg.nOut acts := by
  have hne {base : List Op} (hbase : base ≠ []) (first second : List Op) (position : Nat → List Op) :
      frameBody s.cfg.nOut base first second position ≠ [] := by
    simp [frameBody, actsAt, hbase]
  have hsnapshot : Op.snapshot (regOf s.pins .c) ∈ snapshotOps s.pins ++ presentOps s.pins false false :=
    List.mem_append_left _ (List.mem_map_of_mem (regOf_mem_order s.pins .c))
  unfold dispatchActs
  split
  · exact ⟨_, hne (List.ne_nil_of_mem hsnapshot) _ _ _, txFast_eq ..⟩
  · exact ⟨_, hne (List.cons_ne_nil _ _) _ _ _, txSafe_eq ..⟩

/-! ### A command stopped on the way -/

/-- A command whose script has its act after `k` of the turns. -/
theorem runCommand_stops {s : State} {acts : List Act} {k : Nat} {act : EnvAct} (henv : s.env = [(k, act)]) (hk : k < acts.length) :
    s.runCommand acts =
      { (acts.take k).foldl State.perform { s with busy := true } with pending := acts.drop k, env := [(0, act)] } := by
  rw [← engineRun_stops { s with busy := true } act [] hk, ← henv]
  rfl

theorem foldl_perform_hist (acts : List Act) (s : State) :
    (acts.foldl State.perform s).hist = ((acts.map Act.op).foldl State.doOp s).hist := by
  obtain ⟨phase, pos, h⟩ := foldl_perform_eq acts s
  rw [h]

theorem foldl_perform_cursor {acts : List Act} (h : ∀ act ∈ acts, act.op ≠ .advance) (s : State) :
    (acts.foldl State.perform s).fidx = s.fidx ∧ (acts.foldl State.perform s).dir = s.dir :=
  List.foldlRecOn (motive := fun u : State => u.fidx = s.fidx ∧ u.dir = s.dir) acts _ ⟨rfl, rfl⟩ fun u hu act hact => by
    obtain ⟨hfidx, hdir⟩ := doOp_cursor { u with phase := act.phase, pos := act.pos.getD u.pos } act.op (h act hact)
    exact ⟨hfidx.trans hu.1, hdir.trans hu.2⟩

/-- A busy engine that has taken some turns of a command has emitted their events. -/
theorem hist_of_emits {s : State} {acts : List Act} {es : List Event} (h : Emits s (acts.map Act.op) es) :
    (acts.foldl State.perform s).hist = record es s.hist := by
  rw [foldl_perform_hist, h.hist_port.1]

/-- The state in which the frame for `x` begins: VREG loaded, the engine busy (R170, R173). -/
def State.begun (s : State) (x : Vec) : State := { s.loadVreg x with busy := true }

section
variable {s : State} (h : s.Ready) (x : Vec)
include h

theorem emits_begun : Emits (s.begun x) ((dispatchActs (s.begun x)).map Act.op) (frameEvents s (maskVec s.cfg x)) :=
  emits_dispatchActs (s := s.begun x) ⟨h.nOut, h.pins, h.portWf, h.snapWf, h.lutWf⟩

theorem length_dispatchActs_begun : (dispatchActs (s.begun x)).length = (frameEvents s (maskVec s.cfg x)).length := by
  rw [← (emits_begun h x).length, List.length_map]

/-- The frame in full: its events, PHASE and POS at its end (R149), the cursor where it was. -/
theorem foldl_dispatchActs_begun :
    ((dispatchActs (s.begun x)).foldl State.perform (s.begun x)).hist = record (frameEvents s (maskVec s.cfg x)) s.hist ∧
      ((dispatchActs (s.begun x)).foldl State.perform (s.begun x)).phase = .idle ∧
      ((dispatchActs (s.begun x)).foldl State.perform (s.begun x)).pos = s.cfg.nOut ∧
      ((dispatchActs (s.begun x)).foldl State.perform (s.begun x)).fidx = s.fidx ∧
      ((dispatchActs (s.begun x)).foldl State.perform (s.begun x)).dir = s.dir := by
  obtain ⟨acts, hne, hacts⟩ := dispatchActs_eq_endFrame (s.begun x)
  obtain ⟨hphase, hpos⟩ := foldl_perform_endFrame (s.begun x).cfg.nOut hne (s.begun x)
  rw [← hacts] at hphase hpos
  exact ⟨hist_of_emits (emits_begun h x), hphase, hpos,
    foldl_perform_cursor (fun act ha => (frameOp_dispatchActs (s.begun x) act ha).2) (s.begun x)⟩

end

end Sys2Proof.Machine
end

section
/-! SUPPORT. The statements of the family 42_sequencer.md. -/

namespace Sys2Proof.Machine

open Sys2Proof

/-- Settles O23: the events of a frame are those of its closed form, whose trace is R151's on either path. -/
theorem bothPathsSampleTheSamePairs : Obligations.BothPathsSampleTheSamePairs := by
  refine ⟨fun vec s hinv _ hund => ?_, fun vec s s' hinv hinv' _ _ hcfg henv henv' hfast hfast' hby32 hdefer => ?_⟩
  · obtain ⟨t, hexec, hran⟩ := exec_set_ran vec hinv.ready hund
    exact ⟨t, hexec, hran.traced.trace.trans (lineTrace_frameEvents hinv.ready _)⟩
  · obtain ⟨t, hexec, -, htraced, -⟩ := exec_set_traced vec hinv.ready henv
    obtain ⟨t', hexec', -, htraced', -⟩ := exec_set_traced vec hinv'.ready henv'
    refine ⟨t, t', hexec, hexec', ?_⟩
    rw [htraced.trace, htraced'.trace, hcfg]
    simp [frameTrace, hcfg, hfast, hfast', hby32, hdefer]

/-- Settles O24: the counts of the closed forms, position by position. -/
theorem eventCountsAreFixed : Obligations.EventCountsAreFixed := by
  refine ⟨fun vec s hinv _ hund => ?_, fun s hinv _ hund => ?_⟩
  · obtain ⟨t, hexec, hran⟩ := exec_set_ran vec hinv.ready hund
    have hlen := length_frameTrace hinv.one_le_nOut (maskVec s.cfg vec)
    rw [← lineTrace_frameEvents hinv.ready] at hlen
    refine ⟨t, hexec, fun hfast => ?_, fun hfast => ?_⟩
    · obtain ⟨hrd, hwr, hdly⟩ :=
        countP_lineEvents s.pins s.port (levelsOf s.pins s.port) (safeProgram s.cfg (maskVec s.cfg vec))
      obtain ⟨hputs, hdelays⟩ := countP_safeProgram s.cfg (maskVec s.cfg vec)
      rw [eventsSince_of_record hran.hist]
      rw [frameEvents_of_safe hfast] at hlen ⊢
      exact ⟨hrd.trans hputs, hwr.trans hputs, hdly.trans hdelays, by simpa [hfast] using hlen⟩
    · obtain ⟨hrd, hwr, hdly⟩ := countP_fastEvents hinv.one_le_nOut s.pins s.port (maskVec s.cfg vec) s.by32 s.defer
      rw [eventsSince_of_record hran.hist]
      rw [frameEvents_of_fast hfast] at hlen ⊢
      exact ⟨hrd, hwr, hdly, by simpa [hfast] using hlen⟩
  · obtain ⟨t, hexec, hran⟩ := exec_finish_ran hinv.ready hund
    refine ⟨t, hexec, ?_⟩
    rw [eventsSince_of_record hran.hist, (finishEvents_on_lines hinv.ready rfl).1]
    refine ⟨rfl, rfl, rfl, ?_⟩
    cases hclock : lineLevel s.pins s.port .c <;> simp [sampleBetween, levelsOf, Levels.put, hclock]

/-- Settles O25: the levels that the closed forms leave. -/
theorem linesEndAsTheTableSays : Obligations.LinesEndAsTheTableSays := by
  refine ⟨fun vec s hinv _ hund => ?_, fun s hinv _ hund => ?_⟩
  · obtain ⟨t, hexec, hran⟩ := exec_set_ran vec hinv.ready hund
    have hlevels := levelsOf_frameEvents hinv.ready (maskVec s.cfg vec)
    rw [← hran.port, endLevels_maskVec] at hlevels
    have hb : lineLevel s.pins t.port .b = _ := congrArg Levels.b hlevels
    refine ⟨t, hexec, congrArg Levels.c hlevels, congrArg Levels.a hlevels, hb, fun hfast hk => ?_⟩
    have hpast : ¬ s.cfg.nOut - 1 + s.cfg.shiftK < s.cfg.nOut := by omega
    rw [hb]
    simp [hfast, splitPair, seqB, vecBit, hpast]
  · obtain ⟨t, hexec, hran⟩ := exec_finish_ran hinv.ready hund
    have hlevels := (finishEvents_on_lines hinv.ready rfl).2
    rw [← hran.port] at hlevels
    exact ⟨t, hexec, congrArg Levels.c hlevels, congrArg Levels.a hlevels, congrArg Levels.b hlevels⟩

/-- Settles O27: the events of the safe path are those of its line program, which keeps the pace. -/
theorem safePathPacesEveryClockEdge : Obligations.SafePathPacesEveryClockEdge := by
  intro vec s hinv _ hfast hund
  obtain ⟨t, hexec, hran⟩ := exec_set_ran vec hinv.ready hund
  obtain ⟨-, -, hpaced⟩ := lineEvents_on_lines hinv.ready.pins s.port (safeProgram s.cfg (maskVec s.cfg vec)) hinv.portWf rfl
  refine ⟨t, hexec, ?_⟩
  rw [eventsSince_of_record hran.hist, frameEvents_of_safe hfast]
  exact (hpaced true).trans (programPaced_safeProgram ..)

/-- Settles O28: the trace of each command starts from where the one before left PORT, and the frames' traces do not depend on
it. -/
theorem deferredFrameMergesWithTheNext : Obligations.DeferredFrameMergesWithTheNext := by
  intro v1 v2 s hinv _ henv hfast
  have hn := hinv.one_le_nOut
  obtain ⟨t1, hexec1, hran1, htraced1, henv1, -⟩ := exec_set_traced v1 (hinv.ready.setDefer true) henv
  have hfast1 : t1.fast = true := hran1.fast.trans hfast
  have hby32 : t1.by32 = s.by32 := hran1.by32
  have hcfg : t1.cfg = s.cfg := hran1.cfg
  have htrace1 : frameTrace (s.setDefer true) (maskVec (s.setDefer true).cfg v1) =
      [(true, true), (true, true)] ++ (split s.by32 s.cfg (maskVec s.cfg v1)).dropLast :=
    frameTrace_of_fast (s := s.setDefer true) hfast _
  have hlength : ([(true, true), (true, true)] ++ (split s.by32 s.cfg (maskVec s.cfg v1)).dropLast ++
      [(true, true), (true, true)] ++ split s.by32 s.cfg (maskVec s.cfg v2)).length = 2 * s.cfg.nOut + 3 := by
    simp
    omega
  constructor
  · obtain ⟨t2, hexec2, -, htraced2, -⟩ := exec_set_traced v2 (hran1.ready.setDefer false) henv1
    have htrace2 : frameTrace (t1.setDefer false) (maskVec (t1.setDefer false).cfg v2) =
        [(true, true), (true, true)] ++ split s.by32 s.cfg (maskVec s.cfg v2) := by
      rw [← hby32, ← hcfg]
      exact frameTrace_of_fast (s := t1.setDefer false) hfast1 _
    have htrace := (((traced_setDefer s true).trans htraced1).trans ((traced_setDefer t1 false).trans htraced2)).trace
    rw [htrace1, htrace2] at htrace
    simp only [List.nil_append, ← List.append_assoc] at htrace
    refine ⟨t2, ?_, htrace, htrace ▸ hlength⟩
    rw [execAll_cons (t := s.setDefer true) rfl, execAll_cons hexec1, execAll_cons (t := t1.setDefer false) rfl,
      execAll_cons hexec2, execAll]
  · obtain ⟨t2, hexec2, hran2, htraced2, henv2, hlevels2⟩ := exec_set_traced v2 hran1.ready henv1
    obtain ⟨t3, hexec3, htraced3, -⟩ := exec_finish_traced hran2.ready henv2 hlevels2
    have hdefer : t1.defer = true := hran1.defer
    have htrace2 : frameTrace t1 (maskVec t1.cfg v2) =
        [(true, true), (true, true)] ++ (split s.by32 s.cfg (maskVec s.cfg v2)).dropLast := by
      rw [frameTrace_of_fast hfast1, if_pos hdefer, hby32, hcfg]
    have htrace := (((traced_setDefer s true).trans htraced1).trans (htraced2.trans htraced3)).trace
    rw [htrace1, htrace2, sampleBetween_endLevels hfast1 hdefer, hby32, hcfg, List.append_assoc _ _ [_],
      ← split_eq_dropLast hn] at htrace
    simp only [List.nil_append, ← List.append_assoc] at htrace
    refine ⟨t3, ?_, htrace, htrace ▸ hlength⟩
    rw [execAll_cons (t := s.setDefer true) rfl, execAll_cons hexec1, execAll_cons hexec2, execAll_cons hexec3, execAll]

/-- Settles O29: the script stops the frame after `k` turns, each with its event, and the `k`-th turn's part gives PHASE and POS. -/
theorem phaseAndPositionFollowTheFrame : Obligations.PhaseAndPositionFollowTheFrame := by
  intro vec s k act hinv _ henv hk hkn
  have hkacts : k < (dispatchActs (s.begun vec)).length := length_dispatchActs_begun hinv.ready vec ▸ hkn
  have hrun := runCommand_stops (s := s.loadVreg vec) henv hkacts
  have htake := (emits_begun hinv.ready vec).take k
  rw [← List.map_take] at htake
  exact ⟨_, congrArg Host.Outcome.next hrun, foldl_perform_busy _ (s.begun vec), rfl, hist_of_emits htake,
    place_dispatchActs hk hkacts (s.begun vec)⟩

/-- Settles O32: the deferred frame leaves the clock low and its last pair on the data lines, and FINISH leaves the clock high. -/
theorem finishSamplesTheWithheldPair : Obligations.FinishSamplesTheWithheldPair := by
  intro vec s hinv _ henv hfast hdefer
  obtain ⟨t, hexec, hran, -, htenv, htlevels⟩ := exec_set_traced vec hinv.ready henv
  obtain ⟨u, hexec', htraced, hu, huenv, hulevels⟩ := exec_finish_traced hran.ready htenv htlevels
  have hclock : lineLevel u.pins u.port .c = true := congrArg Levels.c hulevels
  have hpins : t.pins = s.pins := hran.pins
  have hsample : lineTrace t.pins t.port (eventsSince t u) = [splitPair s.by32 s.cfg vec (s.cfg.nOut - 1)] := by
    rw [htraced.trace, sampleBetween_endLevels hfast hdefer, lastPair, splitPair_maskVec]
  refine ⟨t, u, _, hexec, hexec', rfl, ?_, hpins ▸ hsample, ?_, ?_⟩
  · simp [edgePendingAfter, commandEndsFrame, edgeWithheld, sendsFrame, frameUnderWay, hran.pending, hfast, hdefer]
  · simp [edgePendingAfter, commandEndsFrame, edgeWithheld, sendsFrame, hsample]
  · rw [← hpins, ← htraced.pins]
    exact finish_samples_nothing huenv hclock

/-- Settles O48: the frame's turns end in IDLE with POS at `N_OUT`, the `WAITMS` puts the engine in WAIT, and neither moves the
cursor. -/
theorem nextIsIdleAfterItsFrameAndThenWaits : Obligations.NextIsIdleAfterItsFrameAndThenWaits := by
  intro s bytes d act hinv _ hcount hrec hd
  set x := fromBytes s.cfg s.cfg.frameBytes bytes with hx
  have hmask : maskVec s.cfg x = x := maskVec_fromBytes ..
  have hlen := length_dispatchActs_begun hinv.ready x
  obtain ⟨hhist, hphase, hpos, hfidx, hdir⟩ := foldl_dispatchActs_begun hinv.ready x
  rw [hmask] at hlen hhist
  have hnext : exec .next s = .next ((s.loadVreg x).runCommand (dispatchActs (s.begun x) ++ holdActs d)) :=
    exec_next_of_frame hcount.ne' hrec hd
  have hturns : (dispatchActs (s.begun x) ++ holdActs d).length = (frameEvents s x).length + 2 := by
    rw [List.length_append, hlen]
    rfl
  constructor
  · intro henv
    rw [runCommand_stops (s := s.loadVreg x) henv (by omega), ← hlen, List.take_left] at hnext
    exact ⟨_, hnext, foldl_perform_busy _ (s.begun x), hphase, hpos, hhist, hfidx, hdir, rfl⟩
  · intro henv
    rw [runCommand_stops (s := s.loadVreg x) henv (by omega), ← hlen, List.take_length_add_append, List.foldl_append] at hnext
    refine ⟨_, hnext, foldl_perform_busy _ (s.begun x), rfl, hpos, ?_, hfidx, hdir, rfl⟩
    rw [record_append, ← hhist]
    rfl

end Sys2Proof.Machine
end

section
/-! SUPPORT. What a command leaves as it was, field by field, to its end or up to an interruption; what an undisturbed command on an idle
engine ends in; what a step makes of the word it accepts; and the command that the environment's script stops right after its
acceptance. -/

namespace Sys2Proof.Machine

open Sys2Proof

/-! ### What a run leaves as it was -/

/-- What no turn changes, nor the end of a command or an interruption, a run leaves as it was. -/
theorem engineRun_field {α : Type} (f : State → α) {acts : List Act} {s : State}
    (hperform : ∀ act ∈ acts, ∀ u : State, f (u.perform act) = f u) (hcomplete : ∀ u : State, f u.complete = f u)
    (hpending : ∀ (u : State) (rest : List Act), f { u with pending := rest } = f u) : f (engineRun acts s) = f s :=
  engineRun_induction (P := fun u => f u = f s) (fun act ha u h => (hperform act ha u).trans h)
    (fun u h => (hcomplete u).trans h) (fun u _ h => (hpending u _).trans h) rfl

theorem engineRun_offers (acts : List Act) (s : State) : (engineRun acts s).offers = s.offers :=
  engineRun_field State.offers (fun act _ u => perform_offers u act) (fun _ => rfl) fun _ _ => rfl

@[simp] theorem runCommand_offers (s : State) (acts : List Act) : (s.runCommand acts).offers = s.offers := engineRun_offers acts _

@[simp] theorem runCommand_cfg (s : State) (acts : List Act) : (s.runCommand acts).cfg = s.cfg :=
  engineRun_field State.cfg (fun act _ u => perform_cfg u act) (fun _ => rfl) fun _ _ => rfl

@[simp] theorem runCommand_pins (s : State) (acts : List Act) : (s.runCommand acts).pins = s.pins :=
  engineRun_field State.pins (fun act _ u => perform_pins u act) (fun _ => rfl) fun _ _ => rfl

@[simp] theorem runCommand_fast (s : State) (acts : List Act) : (s.runCommand acts).fast = s.fast :=
  engineRun_field State.fast (fun act _ u => perform_fast u act) (fun _ => rfl) fun _ _ => rfl

@[simp] theorem runCommand_by32 (s : State) (acts : List Act) : (s.runCommand acts).by32 = s.by32 :=
  engineRun_field State.by32 (fun act _ u => perform_by32 u act) (fun _ => rfl) fun _ _ => rfl

@[simp] theorem runCommand_defer (s : State) (acts : List Act) : (s.runCommand acts).defer = s.defer :=
  engineRun_field State.defer (fun act _ u => perform_defer u act) (fun _ => rfl) fun _ _ => rfl

/-- The end of a wait apart, no turn moves the cursor. -/
theorem runCommand_cursor {acts : List Act} (h : ∀ act ∈ acts, act.op ≠ .advance) (s : State) :
    (s.runCommand acts).fidx = s.fidx ∧ (s.runCommand acts).dir = s.dir :=
  Prod.mk.inj (engineRun_field (fun u : State => (u.fidx, u.dir))
    (fun act ha u => Prod.ext_iff.2 (doOp_cursor { u with phase := act.phase, pos := act.pos.getD u.pos } act.op (h act ha)))
    (fun _ => rfl) fun _ _ => rfl)

/-- Only a snapshot writes SNAP and LUT. -/
theorem runCommand_tables {acts : List Act} (h : ∀ act ∈ acts, ∀ r, act.op ≠ .snapshot r) (s : State) :
    (s.runCommand acts).snap = s.snap ∧ (s.runCommand acts).lut = s.lut :=
  Prod.mk.inj (engineRun_field (fun u : State => (u.snap, u.lut))
    (fun act ha u => Prod.ext_iff.2 (doOp_tables { u with phase := act.phase, pos := act.pos.getD u.pos } act.op (h act ha)))
    (fun _ => rfl) fun _ _ => rfl)

/-- Only the `RD` of a PinWrite writes the byte `t`. -/
theorem doOp_tmp (s : State) {op : Op} (h : ∀ x, op ≠ .pinRead x) : (s.doOp op).tmp = s.tmp := by
  cases op with
  | pinRead x => exact absurd rfl (h x)
  | _ => rfl

theorem runCommand_tmp {acts : List Act} (h : ∀ act ∈ acts, ∀ x, act.op ≠ .pinRead x) (s : State) :
    (s.runCommand acts).tmp = s.tmp :=
  engineRun_field State.tmp
    (fun act ha u => doOp_tmp { u with phase := act.phase, pos := act.pos.getD u.pos } (h act ha)) (fun _ => rfl) fun _ _ => rfl

/-! ### What SET and SETB leave as it was -/

/-- The safe frame is PinWrites and delays. -/
theorem txSafe_not_snapshot (cfg : Config) (v : Vec) : ∀ act ∈ txSafe cfg v, ∀ r, act.op ≠ .snapshot r := by
  intro act hact r hop
  have hmem : Op.snapshot r ∈ (safeProgram cfg v).flatMap LineOp.ops := by
    rw [← txSafe_ops, ← hop]
    exact List.mem_map_of_mem hact
  obtain ⟨lineOp, -, hlineOp⟩ := List.mem_flatMap.1 hmem
  cases lineOp with
  | put x w => simp [LineOp.ops, pinWriteOps] at hlineOp
  | delay => simp [LineOp.ops] at hlineOp

theorem presentOps_not_pinRead {pins : Pins} {a b : Bool} : ∀ op ∈ presentOps pins a b, ∀ x, op ≠ .pinRead x := by
  simp [presentOps]

theorem fastPosition_not_pinRead {pins : Pins} {withheld : Bool} {pair : Bool × Bool} :
    ∀ op ∈ fastPosition pins withheld pair, ∀ x, op ≠ .pinRead x := by
  refine List.forall_mem_append.2 ⟨presentOps_not_pinRead, ?_⟩
  cases withheld <;> simp [clkHighOps]

/-- The fast frame is snapshots and table writes. -/
theorem txFast_not_pinRead (cfg : Config) (pins : Pins) (v : Vec) (by32 defer : Bool) :
    ∀ act ∈ txFast cfg pins v by32 defer, ∀ x, act.op ≠ .pinRead x := by
  have hpulse : ∀ op ∈ presentOps pins true true ++ clkHighOps true true, ∀ x, op ≠ .pinRead x :=
    fastPosition_not_pinRead (withheld := false) (pair := (true, true))
  have hops : ∀ op ∈ (txFast cfg pins v by32 defer).map Act.op, ∀ x, op ≠ .pinRead x := by
    rw [txFast, endFrame_map_op, List.map_append, List.map_append, List.map_append, List.map_flatMap]
    simp only [actsAt_map_op]
    refine List.forall_mem_append.2 ⟨List.forall_mem_append.2 ⟨List.forall_mem_append.2 ⟨?_, hpulse⟩, hpulse⟩, ?_⟩
    · refine List.forall_mem_append.2 ⟨?_, presentOps_not_pinRead⟩
      simp [snapshotOps]
    · exact List.forall_mem_flatMap.2 fun _ _ => fastPosition_not_pinRead
  exact fun act hact => hops act.op (List.mem_map_of_mem hact)

theorem loadAndDispatch_kept (x : Vec) (s : State) :
    (loadAndDispatch x s).cfg = s.cfg ∧ (loadAndDispatch x s).pins = s.pins ∧ (loadAndDispatch x s).fast = s.fast ∧
      (loadAndDispatch x s).by32 = s.by32 ∧ (loadAndDispatch x s).defer = s.defer ∧
      (loadAndDispatch x s).offers = s.offers := by
  simp [loadAndDispatch]

theorem loadAndDispatch_cursor (x : Vec) (s : State) :
    (loadAndDispatch x s).fidx = s.fidx ∧ (loadAndDispatch x s).dir = s.dir :=
  runCommand_cursor (fun act ha => (frameOp_dispatchActs (s.loadVreg x) act ha).2) (s.loadVreg x)

theorem loadAndDispatch_tables_of_safe {s : State} (h : s.fast = false) (x : Vec) :
    (loadAndDispatch x s).snap = s.snap ∧ (loadAndDispatch x s).lut = s.lut := by
  have hacts : dispatchActs (s.loadVreg x) = txSafe s.cfg (maskVec s.cfg x) := if_neg (by simp [h])
  rw [loadAndDispatch, hacts]
  exact runCommand_tables (txSafe_not_snapshot s.cfg _) (s.loadVreg x)

theorem loadAndDispatch_tmp_of_fast {s : State} (h : s.fast = true) (x : Vec) : (loadAndDispatch x s).tmp = s.tmp := by
  have hacts : dispatchActs (s.loadVreg x) = txFast s.cfg s.pins (maskVec s.cfg x) s.by32 s.defer := if_pos h
  rw [loadAndDispatch, hacts]
  exact runCommand_tmp (txFast_not_pinRead s.cfg s.pins _ _ _) (s.loadVreg x)

/-- Where no line lives every bit is foreign (R121). -/
theorem and_keepMask_of_not_mem {pins : Pins} {r : RegId} (h : r ∉ order pins) (b : Byte) : b &&& keepMask pins r = b := by
  have hbyte := lineByte_of_not_mem h [(r, b)] ⟨false, false, false⟩
  simpa [lineByte, Memory.read_cons] using hbyte

theorem read_eq_of_hasForeignBits {pins : Pins} {m : Memory} {r : RegId} {b : Byte} (hr : r ∉ order pins)
    (h : hasForeignBits pins m r b) : b = m.read r := by
  rwa [hasForeignBits, and_keepMask_of_not_mem hr, and_keepMask_of_not_mem hr] at h

/-! ### The safe path and the flags it does not read -/

theorem perform_withFlags (s : State) (act : Act) (x y : Bool) :
    { s with by32 := x, defer := y }.perform act = { s.perform act with by32 := x, defer := y } := by
  obtain ⟨phase, pos, op, frameEnd⟩ := act
  cases op <;> rfl

/-- The turns of a command, once they are fixed, read neither BY32 nor DEFER. -/
theorem engineRun_withFlags (acts : List Act) (s : State) (x y : Bool) :
    engineRun acts { s with by32 := x, defer := y } = { engineRun acts s with by32 := x, defer := y } := by
  induction acts generalizing s with
  | nil => rfl
  | cons act acts ih =>
    have hdue : State.envDue { s with by32 := x, defer := y } = s.envDue := rfl
    rw [engineRun, engineRun, hdue]
    split
    · rfl
    · rw [perform_withFlags, ih]

/-! ### An undisturbed command on an idle engine -/

/-- An idle engine has nothing to complete (R213). -/
theorem State.Inv.complete_eq {s : State} (h : s.Inv) (hidle : s.busy = false) : s.complete = s := by
  obtain ⟨hphase, hpending⟩ := h.idle hidle
  rw [State.complete, ← hidle, ← hphase, ← hpending]

theorem foldl_doFinish (s : State) : (doFinish.foldl State.perform { s with busy := true }).complete =
    { s.complete with
      port := s.port.write (regOf s.pins .c) (pinByte s.pins .c true (s.port.read (regOf s.pins .c)))
      hist := record [.rd (regOf s.pins .c) (s.port.read (regOf s.pins .c)),
        .wr (regOf s.pins .c) (pinByte s.pins .c true (s.port.read (regOf s.pins .c)))] s.hist
      tmp := s.port.read (regOf s.pins .c)
      env := elapse 1 (elapse 1 s.env) } := rfl

theorem foldl_brightTurn (s : State) (level : Byte) :
    ((actsAt .idle none [.pwm level]).foldl State.perform { s with busy := true }).complete =
      { s.complete with hist := record [.pwm level] s.hist, env := elapse 1 s.env } := rfl

/-- The clock's register has the clock bit already where the clock is high. -/
theorem or_lineMask_of_lineLevel {pins : Pins} {port : Memory} {x : Line} (h : lineLevel pins port x = true) :
    port.read (regOf pins x) ||| lineMask pins x = port.read (regOf pins x) := by
  apply BitVec.eq_of_getLsbD_eq
  intro i _
  rw [BitVec.getLsbD_or, lineMask_getLsbD]
  by_cases hi : i = (pinOf pins x).bit.val
  · have hbit : (port.read (regOf pins x)).getLsbD i = true := hi ▸ h
    rw [hbit, Bool.true_or]
  · rw [decide_eq_false hi, Bool.or_false]

/-! ### A step of the engine -/

/-- An idle engine runs the command of the host's next word (R170). -/
theorem step_of_decode_ok {s : State} {w : CmdWord} {rest : List CmdWord} {i : Instr} (hdue : dueAct s = none)
    (hcfg : configWf s.cfg = true) (hbusy : s.busy = false) (hoffers : s.offers = w :: rest) (hdec : decode w = .ok i) :
    step s = exec i { s with offers := rest, env := elapse 1 s.env } := by
  simp [step, hdue, hcfg, hbusy, acceptOffer, hoffers, hdec]

theorem decode_of_decodeTableWord {nbits w : Nat} {i : Instr} (h : decodeTableWord nbits w = some i) :
    decode (BitVec.ofNat 112 (w % 2 ^ nbits)) = .ok i := by
  unfold decodeTableWord at h
  split at h <;> cases h
  assumption

/-- The engine is in WAIT exactly before the end of the wait, which is the last turn (R26, R190). -/
theorem waitSound_cons {phase : Phase} {act : Act} {acts : List Act} (h : waitSound phase (act :: acts) = true) :
    (phase = .wait ↔ act.op = .advance) ∧ (act.op = .advance → acts = []) := by
  simp only [waitSound, Bool.and_eq_true, Bool.or_eq_true, beq_iff_eq, decide_eq_decide, decide_eq_true_eq,
    List.isEmpty_iff] at h
  obtain ⟨⟨hwait, hlast⟩, -⟩ := h
  exact ⟨hwait, fun hop => hlast.resolve_left fun hne => hne hop⟩

theorem length_pending_engineRun_le (acts : List Act) (s : State) : (engineRun acts s).pending.length ≤ acts.length := by
  obtain h | ⟨k, -, -, h⟩ := engineRun_cases acts s
  · rw [h]
    exact Nat.zero_le _
  · rw [h]
    exact (List.drop_sublist k acts).length_le

/-- With no act due the engine takes at least its next turn. -/
theorem engineRun_cons_of_not_due {s : State} (h : dueAct s = none) (act : Act) (acts : List Act) :
    engineRun (act :: acts) s = engineRun acts (s.perform act) := by
  rw [engineRun, dueAct_eq_none.1 h, if_neg Bool.false_ne_true]

/-- A turn other than the end of a wait, and whatever the run does after it, adds to the history. -/
theorem hist_length_lt_engineRun {s : State} {act : Act} (h : act.op ≠ .advance) (acts : List Act) :
    s.hist.length < (engineRun acts (s.perform act)).hist.length := by
  have hone : (s.perform act).hist.length = s.hist.length + 1 := by
    have hturns : eventTurns [act] = 1 := by simp [eventTurns, h]
    rw [← hturns]
    exact foldl_perform_hist_length [act] s
  have hrest := (engineRun_follows (s := s.perform act) acts rfl rfl).hist.length_le
  omega

/-! ### A command and the script at its acceptance -/

/-- A command without events: it answers at once, whatever the environment's script is, and leaves the script, the history, PORT, BUSY
and the host's stream (R171). -/
structure Quiet (i : Instr) (s u : State) : Prop where
  hist : u.hist = s.hist
  port : u.port = s.port
  busy : u.busy = s.busy
  offers : u.offers = s.offers
  exec_eq : ∀ e, exec i { s with env := e } = .next { u with env := e }

/-- A command with events: the same turns whatever the script is, the first of them with an event. -/
structure Emitting (i : Instr) (s : State) (x : Vec) (act : Act) (acts : List Act) : Prop where
  event : act.op ≠ .advance
  exec_eq : ∀ e, exec i { s with env := e } = .next ({ s with env := e, vreg := x }.runCommand (act :: acts))

theorem exists_dispatchActs_eq_cons (s : State) : ∃ act acts, dispatchActs s = act :: acts ∧ act.op ≠ .advance := by
  obtain ⟨frame, hne, hframe⟩ := dispatchActs_eq_endFrame s
  have hnil : dispatchActs s ≠ [] := fun hempty => hne <| by
    have hlen : (dispatchActs s).length = frame.length := by
      rw [hframe, ← List.length_map (f := Act.op), endFrame_map_op, List.length_map]
    exact List.length_eq_zero_iff.1 (hlen ▸ List.length_eq_zero_iff.2 hempty)
  obtain ⟨act, acts, hacts⟩ := List.exists_cons_of_ne_nil hnil
  exact ⟨act, acts, hacts, (frameOp_dispatchActs s act (hacts ▸ List.mem_cons_self)).2⟩

/-- A command that loads VREG and sends a frame, with what comes after the frame. -/
theorem exists_emitting_of_frame {i : Instr} {s : State} (x : Vec) (rest : List Act)
    (h : ∀ e, exec i { s with env := e } =
      .next (({ s with env := e }.loadVreg x).runCommand (dispatchActs (s.loadVreg x) ++ rest))) :
    ∃ x act acts, Emitting i s x act acts := by
  obtain ⟨act, acts, hacts, hop⟩ := exists_dispatchActs_eq_cons (s.loadVreg x)
  rw [hacts] at h
  exact ⟨maskVec s.cfg x, act, acts ++ rest, hop, h⟩

theorem exec_quiet_or_emitting {i : Instr} {s t : State} {e : List (Nat × EnvAct)} (h : exec i { s with env := e } = .next t) :
    (∃ u, Quiet i s u) ∨ ∃ x act acts, Emitting i s x act acts := by
  obtain ⟨v, rfl, -⟩ | ⟨v, rfl, -⟩ | ⟨v, rfl, -⟩ | ⟨rfl, -⟩ | ⟨l, rfl, hp, -⟩ | ⟨l, p, rfl, hp, -⟩ | ⟨x, rfl, -⟩ | ⟨bs, rfl, -⟩ |
    ⟨rfl, hn, -⟩ | ⟨rfl, hn, bytes, d, hrec, hd, -⟩ := exec_cases h
  · exact .inl ⟨s.setFast v, rfl, rfl, rfl, rfl, fun _ => rfl⟩
  · exact .inl ⟨s.setBy32 v, rfl, rfl, rfl, rfl, fun _ => rfl⟩
  · exact .inl ⟨s.setDefer v, rfl, rfl, rfl, rfl, fun _ => rfl⟩
  · exact .inr ⟨s.vreg, _, _, by simp, fun _ => rfl⟩
  · exact .inl ⟨s, rfl, rfl, rfl, rfl, fun e' => exec_bright_of_none (s := { s with env := e' }) l hp⟩
  · exact .inr ⟨s.vreg, _, _, by simp, fun e' => exec_bright_of_some (s := { s with env := e' }) l hp⟩
  · exact .inr (exists_emitting_of_frame x [] fun _ => by rw [List.append_nil]; rfl)
  · exact .inr (exists_emitting_of_frame (fromBytes s.cfg bs.length bs) [] fun _ => by rw [List.append_nil]; rfl)
  · exact .inl ⟨s, rfl, rfl, rfl, rfl, fun e' => exec_next_of_empty (s := { s with env := e' }) hn⟩
  · exact .inr (exists_emitting_of_frame (fromBytes s.cfg s.cfg.frameBytes bytes) (holdActs d) fun e' =>
      exec_next_of_frame (s := { s with env := e' }) hn hrec hd)

/-- An act that comes one turn after an idle engine's acceptance of a command: the next step is that act, and the command has not begun,
or, where it has no event, is complete (R221). -/
theorem exec_stopped_at_acceptance {i : Instr} {s u : State} (act : EnvAct) (hidle : s.busy = false)
    (h : exec i { s with env := [] } = .next u) :
    ∃ t, exec i { s with env := [(0, act)] } = .next t ∧ t.offers = s.offers ∧ t.hist = s.hist ∧ t.port = s.port ∧
      t.env = [(0, act)] ∧ t.busy = !(eventsSince s u).isEmpty ∧ (u.hist = s.hist → t = { u with env := [(0, act)] }) := by
  obtain ⟨v, hv⟩ | ⟨x, a, acts, hrun⟩ := exec_quiet_or_emitting h
  · obtain rfl := Host.Outcome.next.inj (h.symm.trans (hv.exec_eq []))
    have hnone : eventsSince s { v with env := [] } = [] := eventsSince_of_hist (new := []) hv.hist
    refine ⟨_, hv.exec_eq [(0, act)], hv.offers, hv.hist, hv.port, rfl, ?_, fun _ => rfl⟩
    rw [hnone]
    exact hv.busy.trans hidle
  · obtain rfl := Host.Outcome.next.inj (h.symm.trans (hrun.exec_eq []))
    have hgrows : s.hist.length < ({ s with env := [], vreg := x }.runCommand (a :: acts)).hist.length :=
      hist_length_lt_engineRun (s := { s with env := [], vreg := x, busy := true }) hrun.event acts
    have hsome : (eventsSince s ({ s with env := [], vreg := x }.runCommand (a :: acts))).isEmpty = false := by
      rw [List.isEmpty_eq_false_iff, ← List.length_pos_iff, eventsSince_length]
      omega
    refine ⟨_, hrun.exec_eq [(0, act)], rfl, rfl, rfl, rfl, ?_, fun hhist => ?_⟩
    · rw [hsome]
      rfl
    · rw [hhist] at hgrows
      exact absurd hgrows (Nat.lt_irrefl _)

end Sys2Proof.Machine
end

section
/-! SUPPORT. The statements of the family 43_controller_commands.md. -/

namespace Sys2Proof.Machine

open Sys2Proof

/-- Settles O19: the frame's turns emit its closed form, PORT is what these events make of it, and the last turn leaves POS at `N_OUT`. -/
theorem setLoadsTheVectorAndSendsTheFrame : Obligations.SetLoadsTheVectorAndSendsTheFrame := by
  intro vec s hinv _ hund
  obtain ⟨t, hexec, hran⟩ := exec_set_ran vec hinv.ready hund
  have ht : t = ((dispatchActs (s.begun vec)).foldl State.perform (s.begun vec)).complete := by
    rw [← length_dispatchActs_begun hinv.ready] at hund
    exact (Host.Outcome.next.inj hexec).symm.trans (engineRun_undisturbed _ (s.begun vec) hund)
  obtain ⟨-, -, hpos, -⟩ := foldl_dispatchActs_begun hinv.ready vec
  have hvreg : t.vreg = maskVec s.cfg vec :=
    Host.Outcome.next.inj hexec ▸ runCommand_vreg (s.loadVreg vec) _
  refine ⟨t, hexec, hvreg, hran.hist, hran.port, ?_⟩
  rw [ht]
  exact ⟨rfl, rfl, hpos, rfl⟩

/-- Settles O20: both commands load a vector and send it, and `FROM_BYTES` is masked already. -/
theorem setbActsAsSetOfItsBytes : Obligations.SetbActsAsSetOfItsBytes := fun bytes s =>
  ⟨_, rfl, rfl, (runCommand_vreg (s.loadVreg (fromBytes s.cfg bytes.length bytes)) _).trans (maskVec_fromBytes ..)⟩

/-- Settles O21: the turns of a frame leave these fields, and what they write in PORT keeps the foreign bits, which outside ORDER are all
the bits. -/
theorem vectorCommandsLeaveTheRestUnchanged : Obligations.VectorCommandsLeaveTheRestUnchanged := by
  intro i s t hi hinv _ hexec
  obtain ⟨x, rfl⟩ : ∃ x, t = loadAndDispatch x s := by
    obtain ⟨v, rfl⟩ | ⟨bs, rfl⟩ := hi
    · exact ⟨v, (Host.Outcome.next.inj hexec).symm⟩
    · exact ⟨_, (Host.Outcome.next.inj hexec).symm⟩
  obtain ⟨hcfg, hpins, hfast, hby32, hdefer, hoffers⟩ := loadAndDispatch_kept x s
  obtain ⟨hfidx, hdir⟩ := loadAndDispatch_cursor x s
  have hforeign := exec_foreign_bits hinv.portWf hinv.lutWf hexec
  exact ⟨hcfg, hpins, hfast, hby32, hdefer, hfidx, hdir, hoffers, fun hsafe => loadAndDispatch_tables_of_safe hsafe x,
    fun hfast => loadAndDispatch_tmp_of_fast hfast x, fun r hr => read_eq_of_hasForeignBits hr (hforeign r), hforeign⟩

/-- Settles O26: the turns of TX_SAFE are made without the two flags, and no turn reads them. -/
theorem safePathIgnoresBy32AndDefer : Obligations.SafePathIgnoresBy32AndDefer := by
  intro vec s x y hsafe
  have hacts : dispatchActs (State.loadVreg { s with by32 := x, defer := y } vec) = dispatchActs (s.loadVreg vec) := by
    simp [dispatchActs, hsafe]
  refine ⟨_, rfl, congrArg Host.Outcome.next ?_⟩
  rw [loadAndDispatch, hacts]
  exact engineRun_withFlags _ { s.loadVreg vec with busy := true } x y

/-- Settles O30: the two turns of FINISH, with the byte of the `WR` being the byte read with the clock's bit set. -/
theorem finishRaisesTheClockAndNothingElse : Obligations.FinishRaisesTheClockAndNothingElse := by
  intro s hinv hidle hund
  refine ⟨congrArg Host.Outcome.next ?_, fun hclock => ?_⟩
  · rw [State.runCommand, engineRun_undisturbed doFinish { s with busy := true } hund, foldl_doFinish, hinv.complete_eq hidle,
      pinByte_true, elapse_elapse]
  · rw [or_lineMask_of_lineLevel hclock]
    exact Memory.write_read_self hinv.portWf _

/-- Settles O39: the engine takes its next turn, which has an event unless it is the end of the wait, and that is the last. -/
theorem busyEngineAcceptsNoCommand : Obligations.BusyEngineAcceptsNoCommand := by
  intro s hinv hbusy hdue
  obtain ⟨act, acts, hpending⟩ := List.exists_cons_of_ne_nil (hinv.busy hbusy)
  obtain ⟨hwait, hlast⟩ := waitSound_cons (hpending ▸ hinv.waiting)
  have hstep := step_of_busy hdue hinv.config hbusy
  rw [State.resume, hpending, engineRun_cons_of_not_due hdue] at hstep
  refine ⟨_, hstep, (engineRun_offers ..).trans (perform_offers s act), by simp [State.cmdReady, hbusy], ?_, fun hphase => ?_,
    fun hphase => ?_⟩
  · rw [hpending]
    exact Nat.lt_succ_of_le (length_pending_engineRun_le ..)
  · exact hist_length_lt_engineRun (fun hop => hphase (hwait.2 hop)) acts
  · rw [hlast (hwait.1 hphase)]
    rfl

/-- Settles O41: each command by its own meaning; the turns of a run leave all of it but the cursor and the tables, and only a NEXT has the
turn that moves the cursor. -/
theorem commandsWriteOnlyWhatTheirRuleNames : Obligations.CommandsWriteOnlyWhatTheirRuleNames := by
  intro i s t h
  obtain ⟨v, rfl, rfl⟩ | ⟨v, rfl, rfl⟩ | ⟨v, rfl, rfl⟩ | ⟨rfl, rfl⟩ | ⟨l, rfl, -, rfl⟩ | ⟨l, p, rfl, -, rfl⟩ | ⟨x, rfl, rfl⟩ |
    ⟨bs, rfl, rfl⟩ | ⟨rfl, -, rfl⟩ | ⟨rfl, -, bytes, d, -, -, rfl⟩ := exec_cases h
  · simp
  · simp
  · simp
  · have hcursor := runCommand_cursor (acts := doFinish) (by decide) s
    have htables := runCommand_tables (acts := doFinish) (by simp [doFinish, actsAt, pinWriteOps]) s
    simp [hcursor, htables]
  · simp
  · have hcursor := runCommand_cursor (acts := actsAt .idle none [.pwm l]) (by simp [actsAt]) s
    have htables := runCommand_tables (acts := actsAt .idle none [.pwm l]) (by simp [actsAt]) s
    simp [hcursor, htables]
  · simp [loadAndDispatch_kept, loadAndDispatch_cursor]
  · simp [loadAndDispatch_kept, loadAndDispatch_cursor]
  · simp
  · simp [playFrame]

/-- Settles O50: the act is due right after the acceptance, whatever the command; with an act due, `step` is the act. -/
theorem environmentCanActRightAfterAcceptance : Obligations.EnvironmentCanActRightAfterAcceptance := by
  intro s u w rest i act hinv hidle henv hoffers hdec hexec
  obtain ⟨t, hstop, htoffers, hthist, htport, htenv, htbusy, htquiet⟩ :=
    exec_stopped_at_acceptance (s := { s with offers := rest }) act hidle hexec
  have hstep := step_of_decode_ok (dueAct_eq_none.2 (by simp [State.envDue, henv])) hinv.config hidle hoffers hdec
  rw [henv, elapse_cons] at hstep
  have hact := step_of_envDue htenv
  refine ⟨t, hstep.trans hstop, htoffers, hthist, htport, htenv, htbusy, htquiet, hact, ?_⟩
  rintro straps rfl
  exact ⟨_, hact, hthist, htport, htoffers, rfl, rfl, rfl, rfl, rfl⟩

/-- Settles O18: the meaning of each is the one update. -/
theorem modeCommandsWriteTheirFlagOnly : Obligations.ModeCommandsWriteTheirFlagOnly := fun _ _ => ⟨rfl, rfl, rfl⟩

/-- Settles O31: the one turn of BRIGHT is the `PWM`. -/
theorem brightHandsTheLevelToThePwmUnit : Obligations.BrightHandsTheLevelToThePwmUnit := by
  intro level s hinv hidle hund
  cases hp : s.cfg.brtPin with
  | none => rw [exec_bright_of_none level hp, if_pos rfl]
  | some p =>
    rw [exec_bright_of_some level hp, if_neg (by simp), State.runCommand,
      engineRun_undisturbed (actsAt .idle none [.pwm level]) { s with busy := true } hund, foldl_brightTurn,
      hinv.complete_eq hidle]

/-- Settles O37: with no act due and the engine idle, `step` comes to the decoder, and its answer is the one `exec` gives. -/
theorem stepRunsTheDecodedCommand : Obligations.StepRunsTheDecodedCommand := fun _ _ _ _ hdue hcfg hbusy hoffers hdec =>
  step_of_decode_ok hdue hcfg hbusy hoffers hdec

/-- Settles O38: the laid word is the first that the idle engine is offered, with an empty script. -/
theorem laidWordIsTheNextCommand : Obligations.LaidWordIsTheNextCommand := fun s w _ hcfg hdec =>
  step_of_decode_ok (s := s.withFetchWord 112 w) rfl hcfg rfl rfl (decode_of_decodeTableWord hdec)

end Sys2Proof.Machine
end

section
/-! SUPPORT. Every step keeps the invariant: the turns of each command are sound and in agreement with WAIT, a turn keeps what the
invariant says of a command under way, and so do the end of a run and its interruption. -/

namespace Sys2Proof.Machine

open Sys2Proof

/-! ### The turns of a transmission are sound -/

/-- The sequencer positions of a turn that is not in WAIT (R26, R149). -/
inductive SequencerPlace (cfg : Config) : Phase → Option Nat → Prop where
  | idle : SequencerPlace cfg .idle none
  | base : SequencerPlace cfg .base none
  | start {p : Nat} (h : p ≤ 1) : SequencerPlace cfg .start (some p)
  | shift {p : Nat} (h : p < cfg.nOut) : SequencerPlace cfg .shift (some p)

/-- The turn has such a position, and a frame it ends, it ends in SHIFT with POS = `N_OUT`. -/
structure Act.Placed (cfg : Config) (act : Act) : Prop where
  place : SequencerPlace cfg act.phase act.pos
  frameEnd : act.frameEnd = none ∨ act.phase = .shift ∧ act.frameEnd = some cfg.nOut

theorem Act.Placed.phase_ne_wait {cfg : Config} {act : Act} (h : act.Placed cfg) : act.phase ≠ .wait := by
  intro hwait
  have hplace := h.place
  rw [hwait] at hplace
  cases hplace

/-- A turn at such a position is sound where its operation belongs to a transmission and begins no wait. -/
theorem Act.Placed.actSound {cfg : Config} {pins : Pins} {act : Act} (h : act.Placed cfg) (hop : frameOp pins act.op)
    (hhold : act.op.isHold = false) : actSound cfg pins act = true := by
  obtain ⟨hplace, hend⟩ := h
  obtain ⟨hsound, hadvance⟩ := hop
  obtain ⟨phase, pos, op, frameEnd⟩ := act
  cases hplace with
  | idle => simp_all [Machine.actSound, positionSound]
  | base => simp_all [Machine.actSound, positionSound]
  | start hp => simp_all [Machine.actSound, positionSound]
  | shift hp => obtain rfl | ⟨-, rfl⟩ := hend <;> simp_all [Machine.actSound, positionSound]

theorem placed_actsAt {cfg : Config} {phase : Phase} {pos : Option Nat} (h : SequencerPlace cfg phase pos) (ops : List Op) :
    ∀ act ∈ actsAt phase pos ops, act.Placed cfg := by
  intro act hact
  obtain ⟨op, -, rfl⟩ := List.mem_map.1 hact
  exact ⟨h, .inl rfl⟩

/-- Only the last turn of a frame is marked. -/
theorem endFrame_append (n : Nat) (front : List Act) {back : List Act} (h : back ≠ []) :
    endFrame n (front ++ back) = front ++ endFrame n back := by
  induction front with
  | nil => rfl
  | cons act front ih =>
    obtain ⟨act', rest, hrest⟩ := List.exists_cons_of_ne_nil (List.append_ne_nil_of_right_ne_nil front h)
    rw [List.cons_append, List.cons_append, ← ih, hrest, endFrame]

theorem placed_endFrame_shift {cfg : Config} {p : Nat} (h : p < cfg.nOut) (ops : List Op) :
    ∀ act ∈ endFrame cfg.nOut (actsAt .shift (some p) ops), act.Placed cfg := by
  induction ops with
  | nil => nofun
  | cons op ops ih =>
    cases ops with
    | nil =>
      intro act hact
      obtain rfl := List.mem_singleton.1 hact
      exact ⟨.shift h, .inr ⟨rfl, rfl⟩⟩
    | cons op' ops => exact List.forall_mem_cons.2 ⟨⟨.shift h, .inl rfl⟩, ih⟩

/-- The turns of a frame with a last position have the positions of R149. -/
theorem placed_frame {cfg : Config} {n : Nat} (hn : cfg.nOut = n + 1) (base first second : List Op) {position : Nat → List Op}
    (hlast : position n ≠ []) : ∀ act ∈ endFrame cfg.nOut (frameBody cfg.nOut base first second position), act.Placed cfg := by
  have hbody : frameBody cfg.nOut base first second position = frameBody n base first second position ++
      actsAt .shift (some n) (position n) := by
    simp [frameBody, hn, List.range_succ]
  rw [hbody, endFrame_append _ _ (by simpa [actsAt] using hlast)]
  refine List.forall_mem_append.2 ⟨?_, placed_endFrame_shift (by omega) _⟩
  refine List.forall_mem_append.2 ⟨placed_actsAt .base base, List.forall_mem_append.2 ⟨placed_actsAt (.start (by omega)) first,
    List.forall_mem_append.2 ⟨placed_actsAt (.start (by omega)) second, List.forall_mem_flatMap.2 fun i hi => ?_⟩⟩⟩
  exact placed_actsAt (.shift (by have := List.mem_range.1 hi; omega)) _

theorem placed_dispatchActs {s : State} (h : 1 ≤ s.cfg.nOut) : ∀ act ∈ dispatchActs s, act.Placed s.cfg := by
  obtain ⟨n, hn⟩ := Nat.exists_eq_add_of_le' h
  have hpresent (withheld : Bool) (pair : Bool × Bool) : fastPosition s.pins withheld pair ≠ [] :=
    List.append_ne_nil_of_left_ne_nil
      (List.ne_nil_of_mem (List.mem_map_of_mem (f := (Op.table · pair.1 pair.2)) (regOf_mem_order s.pins .c))) _
  unfold dispatchActs
  split
  · rw [txFast_eq]
    refine placed_frame hn _ _ _ ?_
    exact hpresent _ _
  · rw [txSafe_eq]
    exact placed_frame hn _ _ _ (List.cons_ne_nil _ _)

theorem isHold_of_mem_txSafe {cfg : Config} {v : Vec} {op : Op} (h : op ∈ (txSafe cfg v).map Act.op) : op.isHold = false := by
  rw [txSafe_ops] at h
  obtain ⟨lineOp, -, hop⟩ := List.mem_flatMap.1 h
  cases lineOp with
  | put x w =>
    simp only [LineOp.ops, pinWriteOps, List.mem_cons, List.not_mem_nil, or_false] at hop
    obtain rfl | rfl := hop <;> rfl
  | delay =>
    obtain rfl := List.mem_singleton.1 hop
    rfl

theorem isHold_of_mem_fastPosition {pins : Pins} {withheld : Bool} {pair : Bool × Bool} {op : Op}
    (h : op ∈ fastPosition pins withheld pair) : op.isHold = false := by
  obtain h | h := List.mem_append.1 h
  · obtain ⟨r, -, rfl⟩ := List.mem_map.1 h
    rfl
  · cases withheld with
    | true => cases h
    | false =>
      obtain rfl := List.mem_singleton.1 h
      rfl

theorem isHold_of_mem_txFast {cfg : Config} {pins : Pins} {v : Vec} {by32 defer : Bool} (hn : 1 ≤ cfg.nOut) {op : Op}
    (h : op ∈ (txFast cfg pins v by32 defer).map Act.op) : op.isHold = false := by
  obtain ⟨n, hn'⟩ := Nat.exists_eq_add_of_le' hn
  have hpresent : presentOps pins false false = fastPosition pins true (false, false) := by simp [fastPosition]
  rw [txFast_ops hn', hpresent] at h
  simp only [List.mem_append, List.mem_flatMap] at h
  obtain (h | ((h | h) | h) | ⟨i, -, h⟩) | h := h
  · obtain ⟨r, -, rfl⟩ := List.mem_map.1 h
    rfl
  all_goals exact isHold_of_mem_fastPosition h

theorem isHold_dispatchActs {s : State} (h : 1 ≤ s.cfg.nOut) : ∀ act ∈ dispatchActs s, act.op.isHold = false := by
  intro act hact
  have hop : act.op ∈ (dispatchActs s).map Act.op := List.mem_map_of_mem hact
  unfold dispatchActs at hop
  split at hop
  · exact isHold_of_mem_txFast h hop
  · exact isHold_of_mem_txSafe hop

/-! ### The turns of a command -/

/-- Turns that an idle engine can begin: each is sound, and they agree with WAIT (R26, R190). -/
structure Startable (cfg : Config) (pins : Pins) (acts : List Act) : Prop where
  sound : acts.all (actSound cfg pins) = true
  waiting : waitSound .idle acts = true

theorem startable_doFinish (cfg : Config) (pins : Pins) : Startable cfg pins doFinish := ⟨rfl, rfl⟩

theorem startable_bright (cfg : Config) (pins : Pins) (level : Byte) :
    Startable cfg pins (actsAt .idle none [.pwm level]) := ⟨rfl, rfl⟩

/-- A frame, and after it turns that are sound and agree with WAIT. -/
theorem startable_frame {s : State} (h : 1 ≤ s.cfg.nOut) {rest : List Act} (hsound : rest.all (actSound s.cfg s.pins) = true)
    (hwaiting : ∀ phase, phase ≠ .wait → waitSound phase rest = true) :
    Startable s.cfg s.pins (dispatchActs s ++ rest) where
  sound := by
    rw [List.all_append, hsound, Bool.and_true, List.all_eq_true]
    exact fun act hact =>
      (placed_dispatchActs h act hact).actSound (frameOp_dispatchActs s act hact) (isHold_dispatchActs h act hact)
  waiting := waitSound_append (by simp)
    (fun act hact => ⟨(placed_dispatchActs h act hact).phase_ne_wait, (frameOp_dispatchActs s act hact).2⟩) hwaiting

theorem startable_dispatchActs {s : State} (h : 1 ≤ s.cfg.nOut) : Startable s.cfg s.pins (dispatchActs s) := by
  simpa using startable_frame h (rest := []) rfl fun phase hphase => decide_eq_true hphase

theorem startable_playFrame {s : State} (h : 1 ≤ s.cfg.nOut) (d : BitVec 16) :
    Startable s.cfg s.pins (dispatchActs s ++ holdActs d) :=
  startable_frame h rfl fun _ hphase => waitSound_holdActs d hphase

/-! ### A command under way -/

/-- What the invariant says of a busy engine that has the turns `acts` still to take. -/
structure UnderWay (s : State) (acts : List Act) : Prop where
  config : configWf s.cfg = true
  resolved : s.pins = resolvePins s.cfg
  vregMasked : maskVec s.cfg s.vreg = s.vreg
  portWf : s.port.wf = true
  snapWf : s.snap.wf = true
  lutWf : s.lut.wf = true
  cursor : 0 < s.cfg.frameCount → s.fidx.toNat < s.cfg.frameCount
  posBound : s.pos ≤ s.cfg.nOut
  posStart : s.phase = .start → s.pos ≤ 1
  busy : s.busy = true
  waiting : waitSound s.phase acts = true
  sound : acts.all (actSound s.cfg s.pins) = true
  scriptSound : s.env.all (fun e => envActSound e.2) = true

theorem elapse_scriptSound {e : List (Nat × EnvAct)} (n : Nat) (h : e.all (fun e => envActSound e.2) = true) :
    (elapse n e).all (fun e => envActSound e.2) = true := by
  cases e with
  | nil => rfl
  | cons _ _ => exact h

/-- No turn takes the cursor out of the tables (R191). -/
theorem perform_cursor_lt {s : State} (act : Act) (h : s.fidx.toNat < s.cfg.frameCount) :
    (s.perform act).fidx.toNat < s.cfg.frameCount := by
  obtain ⟨phase, pos, op, frameEnd⟩ := act
  by_cases hop : op = .advance
  · subst hop
    exact advanceCursor_lt h
  · obtain ⟨hfidx, -⟩ := foldl_perform_cursor (acts := [⟨phase, pos, op, frameEnd⟩]) (by simpa using hop) s
    rw [List.foldl_cons, List.foldl_nil] at hfidx
    rwa [hfidx]

/-- An interrupted command leaves its other turns pending. -/
theorem UnderWay.interrupted {s : State} {acts : List Act} (h : UnderWay s acts) (hne : acts ≠ []) :
    State.Inv { s with pending := acts } :=
  ⟨h.config, h.resolved, h.vregMasked, h.portWf, h.snapWf, h.lutWf, h.cursor, h.posBound, h.posStart,
    fun hidle => absurd (h.busy.symm.trans hidle) (by simp), fun _ => hne, h.waiting, h.sound, h.scriptSound⟩

theorem UnderWay.perform {s : State} {act : Act} {acts : List Act} (h : UnderWay s (act :: acts)) :
    UnderWay (s.perform act) acts := by
  obtain ⟨hact, hacts⟩ : actSound s.cfg s.pins act = true ∧ acts.all (actSound s.cfg s.pins) = true := by
    simpa only [List.all_cons, Bool.and_eq_true] using h.sound
  obtain ⟨hport, hsnap, hlut⟩ := perform_wf s act h.portWf h.snapWf h.lutWf
  obtain ⟨hpos, hstart⟩ := perform_pos_bound hact h.posBound (h.interrupted (List.cons_ne_nil _ _)).one_le_nOut
  constructor
  case config => rw [perform_cfg]; exact h.config
  case resolved => rw [perform_cfg, perform_pins]; exact h.resolved
  case vregMasked => rw [perform_cfg, perform_vreg]; exact h.vregMasked
  case portWf => exact hport
  case snapWf => exact hsnap
  case lutWf => exact hlut
  case cursor => rw [perform_cfg]; exact fun hn => perform_cursor_lt act (h.cursor hn)
  case posBound => rw [perform_cfg]; exact hpos
  case posStart => exact hstart
  case busy => rw [perform_busy]; exact h.busy
  case waiting => exact perform_waitSound h.waiting
  case sound => rw [perform_cfg, perform_pins]; exact hacts
  case scriptSound => rw [perform_env]; exact elapse_scriptSound 1 h.scriptSound

/-- At the end of a command the engine is idle with nothing under way (R213). -/
theorem UnderWay.complete {s : State} (h : UnderWay s []) : s.complete.Inv :=
  ⟨h.config, h.resolved, h.vregMasked, h.portWf, h.snapWf, h.lutWf, h.cursor, h.posBound, nofun, fun _ => ⟨rfl, rfl⟩, nofun,
    rfl, rfl, h.scriptSound⟩

/-- A run keeps the invariant to its end or up to an interruption. -/
theorem UnderWay.engineRun_inv {s : State} {acts : List Act} (h : UnderWay s acts) : (engineRun acts s).Inv := by
  obtain ⟨u, hu, hrun⟩ | ⟨u, rest, hu, hne, -, hrun⟩ := engineRun_rest (P := UnderWay) (fun _ _ _ h => h.perform) h
  · exact hrun ▸ hu.complete
  · exact hrun ▸ hu.interrupted hne

theorem State.Inv.underWay {s : State} (h : s.Inv) (hbusy : s.busy = true) : UnderWay s s.pending :=
  ⟨h.config, h.resolved, h.vregMasked, h.portWf, h.snapWf, h.lutWf, h.cursor, h.posBound, h.posStart, hbusy, h.waiting,
    h.pendingSound, h.scriptSound⟩

/-- An idle engine that begins such turns. -/
theorem State.Inv.runCommand {s : State} (h : s.Inv) (hidle : s.busy = false) {acts : List Act}
    (hacts : Startable s.cfg s.pins acts) : (s.runCommand acts).Inv := by
  have hphase : s.phase = .idle := (h.idle hidle).1
  have hstart : UnderWay { s with busy := true } acts :=
    ⟨h.config, h.resolved, h.vregMasked, h.portWf, h.snapWf, h.lutWf, h.cursor, h.posBound, h.posStart, rfl,
      hphase.symm ▸ hacts.waiting, hacts.sound, h.scriptSound⟩
  exact hstart.engineRun_inv

/-! ### Commands, acts of the environment, steps -/

/-- The flags, the history and the host's stream enter no clause of the invariant; a masked VREG, a PORT in canonical form and a script
with well-formed straps can stand for those of the state. -/
theorem State.Inv.replaced {s : State} (h : s.Inv) {v : Vec} {port : Memory} {env : List (Nat × EnvAct)}
    (hv : maskVec s.cfg v = v) (hport : port.wf = true) (henv : env.all (fun e => envActSound e.2) = true)
    (fast by32 defer : Bool) (hist : List (Agent × Event)) (offers : List CmdWord) :
    State.Inv { s with
      vreg := v, fast := fast, by32 := by32, defer := defer, port := port, hist := hist, offers := offers, env := env } :=
  ⟨h.config, h.resolved, hv, hport, h.snapWf, h.lutWf, h.cursor, h.posBound, h.posStart, h.idle, h.busy, h.waiting,
    h.pendingSound, henv⟩

theorem State.Inv.withFlags {s : State} (h : s.Inv) (fast by32 defer : Bool) :
    State.Inv { s with fast := fast, by32 := by32, defer := defer } :=
  h.replaced h.vregMasked h.portWf h.scriptSound fast by32 defer s.hist s.offers

theorem State.Inv.withScripts {s : State} (h : s.Inv) (offers : List CmdWord) {env : List (Nat × EnvAct)}
    (henv : env.all (fun e => envActSound e.2) = true) : State.Inv { s with offers := offers, env := env } :=
  h.replaced h.vregMasked h.portWf henv s.fast s.by32 s.defer s.hist offers

theorem State.Inv.loadVreg {s : State} (h : s.Inv) (x : Vec) : (s.loadVreg x).Inv :=
  h.replaced (maskVec_maskVec ..) h.portWf h.scriptSound s.fast s.by32 s.defer s.hist s.offers

theorem State.Inv.loadAndDispatch {s : State} (h : s.Inv) (hidle : s.busy = false) (x : Vec) : (loadAndDispatch x s).Inv :=
  (h.loadVreg x).runCommand hidle (startable_dispatchActs (s := s.loadVreg x) h.one_le_nOut)

theorem State.Inv.playFrame {s : State} (h : s.Inv) (hidle : s.busy = false) (record : List Byte) (d : BitVec 16) :
    (playFrame record d s).Inv :=
  (h.loadVreg _).runCommand hidle (startable_playFrame (s := s.loadVreg (fromBytes s.cfg s.cfg.frameBytes record))
    h.one_le_nOut d)

/-- A command that an idle engine has accepted. -/
theorem State.Inv.exec {i : Instr} {s t : State} (h : s.Inv) (hidle : s.busy = false) (hexec : exec i s = .next t) : t.Inv := by
  obtain ⟨v, -, rfl⟩ | ⟨v, -, rfl⟩ | ⟨v, -, rfl⟩ | ⟨-, rfl⟩ | ⟨l, -, -, rfl⟩ | ⟨l, p, -, -, rfl⟩ | ⟨x, -, rfl⟩ | ⟨bs, -, rfl⟩ |
    ⟨-, -, rfl⟩ | ⟨-, -, bytes, d, -, -, rfl⟩ := exec_cases hexec
  · exact h.withFlags v s.by32 s.defer
  · exact h.withFlags s.fast v s.defer
  · exact h.withFlags s.fast s.by32 v
  · exact h.runCommand hidle (startable_doFinish ..)
  · exact h
  · exact h.runCommand hidle (startable_bright ..)
  · exact h.loadAndDispatch hidle x
  · exact h.loadAndDispatch hidle _
  · exact h
  · exact h.playFrame hidle bytes d

/-- A reset with well-formed straps (R220, R223). -/
theorem applyReset_inv {cfg : Config} {s : State} (hcfg : configWf cfg = true) (hport : s.port.wf = true)
    (henv : s.env.all (fun e => envActSound e.2) = true) : (applyReset cfg s).Inv :=
  ⟨hcfg, rfl, by simp [maskVec], hport, rfl, rfl, fun hn => hn, Nat.zero_le _, nofun, fun _ => ⟨rfl, rfl⟩, nofun, rfl, rfl, henv⟩

/-- An act of the environment, a reset with well-formed straps among them. -/
theorem State.Inv.envStep {act : EnvAct} {s t : State} (h : s.Inv) (hact : envActSound act = true)
    (hstep : envStep act s = .next t) : t.Inv := by
  obtain ⟨r, -, -, rfl⟩ | ⟨r, b, -, -, rfl⟩ | ⟨cfg, rfl, rfl⟩ := envStep_cases hstep
  · exact h.replaced h.vregMasked h.portWf h.scriptSound s.fast s.by32 s.defer _ s.offers
  · exact h.replaced h.vregMasked (Memory.write_wf h.portWf r b) h.scriptSound s.fast s.by32 s.defer _ s.offers
  · exact applyReset_inv hact h.portWf h.scriptSound

end Sys2Proof.Machine
end

section
/-! SUPPORT. NEXT (44_animation.md): the cursor's step at the ends of the tables and inside them, the path of repeated steps in closed
form, and what an undisturbed NEXT ends in. -/

namespace Sys2Proof.Machine

open Sys2Proof

/-! ### The cursor's step -/

section
variable {n idx : Nat} (pp : Bool)

theorem advance_forward_inside (h : idx + 1 < n) : advance n pp idx .forward = (idx + 1, .forward) := by
  have hin : ¬ (n : Int) ≤ cursorTarget idx .forward := by simp only [cursorTarget]; omega
  have hpos : ¬ cursorTarget idx .forward < 0 := by simp only [cursorTarget]; omega
  rw [advance, if_neg hin, if_neg hpos]
  rfl

theorem advance_backward_inside (hpos : 0 < idx) (h : idx < n) : advance n pp idx .backward = (idx - 1, .backward) := by
  have hin : ¬ (n : Int) ≤ cursorTarget idx .backward := by simp only [cursorTarget]; omega
  have hpos' : ¬ cursorTarget idx .backward < 0 := by simp only [cursorTarget]; omega
  have htarget : (cursorTarget idx .backward).toNat = idx - 1 := by simp only [cursorTarget]; omega
  rw [advance, if_neg hin, if_neg hpos', htarget]

/-- Forward from the last frame the cursor overruns (R193). -/
theorem advance_last_forward (h : idx + 1 = n) : advance n pp idx .forward = overrun n pp :=
  if_pos (by simp only [cursorTarget]; omega)

/-- Backward from the first frame it underruns (R194). -/
theorem advance_first_backward (h : 0 < n) : advance n pp 0 .backward = underrun n pp := by
  have hin : ¬ (n : Int) ≤ cursorTarget 0 .backward := by simp only [cursorTarget]; omega
  have hneg : cursorTarget 0 .backward < 0 := by simp only [cursorTarget]; omega
  rw [advance, if_neg hin, if_pos hneg]

end

/-! ### The path of the cursor -/

/-- The cursor after `k` steps from `p` in tables of `n` frames. -/
def cursorAfter (n : Nat) (pp : Bool) (k : Nat) (p : Nat × Dir) : Nat × Dir := (fun q => advance n pp q.1 q.2)^[k] p

theorem cursorAfter_succ (n : Nat) (pp : Bool) (k : Nat) (p : Nat × Dir) :
    cursorAfter n pp (k + 1) p = advance n pp (cursorAfter n pp k p).1 (cursorAfter n pp k p).2 :=
  Function.iterate_succ_apply' ..

/-- The remainder counts on, and returns to 0 after its last value. -/
theorem succ_mod_eq (k : Nat) {m : Nat} (hm : 0 < m) : (k + 1) % m = if k % m + 1 = m then 0 else k % m + 1 := by
  have hlt := Nat.mod_lt k hm
  rw [← Nat.mod_add_mod]
  split_ifs with h
  · rw [h, Nat.mod_self]
  · exact Nat.mod_eq_of_lt (by omega)

/-- In wrap mode the cursor stays forward and goes round (R195). -/
theorem cursorAfter_wrap {n : Nat} (hn : 0 < n) (k : Nat) : cursorAfter n false k (0, .forward) = (wrapFrame n k, .forward) := by
  induction k with
  | zero => simp [cursorAfter, wrapFrame]
  | succ k ih =>
    have hlt := Nat.mod_lt k hn
    rw [cursorAfter_succ, ih, wrapFrame, wrapFrame, succ_mod_eq k hn]
    split_ifs with hlast
    · exact advance_last_forward false hlast
    · exact advance_forward_inside false (by omega)

/-- The cursor of `n` frames in ping-pong mode, `m` steps into a period: on the way up, or on the way down; at the turn at frame 0 it
has either direction. -/
structure PingPongAt (n m : Nat) (p : Nat × Dir) : Prop where
  frame : p.1 = if m < n then m else 2 * n - 2 - m
  dir : m = 0 ∨ p.2 = if m < n then .forward else .backward

theorem PingPongAt.step {n m : Nat} {p : Nat × Dir} (h : PingPongAt n m p) (hn : 2 ≤ n) (hm : m < 2 * n - 2) :
    PingPongAt n (if m + 1 = 2 * n - 2 then 0 else m + 1) (advance n true p.1 p.2) := by
  obtain ⟨idx, dir⟩ := p
  obtain ⟨hframe, hdir⟩ := h
  simp only at hframe hdir
  by_cases hup : m + 1 < n
  · rw [if_pos (by omega)] at hframe hdir
    have hnext : advance n true idx dir = (m + 1, .forward) := by
      cases dir with
      | forward => rw [hframe, advance_forward_inside true hup]
      | backward =>
        obtain rfl : m = 0 := hdir.resolve_right nofun
        rw [hframe, advance_first_backward true (by omega), underrun, if_pos rfl, Nat.min_eq_left (by omega)]
    rw [hnext, if_neg (by omega)]
    exact ⟨(if_pos hup).symm, .inr (if_pos hup).symm⟩
  · have hnext : advance n true idx dir = (2 * n - 2 - (m + 1), .backward) := by
      by_cases hlast : m + 1 = n
      · rw [if_pos (by omega)] at hframe hdir
        rw [hframe, hdir.resolve_left (by omega), advance_last_forward true hlast, overrun, if_pos rfl]
        congr 1
        omega
      · rw [if_neg (by omega)] at hframe hdir
        rw [hframe, hdir.resolve_left (by omega), advance_backward_inside true (by omega) (by omega), Nat.sub_sub]
    rw [hnext]
    split_ifs with hperiod
    · exact ⟨by rw [if_pos (by omega)]; simp only; omega, .inl rfl⟩
    · exact ⟨(if_neg hup).symm, .inr (if_neg hup).symm⟩

theorem pingPongAt_cursorAfter {n : Nat} (hn : 2 ≤ n) (k : Nat) :
    PingPongAt n (k % (2 * n - 2)) (cursorAfter n true k (0, .forward)) := by
  induction k with
  | zero => exact ⟨by rw [Nat.zero_mod, if_pos (by omega)]; rfl, .inl (Nat.zero_mod _)⟩
  | succ k ih =>
    have hperiod : 0 < 2 * n - 2 := by omega
    rw [cursorAfter_succ, succ_mod_eq k hperiod]
    exact ih.step hn (Nat.mod_lt k hperiod)

/-- No step takes the cursor out of the tables (R191). -/
theorem cursorAfter_lt {n : Nat} (hn : 0 < n) (pp : Bool) (k : Nat) : (cursorAfter n pp k (0, .forward)).1 < n := by
  induction k with
  | zero => exact hn
  | succ k ih =>
    rw [cursorAfter_succ]
    exact advance_lt pp _ ih

/-- In ping-pong mode the cursor goes up and down (R195); a single frame is shown again and again (R196). -/
theorem cursorAfter_pingPong {n : Nat} (hn : 0 < n) (k : Nat) :
    (cursorAfter n true k (0, .forward)).1 = pingPongFrame n k := by
  have hlt := cursorAfter_lt hn true k
  unfold pingPongFrame
  split_ifs with hone hup
  · omega
  · rw [(pingPongAt_cursorAfter (by omega) k).frame, if_pos hup]
  · rw [(pingPongAt_cursorAfter (by omega) k).frame, if_neg hup]

/-! ### NEXT to its end -/

theorem State.Inv.tables_length {s : State} (h : s.Inv) : s.cfg.frameCount ≤ 65535 ∧
    s.cfg.frameRom.length = s.cfg.frameCount ∧ s.cfg.delayRom.length = s.cfg.frameCount := by
  have hwf := h.config
  simp only [configWf, tablesSound, Bool.and_eq_true, decide_eq_true_eq] at hwf
  obtain ⟨⟨-, ⟨⟨hcount, hframes⟩, hdelays⟩, -⟩, -⟩ := hwf
  exact ⟨hcount, hframes, hdelays⟩

/-- The cursor's frame record and delay are in the tables (R55, R56, R191). -/
theorem State.Inv.frame_of_cursor {s : State} (h : s.Inv) (hcount : 0 < s.cfg.frameCount) :
    ∃ d, s.cfg.frameRom[s.fidx.toNat]? = some (s.cfg.frameRom.getD s.fidx.toNat []) ∧
      s.cfg.delayRom[s.fidx.toNat]? = some d := by
  obtain ⟨-, hframes, hdelays⟩ := h.tables_length
  have hcursor := h.cursor hcount
  have hframe : s.fidx.toNat < s.cfg.frameRom.length := hframes ▸ hcursor
  have hdelay : s.fidx.toNat < s.cfg.delayRom.length := hdelays ▸ hcursor
  refine ⟨s.cfg.delayRom[s.fidx.toNat], ?_, List.getElem?_eq_getElem hdelay⟩
  rw [List.getElem?_eq_getElem hframe, List.getD_eq_getElem _ _ hframe]

/-- The last two turns of a NEXT: the `WAITMS`, and the cursor's advance with the end of the command (R190, R192). -/
theorem foldl_holdActs (d : BitVec 16) (u : State) : ((holdActs d).foldl State.perform u).complete =
    { u.advanceCursor.complete with
      hist := (.engine, .waitMs d) :: u.hist
      env := elapse 1 (elapse 1 u.env) } := rfl

theorem port_of_emits {s : State} {acts : List Act} {es : List Event} (h : Emits s (acts.map Act.op) es) :
    (acts.foldl State.perform s).port = replay s.port es := by
  obtain ⟨phase, pos, hfold⟩ := foldl_perform_eq acts s
  rw [hfold, ← h.hist_port.2]

theorem playFrame_vreg (bytes : List Byte) (d : BitVec 16) (s : State) :
    (playFrame bytes d s).vreg = fromBytes s.cfg s.cfg.frameBytes bytes :=
  (runCommand_vreg ..).trans (maskVec_fromBytes ..)

theorem playFrame_kept (bytes : List Byte) (d : BitVec 16) (s : State) :
    (playFrame bytes d s).cfg = s.cfg ∧ (playFrame bytes d s).pins = s.pins ∧ (playFrame bytes d s).fast = s.fast ∧
      (playFrame bytes d s).by32 = s.by32 ∧ (playFrame bytes d s).defer = s.defer ∧
      (playFrame bytes d s).offers = s.offers := by
  simp [playFrame]

theorem playFrame_tables_of_safe {s : State} (h : s.fast = false) (bytes : List Byte) (d : BitVec 16) :
    (playFrame bytes d s).snap = s.snap ∧ (playFrame bytes d s).lut = s.lut := by
  have hacts (x : Vec) : dispatchActs (s.loadVreg x) = txSafe s.cfg (maskVec s.cfg x) := if_neg (by simp [h])
  rw [playFrame, hacts]
  exact runCommand_tables (List.forall_mem_append.2 ⟨txSafe_not_snapshot s.cfg _, by simp [holdActs, actsAt]⟩) (s.loadVreg _)

theorem playFrame_tmp_of_fast {s : State} (h : s.fast = true) (bytes : List Byte) (d : BitVec 16) :
    (playFrame bytes d s).tmp = s.tmp := by
  have hacts (x : Vec) : dispatchActs (s.loadVreg x) = txFast s.cfg s.pins (maskVec s.cfg x) s.by32 s.defer := if_pos h
  rw [playFrame, hacts]
  exact runCommand_tmp (List.forall_mem_append.2 ⟨txFast_not_pinRead s.cfg s.pins _ _ _, by simp [holdActs, actsAt]⟩)
    (s.loadVreg _)

/-- A NEXT that shows the record `bytes` and holds it for `d` has run from `s` to its end in `t` (R190). -/
structure Played (s : State) (bytes : List Byte) (d : BitVec 16) (t : State) : Prop where
  hist : t.hist = record (frameEvents s (fromBytes s.cfg s.cfg.frameBytes bytes) ++ [.waitMs d]) s.hist
  port : t.port = replay s.port (frameEvents s (fromBytes s.cfg s.cfg.frameBytes bytes))
  cursor : (t.fidx.toNat, t.dir) = advance s.cfg.frameCount s.cfg.pingPong s.fidx.toNat s.dir
  busy : t.busy = false
  phase : t.phase = .idle
  pos : t.pos = s.cfg.nOut
  pending : t.pending = []

theorem played_playFrame {s : State} (hinv : s.Inv) (hcount : 0 < s.cfg.frameCount) (bytes : List Byte) (d : BitVec 16)
    (hund : s.undisturbed ((frameEvents s (fromBytes s.cfg s.cfg.frameBytes bytes)).length + 2) = true) :
    Played s bytes d (playFrame bytes d s) := by
  set x := fromBytes s.cfg s.cfg.frameBytes bytes
  have hmask : maskVec s.cfg x = x := maskVec_fromBytes ..
  have hlen := length_dispatchActs_begun hinv.ready x
  have hport := port_of_emits (emits_begun hinv.ready x)
  obtain ⟨hhist, -, hpos, hfidx, hdir⟩ := foldl_dispatchActs_begun hinv.ready x
  rw [hmask] at hlen hport hhist
  have hturns : (dispatchActs (s.begun x) ++ holdActs d).length = (frameEvents s x).length + 2 := by
    rw [List.length_append, hlen]
    rfl
  have hcfg : ((dispatchActs (s.begun x)).foldl State.perform (s.begun x)).cfg = s.cfg := foldl_perform_cfg ..
  have hend : playFrame bytes d s =
      ((holdActs d).foldl State.perform ((dispatchActs (s.begun x)).foldl State.perform (s.begun x))).complete := by
    rw [← List.foldl_append]
    exact engineRun_undisturbed (dispatchActs (s.begun x) ++ holdActs d) (s.begun x) (hturns ▸ hund)
  rw [hend, foldl_holdActs]
  refine ⟨?_, hport, ?_, rfl, rfl, hpos, rfl⟩
  · rw [record_append, ← hhist]
    rfl
  · generalize (dispatchActs (s.begun x)).foldl State.perform (s.begun x) = u at hcfg hfidx hdir
    have hcursor := advanceCursor_toNat (s := u) (hcfg ▸ hinv.tables_length.1) (by rw [hcfg, hfidx]; exact hinv.cursor hcount)
    rw [hcfg, hfidx, hdir] at hcursor
    refine Prod.ext hcursor ?_
    rw [← hcfg, ← hfidx, ← hdir]
    rfl

/-! ### One NEXT after the other -/

theorem runCommand_env_nil {s : State} (h : s.env = []) (acts : List Act) : (s.runCommand acts).env = [] :=
  engineRun_induction (P := fun u => u.env = []) (fun act _ u hu => by rw [perform_env, hu, elapse_nil]) (fun _ hu => hu)
    (fun _ _ hu => hu) h

/-- A sound idle engine with frames to show, whose environment does nothing. -/
structure Playing (cfg : Config) (p : Nat × Dir) (s : State) : Prop where
  inv : s.Inv
  idle : s.busy = false
  env : s.env = []
  cfg_eq : s.cfg = cfg
  cursor : (s.fidx.toNat, s.dir) = p

theorem Playing.next {cfg : Config} {p : Nat × Dir} {s : State} (h : Playing cfg p s) (hcount : 0 < cfg.frameCount) :
    ∃ t, exec .next s = .next t ∧ Playing cfg (advance cfg.frameCount cfg.pingPong p.1 p.2) t ∧
      t.vreg = fromBytes cfg cfg.frameBytes (cfg.frameRom.getD p.1 []) := by
  obtain ⟨hinv, hidle, henv, rfl, rfl⟩ := h
  obtain ⟨d, hrec, hd⟩ := hinv.frame_of_cursor hcount
  have hplayed := played_playFrame hinv hcount (s.cfg.frameRom.getD s.fidx.toNat []) d (by simp [State.undisturbed, henv])
  have hstill : (playFrame (s.cfg.frameRom.getD s.fidx.toNat []) d s).env = [] := runCommand_env_nil (s := s.loadVreg _) henv _
  exact ⟨_, exec_next_of_frame hcount.ne' hrec hd, ⟨hinv.playFrame hidle _ d, hplayed.busy, hstill, (playFrame_kept ..).1,
    hplayed.cursor⟩, playFrame_vreg ..⟩

theorem Playing.execAll_next {cfg : Config} (hcount : 0 < cfg.frameCount) (k : Nat) {p : Nat × Dir} {s : State}
    (h : Playing cfg p s) : ∃ t, execAll (List.replicate k .next) s = .next t ∧
      Playing cfg (cursorAfter cfg.frameCount cfg.pingPong k p) t := by
  induction k generalizing p s with
  | zero => exact ⟨s, rfl, h⟩
  | succ k ih =>
    obtain ⟨t, hexec, ht, -⟩ := h.next hcount
    obtain ⟨u, hexecs, hu⟩ := ih ht
    exact ⟨u, (execAll_cons hexec _).trans hexecs, hu⟩

/-! ### The end of the wait -/

/-- The end of a wait is IDLE and ends no frame (R26). -/
theorem act_of_advance {cfg : Config} {pins : Pins} {act : Act} (h : actSound cfg pins act = true) (hop : act.op = .advance) :
    act = ⟨.idle, none, .advance, none⟩ := by
  obtain ⟨phase, pos, op, frameEnd⟩ := act
  obtain rfl : op = .advance := hop
  simp only [actSound, positionSound, Bool.and_eq_true] at h
  obtain ⟨-, ⟨⟨⟨hplace, -⟩, hphase⟩, hend⟩, -⟩ := h
  obtain rfl : phase = .idle := by simpa using hphase
  obtain rfl : pos = none := by simpa using hplace
  obtain rfl : frameEnd = none := by simpa using hend
  rfl

/-- In WAIT the end of the wait is all that is left (R26). -/
theorem State.Inv.pending_of_wait {s : State} (h : s.Inv) (hwait : s.phase = .wait) :
    s.busy = true ∧ s.pending = actsAt .idle none [.advance] := by
  have hbusy : s.busy = true := by
    by_contra hidle
    have hphase := (h.idle (Bool.eq_false_iff.2 hidle)).1
    rw [hwait] at hphase
    cases hphase
  obtain ⟨act, acts, hpending⟩ := List.exists_cons_of_ne_nil (h.busy hbusy)
  obtain ⟨hadvance, hlast⟩ := waitSound_cons (hpending ▸ h.waiting)
  have hop := hadvance.1 hwait
  have hsound := List.all_eq_true.1 h.pendingSound act (hpending ▸ List.mem_cons_self)
  rw [hpending, hlast hop, act_of_advance hsound hop]
  exact ⟨hbusy, rfl⟩

end Sys2Proof.Machine
end

section
/-! SUPPORT. The statements of the family 44_animation.md. -/

namespace Sys2Proof.Machine

open Sys2Proof

/-- Settles O3: whichever agent takes the step, its act, the command it accepts or the rest of the command under way keeps the
invariant. -/
theorem everyStepKeepsTheInvariant : Obligations.EveryStepKeepsTheInvariant := by
  intro s t hinv hstep
  obtain ⟨act, rest, henv, hact⟩ | ⟨-, -, hbusy, rfl⟩ | ⟨-, -, -, -, rfl⟩ | ⟨-, -, -, w, rest, e, -, -, rfl⟩ |
    ⟨-, -, hidle, w, rest, i, -, -, hexec⟩ := step_cases hstep
  · obtain ⟨hsound, hrest⟩ : envActSound act = true ∧ rest.all (fun e => envActSound e.2) = true := by
      simpa [henv] using hinv.scriptSound
    exact (hinv.withScripts s.offers hrest).envStep hsound hact
  · exact (hinv.underWay hbusy).engineRun_inv
  · exact hinv
  · exact hinv.withScripts rest (elapse_scriptSound 1 hinv.scriptSound)
  · exact (hinv.withScripts rest (elapse_scriptSound 1 hinv.scriptSound)).exec hidle hexec

/-- Settles O33: the turns of the frame emit its closed form, the `WAITMS` and the cursor's advance come after them, and no turn of the
command changes anything else. -/
theorem nextShowsHoldsAndAdvances : Obligations.NextShowsHoldsAndAdvances := by
  intro s bytes d hinv _ hcount hrec hd hund
  have hexec := exec_next_of_frame hcount.ne' hrec hd
  obtain ⟨hhist, hport, hcursor, hbusy, hphase, hpos, hpending⟩ := played_playFrame hinv hcount bytes d hund
  obtain ⟨hcfg, hpins, hfast, hby32, hdefer, hoffers⟩ := playFrame_kept bytes d s
  exact ⟨_, hexec, playFrame_vreg .., hhist, hport, hcursor, hbusy, hphase, hpos, hpending, hcfg, hpins, hfast, hby32, hdefer,
    hoffers, fun h => playFrame_tables_of_safe h bytes d, fun h => playFrame_tmp_of_fast h bytes d,
    fun r hr => read_eq_of_hasForeignBits hr (exec_foreign_bits hinv.portWf hinv.lutWf hexec r)⟩

/-- Settles O36: the cursor before the `k`-th NEXT is `k` steps of ADVANCE from the start, and these go up and down, or round. -/
theorem framesAreVisitedInTheStatedOrder : Obligations.FramesAreVisitedInTheStatedOrder := by
  intro s k hinv hidle henv hfidx hdir hcount
  have hstart : Playing s.cfg (0, .forward) s := ⟨hinv, hidle, henv, rfl, by rw [hfidx, hdir]; rfl⟩
  obtain ⟨t, hexecs, ht⟩ := hstart.execAll_next hcount k
  obtain ⟨u, hexec, -, hvreg⟩ := ht.next hcount
  have hframe : t.fidx.toNat = (cursorAfter s.cfg.frameCount s.cfg.pingPong k (0, .forward)).1 := congrArg Prod.fst ht.cursor
  refine ⟨t, u, hexecs, hexec, ?_, hframe ▸ hvreg⟩
  rw [hframe]
  cases s.cfg.pingPong with
  | true => exact cursorAfter_pingPong hcount k
  | false => exact congrArg Prod.fst (cursorAfter_wrap hcount k)

/-- Settles O49: all that is left is the end of the wait, whose turn moves the cursor and ends the command. -/
theorem waitEndsWithTheCursorsAdvance : Obligations.WaitEndsWithTheCursorsAdvance := by
  intro s hinv hwait hdue
  obtain ⟨hbusy, hpending⟩ := hinv.pending_of_wait hwait
  rw [step_of_busy hdue hinv.config hbusy, State.resume, hpending]
  exact congrArg Host.Outcome.next (engineRun_cons_of_not_due hdue _ [])

/-- Settles O34: NEXT looks at the size of the tables first. -/
theorem nextWithAnEmptyTableDoesNothing : Obligations.NextWithAnEmptyTableDoesNothing := fun _ => exec_next_of_empty

/-- Settles O35: the step inside the tables, and the overrun and the underrun at their ends. -/
theorem cursorStepsAndTurns : Obligations.CursorStepsAndTurns := by
  intro n idx hn
  have hlast : n - 1 + 1 = n := Nat.sub_add_cancel hn
  exact ⟨fun pp => advance_forward_inside pp, fun pp => advance_backward_inside pp, advance_last_forward true hlast,
    advance_last_forward false hlast, advance_first_backward true hn, advance_first_backward false hn⟩

end Sys2Proof.Machine
end

section
/-! SUPPORT. The statement of the family 60_exceptions.md. -/

namespace Sys2Proof.Machine

open Sys2Proof

/-- With a well-formed configuration and nothing offered, an idle engine leaves every part of the state as it was (R213). -/
theorem step_of_nothing_offered {s : State} (hdue : dueAct s = none) (hcfg : configWf s.cfg = true) (hbusy : s.busy = false)
    (hoffers : s.offers = []) : step s = .next s := by
  simp [step, hdue, hcfg, hbusy, acceptOffer, hoffers]

/-- Settles O40: the invariant gives the well-formed configuration that the engine needs to wait rather than be refused. -/
theorem idleEngineWaits : Obligations.IdleEngineWaits := fun _ hinv hbusy hdue hoffers =>
  step_of_nothing_offered hdue hinv.config hbusy hoffers

end Sys2Proof.Machine
end

section
/-! SUPPORT. The statements of the family 70_reset_and_hazards.md, and BRIGHT as an act of the environment interrupts it. -/

namespace Sys2Proof.Machine

open Sys2Proof

/-- A due write of a register that the platform has happens in one step (R50, R62). -/
theorem step_of_writeDue {s : State} {r : RegId} {b : Byte} {rest : List (Nat × EnvAct)} (henv : s.env = (0, .write r b) :: rest)
    (hr : r < s.cfg.nRegs) : step s = .next (envWrite r b { s with env := rest }) :=
  (step_of_envDue henv).trans (if_pos hr)

/-- BRIGHT with an act due at its acceptance stops before its event, all of it pending (R221). -/
theorem exec_bright_of_envDue {s : State} {p : Nat} (level : Byte) {act : EnvAct} {rest : List (Nat × EnvAct)}
    (hp : s.cfg.brtPin = some p) (henv : s.env = (0, act) :: rest) :
    exec (.bright level) s = .next { s with busy := true, pending := actsAt .idle none [.pwm level] } := by
  rw [exec_bright_of_some level hp]
  exact congrArg Host.Outcome.next (if_pos (by simp [State.envDue, henv]))

/-- An engine with only its `PWM` left to do, and no script, hands the level over and is idle again. -/
theorem resume_bright (s : State) (level : Byte) :
    { s with busy := true, pending := actsAt .idle none [.pwm level], env := [] }.resume =
      { s.complete with hist := (.engine, .pwm level) :: s.hist, env := [] } :=
  (engineRun_of_env_nil rfl).trans
    (foldl_brightTurn { s with pending := actsAt .idle none [.pwm level], env := [] } level)

/-- Settles O1: an act that is due comes before everything else, and the fields of the state it leaves are those of `applyReset`. -/
theorem resetTakesTheValuesOfTheRule : Obligations.ResetTakesTheValuesOfTheRule := by
  intro s cfg rest henv
  refine ⟨applyReset cfg { s with env := rest }, step_of_envDue henv, ?_⟩
  simp [resolvePins]

/-- Settles O51: BRIGHT stops before its event, the write happens in one step, and the `PWM` in the next; neither reads what the other
writes. -/
theorem foreignWriteDuringBrightGoesUnnoticed : Obligations.ForeignWriteDuringBrightGoesUnnoticed := by
  intro s level p r b hinv hidle hp hr henv
  refine ⟨_, _, _, exec_bright_of_envDue level hp henv, rfl, step_of_writeDue henv hr, step_of_busy rfl hinv.config rfl, ?_⟩
  have hwritten : (envWrite r b s).complete = envWrite r b s := congrArg (envWrite r b) (hinv.complete_eq hidle)
  refine (resume_bright (envWrite r b s) level).trans ?_
  rw [hwritten]
  rfl

end Sys2Proof.Machine
end

section
/-! SUPPORT. The statements of the family other: the encoding's round trip and the words written out, reset as the start of the
invariant, and progress, which holds agent by agent: an act of the environment that the platform can make, and a command that the
engine accepts. -/

namespace Sys2Proof.Machine

open Sys2Proof

/-- A due act that the platform can make happens: the register exists, or it is a reset (R50, R220). -/
theorem envStep_of_envPossible {s : State} {act : EnvAct} {rest : List (Nat × EnvAct)} (henv : s.env = (0, act) :: rest)
    (hposs : s.envPossible = true) : ∃ t, envStep act { s with env := rest } = .next t := by
  cases act with
  | read r =>
    have hr : r < s.cfg.nRegs := by simpa [State.envPossible, henv] using hposs
    exact ⟨_, if_pos hr⟩
  | write r b =>
    have hr : r < s.cfg.nRegs := by simpa [State.envPossible, henv] using hposs
    exact ⟨_, if_pos hr⟩
  | reset straps => exact ⟨_, rfl⟩

/-- Every command has an outcome in a sound state (R171, R200): the one that could fail is NEXT, and its cursor is inside the tables. -/
theorem State.Inv.exec_answers {s : State} (h : s.Inv) (i : Instr) : ∃ t, Machine.exec i s = .next t := by
  cases i with
  | bright level =>
    cases hpin : s.cfg.brtPin with
    | none => exact ⟨_, exec_bright_of_none level hpin⟩
    | some p => exact ⟨_, exec_bright_of_some level hpin⟩
  | next =>
    obtain hempty | hcount := Nat.eq_zero_or_pos s.cfg.frameCount
    · exact ⟨_, exec_next_of_empty hempty⟩
    · obtain ⟨d, hframe, hdelay⟩ := h.frame_of_cursor hcount
      exact ⟨_, exec_next_of_frame hcount.ne' hframe hdelay⟩
  | _ => exact ⟨_, rfl⟩

/-- Settles O6: each command's opcode selects its own decoder case, and the payload gives its operands back. -/
theorem decodeOfEncodeIsTheCommand : Obligations.DecodeOfEncodeIsTheCommand := fun _ => decode_encode

/-- Settles O4: a due act happens, a busy engine resumes, and an idle one waits, takes a reserved word, or runs a command that answers
in the state after its acceptance. -/
theorem noStepStopsInASoundState : Obligations.NoStepStopsInASoundState := by
  intro s hinv hposs
  cases hdue : dueAct s with
  | some due =>
    obtain ⟨act, s'⟩ := due
    obtain ⟨rest, henv, -⟩ := dueAct_eq_some hdue
    rw [step_of_envDue henv]
    exact envStep_of_envPossible henv hposs
  | none =>
    cases hbusy : s.busy with
    | true => exact ⟨_, step_of_busy hdue hinv.config hbusy⟩
    | false =>
      cases hoffers : s.offers with
      | nil => exact ⟨_, step_of_nothing_offered hdue hinv.config hbusy hoffers⟩
      | cons w rest =>
        cases hdec : decode w with
        | error e => exact ⟨_, step_of_decode_error hdue hinv.config hbusy hoffers hdec⟩
        | ok i =>
          rw [step_of_decode_ok hdue hinv.config hbusy hoffers hdec]
          exact (hinv.withScripts rest (elapse_scriptSound 1 hinv.scriptSound)).exec_answers i

/-- Settles O2: a reset with well-formed straps gives the invariant, and `State.reset` is the reset of itself with the sample straps. -/
theorem resetEstablishesTheInvariant : Obligations.ResetEstablishesTheInvariant := by
  refine ⟨?_, fun _ _ => applyReset_inv⟩
  have hreset : applyReset Config.sample State.reset = State.reset := rfl
  exact hreset ▸ applyReset_inv (by decide) rfl rfl

/-- Settles O7: the opcode of each word selects its decoder case, and the operands are bits of the word. -/
theorem writtenOutWordsDecode : Obligations.WrittenOutWordsDecode :=
  ⟨decode_of_set rfl, decode_of_setb (n := 9) (by decide) rfl, decode_of_finish rfl, decode_of_bright rfl, decode_of_fast rfl,
    decode_of_by32 rfl, decode_of_defer rfl, decode_of_next rfl, decode_of_reserved rfl⟩

end Sys2Proof.Machine
end
